-- ==== Sys2Proof/Word.lean ====
section
/-!
DEFINITION. The word types of RFC8439-CORE. A byte is 8 bits; a ChaCha20 state word and a command
word are 32 bits (R6, R70); the cipher state is 16 words (R24). Arithmetic on them is `BitVec`'s:
addition wraps, as `+32` does (R9).
-/

namespace Sys2Proof

/-- A byte of a payload, of a response or of the sink's stream (R8). -/
abbrev Byte := BitVec 8

/-- An unsigned 32-bit word, the `u32` of R9. -/
abbrev Word := BitVec 32

/-- Sixteen `u32` words, indexed 0 to 15: the shape of `CC.S` and of its working copy (R24, R36). -/
abbrev CipherState := Vector Word 16

end Sys2Proof
end

