-- ==== Sys2Proof/Config.lean ====
section
/-!
DEFINITION. What is fixed for the block: its identity (R1), its sizes (R6), the granule of CC_XORB
(R7) and the one open constant a realisation picks, PAYLOAD_MAX (R7, 92_eei_decisions.md D4).
The other open parameters of R7 are draws and stand in State: the sink's answers (`sinkAnswers`), with
the prefix a failed write leaves and the failure's descriptor, and sink_segmentation (`divisions`).
-/

namespace Sys2Proof.Config

/-- The block's identity string (R1). -/
def identity : String := "RFC8439-CORE/CC20-P1305-AEAD/v7"

/-- Key length in bytes of ChaCha20 and of Poly1305 (R6). -/
def keyLen : Nat := 32

/-- Nonce length in bytes (R6). -/
def nonceLen : Nat := 12

/-- Keystream block length in bytes (R6), and BLOCK_BYTES_FIXED of R7, the granule of CC_XORB. -/
def blockLen : Nat := 64

/-- Poly1305 block length, and the padding unit and footer length of the AEAD (R6). -/
def polyBlockLen : Nat := 16

/-- Tag length in bytes (R6). -/
def tagLen : Nat := 16

/-- The largest value of the block counter, at which no block can be generated (R104, R106). -/
def counterMax : Nat := 0xFFFFFFFF

/-- The largest value of a 64-bit length count (R31), and the largest payload length N that a
transaction can have in any realisation (R70). -/
def lengthMax : Nat := 2 ^ 64 - 1

/-- The longest key or nonce a command word can announce (R73, R74). -/
def argMax : Nat := 255

/-- PAYLOAD_MAX, the largest payload length a realisation's port carries: OPEN in R7, at most
2^64 − 1, so a 64-bit value. It has no body: nothing can be proved of its value.
DESIGN CHOICE (log entry 8): `step` does not test it; a claim that needs it takes
`Transaction.presentable` as a premise. Safe. -/
opaque payloadMax : BitVec 64

end Sys2Proof.Config
end

