-- ==== Sys2Proof/Machine/Operands.lean ====
section
/-!
DEFINITION. Bytes and numbers: the slices of R8 and the little-endian conversions of R10, used by
the decoder (R87) and by every function of the block (R53). The block has no other operand form:
no register operand, no immediate and no address (R21, R87).
-/

namespace Sys2Proof.Machine

/-- `b[o : o+n]`, and `MemRead(o, n)` on a payload b (R8, R11, R51). -/
def slice (b : List Byte) (o n : Nat) : List Byte := (b.drop o).take n

/-- `zeros(n)`: n bytes of 0x00 (R8). -/
def zeros (n : Nat) : List Byte := List.replicate n 0

/-- `LE(b)`: the unsigned integer whose least significant byte is `b[0]` (R10). -/
def leNat : List Byte → Nat
  | [] => 0
  | b :: bs => b.toNat + 256 * leNat bs

/-- `ENCn(v)` for n = 8 × `n` bits: the `n` bytes of v, least significant first (R10). -/
def encLE : Nat → Nat → List Byte
  | 0, _ => []
  | n + 1, v => BitVec.ofNat 8 v :: encLE n (v / 256)

/-- `LE32(b, o)` (R10). -/
def le32 (b : List Byte) (o : Nat) : Word := BitVec.ofNat 32 (leNat (slice b o 4))

/-- `LE64(b, o)` (R10). -/
def le64 (b : List Byte) (o : Nat) : BitVec 64 := BitVec.ofNat 64 (leNat (slice b o 8))

/-- `LE128(b, o)` (R10). -/
def le128 (b : List Byte) (o : Nat) : BitVec 128 := BitVec.ofNat 128 (leNat (slice b o 16))

/-- `ENC32(w)` (R10). -/
def enc32 (w : Word) : List Byte := encLE 4 w.toNat

/-- `ENC64(v)` (R10). -/
def enc64 (v : BitVec 64) : List Byte := encLE 8 v.toNat

/-- `ENC128(v)` (R10). -/
def enc128 (v : BitVec 128) : List Byte := encLE 16 v.toNat

/-- `ceil(a / b)` (R9), for b > 0. -/
def ceilDiv (a b : Nat) : Nat := (a + (b - 1)) / b

/-- `pad16len(n)`: n rounded up to a multiple of 16, "0 extra if already aligned" (R9). -/
def pad16len (n : Nat) : Nat := Config.polyBlockLen * ceilDiv n Config.polyBlockLen

/-- `pad16(x)`: x followed by zero bytes up to the next multiple of 16 (R177). -/
def pad16 (x : List Byte) : List Byte := x ++ zeros (pad16len x.length - x.length)

/-- The first `k` pieces of `n` bytes of a byte sequence, in order; the last may be shorter. -/
def pieces (n : Nat) : Nat → List Byte → List (List Byte)
  | 0, _ => []
  | k + 1, d => d.take n :: pieces n k (d.drop n)

/-- All of a byte sequence in pieces of `n` bytes: `d[n*j : min(n*j + n, |d|)]` for j from 0 to
`ceil(|d| / n) − 1`, the loops of R105 and R143. An empty sequence has no piece. -/
def blocksOf (n : Nat) (d : List Byte) : List (List Byte) := pieces n (ceilDiv d.length n) d

end Sys2Proof.Machine
end

