-- ==== Sys2Proof/Syntax.lean ====
section
/-!
DEFINITION. The syntax: what the host presents (a transaction, R70) and what it means once decoded
(an instruction, one constructor for each row of the opcode map R79). An instruction carries its
payload already cut into the operands of R78, as the assembler syntax R88 writes them, so that the
machine never sees a raw encoding (DEDUCED, log entry 1: safe).
-/

namespace Sys2Proof

/-- One transaction on the command port (R70): the command word W and the payload. The payload
length N is the length of the list. -/
structure Transaction where
  word : Word
  payload : List Byte
  deriving DecidableEq, Repr

/-- A decoded command: one constructor for each row of the opcode map (R79), with the operands
of R78. -/
inductive Instr where
  /-- CC_INIT (R107): construct the cipher context. `ctr` is absent when CP = 0 (R75). -/
  | ccInit (key nonce : List Byte) (ctr : Option Word)
  /-- CC_BLOCK (R108): generate the next keystream block. -/
  | ccBlock
  /-- CC_XOR (R109): encrypt or decrypt a byte sequence. -/
  | ccXor (data : List Byte)
  /-- CC_XORB (R110): fixed-size-buffer encryption. -/
  | ccXorb (data : List Byte)
  /-- CC_RESET (R111): rewind the counter. -/
  | ccReset
  /-- P_INIT (R146): construct the authenticator from a one-time key. -/
  | pInit (key : List Byte)
  /-- P_DERIVE (R147): key the authenticator from the cipher's pending block. -/
  | pDerive
  /-- P_UPDATE (R148): absorb message bytes. -/
  | pUpdate (data : List Byte)
  /-- P_FINAL (R149): emit the tag and exhaust the authenticator. -/
  | pFinal
  /-- AEAD_INIT (R172): open a session. -/
  | aeadInit (key nonce : List Byte)
  /-- AEAD_AAD (R173): feed associated data. -/
  | aeadAad (data : List Byte)
  /-- AEAD_UPDATE (R174): encrypt plaintext into the stream. -/
  | aeadUpdate (data : List Byte)
  /-- AEAD_FINAL (R175): write the length footer and return the tag. -/
  | aeadFinal
  /-- AEAD_DECRYPT (R176): verify, then decrypt. The payload is `buf ++ tag` (R78). -/
  | aeadDecrypt (buf tag : List Byte)
  deriving DecidableEq, Repr

/-- The operation an opcode names (R79): the instruction without its operands. -/
inductive Op where
  | ccInit | ccBlock | ccXor | ccXorb | ccReset
  | pInit | pDerive | pUpdate | pFinal
  | aeadInit | aeadAad | aeadUpdate | aeadFinal | aeadDecrypt
  deriving DecidableEq, Repr

/-- Why a command is illegal (R80). The host sees one status for all of them, IllegalCommand; the
names are the model's (DESIGN CHOICE, log entry 18: safe). -/
inductive Illegal where
  /-- OPC is in no row of R79 (R72). -/
  | unassignedOpcode
  /-- OPC is assigned, and a reserved bit (R76) or a field the opcode does not use (R77) is set. -/
  | fieldNotZero
  /-- The word matches a row and the payload fails the row's length condition (R78). -/
  | badLength
  deriving DecidableEq, Repr

end Sys2Proof
end

