-- ==== Sys2Proof/WellFormed.lean ====
section
/-!
DEFINITION. Well-formed transactions and instructions: those that can be presented on the port.
A transaction's N is at most 2^64 − 1 (R70). An instruction is well formed when its operands can be
written in a command word and a payload: a key and a nonce have at most 255 bytes (R73, R74, R88),
AEAD_DECRYPT's tag has 16 bytes (R78), and the payload as a whole fits a transaction.
A key of the wrong length is well formed: the block answers it with InvalidKeyLength (R107).
-/

namespace Sys2Proof

/-- The transaction's payload length is one the port can have in some realisation (R70). -/
def Transaction.wf (t : Transaction) : Bool := decide (t.payload.length ≤ Config.lengthMax)

/-- The transaction is one that this realisation's port carries (R7, PAYLOAD_MAX): a premise of the
host's duties (93_implementation_defined.md section 2), tested by no step. -/
def Transaction.presentable (t : Transaction) : Prop :=
  t.payload.length ≤ Config.payloadMax.toNat

/-- The operand can be announced in an 8-bit length field (R73, R74). -/
def fitsLengthField (x : List Byte) : Bool := decide (x.length ≤ Config.argMax)

/-- A data operand fits a transaction's payload (R70). -/
def fitsPayload (x : List Byte) : Bool := decide (x.length ≤ Config.lengthMax)

/-- The instruction can be encoded: the operand conditions of R73, R74, R78 and R70. -/
def Instr.wf : Instr → Bool
  | .ccInit key nonce _ => fitsLengthField key && fitsLengthField nonce
  | .ccBlock => true
  | .ccXor data => fitsPayload data
  | .ccXorb data => fitsPayload data
  | .ccReset => true
  | .pInit key => fitsLengthField key
  | .pDerive => true
  | .pUpdate data => fitsPayload data
  | .pFinal => true
  | .aeadInit key nonce => fitsLengthField key && fitsLengthField nonce
  | .aeadAad data => fitsPayload data
  | .aeadUpdate data => fitsPayload data
  | .aeadFinal => true
  | .aeadDecrypt buf tag => decide (tag.length = Config.tagLen) && fitsPayload (buf ++ tag)

end Sys2Proof
end

