-- ==== Sys2Proof/Decode.lean ====
section
/-!
DEFINITION. Decoding (R82), total on every transaction, refusing by name (R80); the encoder, written
from the same format (R71) and opcode map (R79), which is also what the assembler emits (R88); and
the transaction that stands for a word of spec/opcode_table.json.
-/

namespace Sys2Proof

open Sys2Proof.Machine

/-- OPC, W[7:0], of each operation (R79). -/
def opCode : Op → BitVec 8
  | .ccInit => 0x10
  | .ccBlock => 0x11
  | .ccXor => 0x12
  | .ccXorb => 0x13
  | .ccReset => 0x14
  | .pInit => 0x20
  | .pDerive => 0x21
  | .pUpdate => 0x22
  | .pFinal => 0x23
  | .aeadInit => 0x30
  | .aeadAad => 0x31
  | .aeadUpdate => 0x32
  | .aeadFinal => 0x33
  | .aeadDecrypt => 0x34

/-- A row of the opcode map (R79): the bits of the word in `mask` must equal `pattern`. -/
structure OpRow where
  op : Op
  pattern : Word
  mask : Word
  deriving DecidableEq, Repr

/-- The opcode map R79, row by row. -/
def opcodeMap : List OpRow :=
  [ ⟨.ccInit, 0x00000010, 0xFE0000FF⟩,
    ⟨.ccBlock, 0x00000011, 0xFFFFFFFF⟩,
    ⟨.ccXor, 0x00000012, 0xFFFFFFFF⟩,
    ⟨.ccXorb, 0x00000013, 0xFFFFFFFF⟩,
    ⟨.ccReset, 0x00000014, 0xFFFFFFFF⟩,
    ⟨.pInit, 0x00000020, 0xFFFF00FF⟩,
    ⟨.pDerive, 0x00000021, 0xFFFFFFFF⟩,
    ⟨.pUpdate, 0x00000022, 0xFFFFFFFF⟩,
    ⟨.pFinal, 0x00000023, 0xFFFFFFFF⟩,
    ⟨.aeadInit, 0x00000030, 0xFF0000FF⟩,
    ⟨.aeadAad, 0x00000031, 0xFFFFFFFF⟩,
    ⟨.aeadUpdate, 0x00000032, 0xFFFFFFFF⟩,
    ⟨.aeadFinal, 0x00000033, 0xFFFFFFFF⟩,
    ⟨.aeadDecrypt, 0x00000034, 0xFFFFFFFF⟩ ]

/-- The word is one of the row's words: `(W & mask) == match` (R82). -/
def rowMatches (w : Word) (r : OpRow) : Bool := (w &&& r.mask) == r.pattern

/-- The operation whose row the word matches, if any (R79, R82). -/
def findOp (w : Word) : Option Op := (opcodeMap.find? (rowMatches w)).map OpRow.op

/-- OPC, W[7:0] (R72). -/
def fieldOPC (w : Word) : BitVec 8 := w.extractLsb' 0 8

/-- KLEN, W[15:8], zero-extended (R73). -/
def fieldKLEN (w : Word) : Nat := (w.extractLsb' 8 8).toNat

/-- NLEN, W[23:16], zero-extended (R74). -/
def fieldNLEN (w : Word) : Nat := (w.extractLsb' 16 8).toNat

/-- CP, W[24] (R75). -/
def fieldCP (w : Word) : Bool := w.getLsbD 24

/-- LengthOK of R82: the length condition of R78 on the payload length N. -/
def lengthOK (op : Op) (klen nlen : Nat) (cp : Bool) (n : Nat) : Bool :=
  match op with
  | .ccInit => n == klen + nlen + (if cp then 4 else 0)
  | .ccBlock => n == 0
  | .ccXor => true
  | .ccXorb => true
  | .ccReset => n == 0
  | .pInit => n == klen
  | .pDerive => n == 0
  | .pUpdate => true
  | .pFinal => n == 0
  | .aeadInit => n == klen + nlen
  | .aeadAad => true
  | .aeadUpdate => true
  | .aeadFinal => n == 0
  | .aeadDecrypt => decide (Config.tagLen ≤ n)

/-- The instruction of a matching row: the payload cut into the operands of R78. CC_INIT's counter
is the little-endian word after the key and the nonce (R87). -/
def operandsOf (op : Op) (klen nlen : Nat) (cp : Bool) (p : List Byte) : Instr :=
  match op with
  | .ccInit => .ccInit (slice p 0 klen) (slice p klen nlen)
      (if cp then some (le32 p (klen + nlen)) else none)
  | .ccBlock => .ccBlock
  | .ccXor => .ccXor p
  | .ccXorb => .ccXorb p
  | .ccReset => .ccReset
  | .pInit => .pInit (slice p 0 klen)
  | .pDerive => .pDerive
  | .pUpdate => .pUpdate p
  | .pFinal => .pFinal
  | .aeadInit => .aeadInit (slice p 0 klen) (slice p klen nlen)
  | .aeadAad => .aeadAad p
  | .aeadUpdate => .aeadUpdate p
  | .aeadFinal => .aeadFinal
  | .aeadDecrypt => .aeadDecrypt (slice p 0 (p.length - Config.tagLen))
      (slice p (p.length - Config.tagLen) Config.tagLen)

/-- Which name of R80 a word that matches no row has. -/
def whyNoRow (w : Word) : Illegal :=
  if opcodeMap.any (fun r => opCode r.op == fieldOPC w) then .fieldNotZero else .unassignedOpcode

/-- Decode of R82: a command or the reason it is illegal. It reads no state. -/
def decode (t : Transaction) : Except Illegal Instr :=
  match findOp t.word with
  | none => .error (whyNoRow t.word)
  | some op =>
    if lengthOK op (fieldKLEN t.word) (fieldNLEN t.word) (fieldCP t.word) t.payload.length then
      .ok (operandsOf op (fieldKLEN t.word) (fieldNLEN t.word) (fieldCP t.word) t.payload)
    else .error .badLength

/-- The command word `{0000000, CP, NLEN, KLEN, OPC}` of format F0 (R71, R88). -/
def wordOf (op : Op) (klen nlen : Nat) (cp : Bool) : Word :=
  0#7 ++ BitVec.ofBool cp ++ BitVec.ofNat 8 nlen ++ BitVec.ofNat 8 klen ++ opCode op

/-- The transaction of an instruction: the word and the payload of R78 and R88. -/
def encode : Instr → Transaction
  | .ccInit key nonce none => ⟨wordOf .ccInit key.length nonce.length false, key ++ nonce⟩
  | .ccInit key nonce (some c) =>
      ⟨wordOf .ccInit key.length nonce.length true, key ++ nonce ++ enc32 c⟩
  | .ccBlock => ⟨wordOf .ccBlock 0 0 false, []⟩
  | .ccXor data => ⟨wordOf .ccXor 0 0 false, data⟩
  | .ccXorb data => ⟨wordOf .ccXorb 0 0 false, data⟩
  | .ccReset => ⟨wordOf .ccReset 0 0 false, []⟩
  | .pInit key => ⟨wordOf .pInit key.length 0 false, key⟩
  | .pDerive => ⟨wordOf .pDerive 0 0 false, []⟩
  | .pUpdate data => ⟨wordOf .pUpdate 0 0 false, data⟩
  | .pFinal => ⟨wordOf .pFinal 0 0 false, []⟩
  | .aeadInit key nonce => ⟨wordOf .aeadInit key.length nonce.length false, key ++ nonce⟩
  | .aeadAad data => ⟨wordOf .aeadAad 0 0 false, data⟩
  | .aeadUpdate data => ⟨wordOf .aeadUpdate 0 0 false, data⟩
  | .aeadFinal => ⟨wordOf .aeadFinal 0 0 false, []⟩
  | .aeadDecrypt buf tag => ⟨wordOf .aeadDecrypt 0 0 false, buf ++ tag⟩

/-- The shortest payload length the word's row allows (R78); 0 where no row matches. -/
def minPayload (w : Word) : Nat :=
  match findOp w with
  | some .ccInit => fieldKLEN w + fieldNLEN w + (if fieldCP w then 4 else 0)
  | some .pInit => fieldKLEN w
  | some .aeadInit => fieldKLEN w + fieldNLEN w
  | some .aeadDecrypt => Config.tagLen
  | _ => 0

/-- The transaction of a word of spec/opcode_table.json: bits 31..0 of w are the command word, and
the bits above are the payload's bytes, the first lowest. `nbits` gives the payload
(nbits − 32) / 8 bytes, and never fewer than its row needs: the bytes beyond are 0 (DESIGN CHOICE,
log entry 17: safe). -/
def tableTransaction (nbits w : Nat) : Transaction :=
  { word := BitVec.ofNat 32 (w % 2 ^ nbits)
    payload := encLE (max ((nbits - 32) / 8) (minPayload (BitVec.ofNat 32 (w % 2 ^ nbits))))
      (w % 2 ^ nbits / 2 ^ 32) }

/-- The instruction the decoder reads from a word of spec/opcode_table.json, whose bits are numbered
as the table numbers them; `none` where it refuses. -/
def decodeTableWord (nbits w : Nat) : Option Instr :=
  match decode (tableTransaction nbits w) with
  | .ok i => some i
  | .error _ => none

end Sys2Proof
end

