-- ==== Sys2Proof/Machine/ChaCha.lean ====
section
/-!
DEFINITION. The functions of the Stream Cipher Engine: 40_chacha20.md rules R100 to R106. They read
and write no state of the block; the CC_* commands apply them (Machine/Cipher.lean).
-/

namespace Sys2Proof.Machine

/-- `rotl32(v, n)` for 0 < n < 32 (R9): bits shifted out at the left come in at the right. -/
def rotl32 (v : Word) (n : Nat) : Word := (v <<< n) ||| (v >>> (32 - n))

/-- The first line of two steps of the quarter round: `x[a] = x[a] +32 x[b]`, then
`x[d] = rotl32(x[d] ^ x[a], n)` (R101). -/
def addXorRotate (x : CipherState) (a b d : Fin 16) (n : Nat) : CipherState :=
  let y := x.set a (x[a] + x[b])
  y.set d (rotl32 (y[d] ^^^ y[a]) n)

/-- `QR(x, a, b, c, d)`: the quarter round (R101), each step on the values the one before wrote. -/
def quarterRound (x : CipherState) (a b c d : Fin 16) : CipherState :=
  let x := addXorRotate x a b d 16
  let x := addXorRotate x c d b 12
  let x := addXorRotate x a b d 8
  addXorRotate x c d b 7

/-- The four column rounds of `DoubleRound` (R102). -/
def columnRounds (x : CipherState) : CipherState :=
  let x := quarterRound x 0 4 8 12
  let x := quarterRound x 1 5 9 13
  let x := quarterRound x 2 6 10 14
  quarterRound x 3 7 11 15

/-- The four diagonal rounds of `DoubleRound` (R102). -/
def diagonalRounds (x : CipherState) : CipherState :=
  let x := quarterRound x 0 5 10 15
  let x := quarterRound x 1 6 11 12
  let x := quarterRound x 2 7 8 13
  quarterRound x 3 4 9 14

/-- `DoubleRound(x)`: the columns, then the diagonals (R102). -/
def doubleRound (x : CipherState) : CipherState := diagonalRounds (columnRounds x)

/-- The working copy after the 20 rounds, with the original words added back (R103). -/
def chachaWords (s : CipherState) : CipherState := Vector.zipWith (· + ·) (doubleRound^[10] s) s

/-- `ChaChaBlock(S)`: the 64-byte keystream block of a state, each word little-endian (R103). -/
def chachaBlock (s : CipherState) : List Byte := (chachaWords s).toList.flatMap enc32

/-- `InitState(key, nonce, ctr)` (R100): constants, key words, counter, nonce words. -/
def initState (key nonce : List Byte) (ctr : Word) : CipherState :=
  #v[0x61707865, 0x3320646e, 0x79622d32, 0x6b206574,
     le32 key 0, le32 key 4, le32 key 8, le32 key 12,
     le32 key 16, le32 key 20, le32 key 24, le32 key 28,
     ctr, le32 nonce 0, le32 nonce 4, le32 nonce 8]

/-- The block counter, word 12 of the state (R24). -/
def counterOf (s : CipherState) : Word := s[12]

/-- The state with its block counter replaced (R24). -/
def withCounter (s : CipherState) (c : Word) : CipherState := s.set 12 c

/-- How many keystream blocks n bytes of data take (R105). -/
def blocksFor (n : Nat) : Nat := ceilDiv n Config.blockLen

/-- One chunk of data XORed with the start of a keystream block; the rest of the block is
discarded (R105). -/
def xorBytes (c k : List Byte) : List Byte := List.zipWith (· ^^^ ·) c k

/-- The loop of `KeystreamXor` (R105) over the pieces of the data: the output and the state after
the last block. Word 12 goes up by 1 for each piece. -/
def xorPieces : CipherState → List (List Byte) → List Byte × CipherState
  | t, [] => ([], t)
  | t, c :: cs =>
    let rest := xorPieces (withCounter t (counterOf t + 1)) cs
    (xorBytes c (chachaBlock t) ++ rest.1, rest.2)

/-- `KeystreamXor(S, D)` (R105): the output and the new counter value. -/
def keystreamXor (s : CipherState) (d : List Byte) : List Byte × Word :=
  let r := xorPieces s (blocksOf Config.blockLen d)
  (r.1, counterOf r.2)

end Sys2Proof.Machine
end

