-- ==== Sys2Proof/Machine/State.lean ====
section
/-!
DEFINITION. The state of the block as plain data (R20, R37), the response port (R83), and the two
agents outside the block (R12): the sink, as the bytes it holds and its answers to come, and the
host, as what it will still do at the port. The state after reset (R38). The block has no memory,
no register file, no program counter and no flags (R21, R22, R23, R50).
-/

namespace Sys2Proof.Machine

/-- `CC.PHASE` (R30): EMPTY is the value after reset, READY means a constructed cipher context. -/
inductive CipherPhase where
  | EMPTY
  | READY
  deriving DecidableEq, Repr

/-- `P.PHASE` (R30): ACTIVE means an authenticator that is not yet finalised. -/
inductive AuthPhase where
  | EMPTY
  | ACTIVE
  deriving DecidableEq, Repr

/-- `A.PHASE` (R30): OPEN means an AEAD session in progress. -/
inductive SessionPhase where
  | IDLE
  | OPEN
  deriving DecidableEq, Repr

/-- The CC unit's fields (R20, R24, R26, R30). -/
structure CipherUnit where
  /-- `CC.S[0..15]`: constants, key words, block counter (index 12), nonce words (R24). -/
  S : CipherState
  /-- `CC.CTR0`: the counter's initial value (R26). -/
  CTR0 : Word
  PHASE : CipherPhase
  deriving DecidableEq, Repr

/-- The P unit's fields (R20, R27, R28, R29, R30). -/
structure AuthUnit where
  /-- `P.ACC`: the accumulator, a canonical residue modulo 2^130 − 5 (R27). -/
  ACC : BitVec 130
  /-- `P.R`: the clamped multiplier (R28). -/
  R : BitVec 128
  /-- `P.S`: the additive key (R29). -/
  S : BitVec 128
  PHASE : AuthPhase
  deriving DecidableEq, Repr

/-- The A unit's fields (R20, R30 to R33). -/
structure SessionUnit where
  PHASE : SessionPhase
  /-- `A.FRESH`: the session has taken neither associated data nor plaintext (R33). -/
  FRESH : Bool
  /-- `A.AADLEN`: the running count of associated-data bytes (R31). -/
  AADLEN : BitVec 64
  /-- `A.PTLEN`: the running count of plaintext bytes (R32). -/
  PTLEN : BitVec 64
  deriving DecidableEq, Repr

/-- The status of a response (R84). -/
inductive Status where
  | ok
  | invalidKeyLength
  | invalidNonceLength
  | counterOverflow
  | tagMismatch
  | bufferSizeMismatch
  | sinkError
  | sequenceError
  | illegalCommand
  | frameError
  | lengthOverflow
  deriving DecidableEq, Repr

/-- The response of a command (R83): a status and RDATA; the length M is the list's. -/
structure Response where
  status : Status
  rdata : List Byte
  deriving DecidableEq, Repr

/-- The descriptor of a sink failure, SinkErr of R7 and R212. The block never looks into it, so it
is kept as its own encoding SinkErrBytes, any byte string (DEDUCED, log entry 7: safe). -/
structure SinkErr where
  bytes : List Byte
  deriving DecidableEq, Repr

/-- The sink's answer to one SinkWrite (R55). -/
inductive SinkAnswer where
  /-- All bytes of the write are appended. -/
  | accept
  /-- The sink does not answer yet: the block waits (R55, R244). -/
  | stall
  /-- The write fails with descriptor `e`; the sink kept the first `k` bytes of it, or all of it
  where it is shorter (`sink_accept_prefix`, R56). -/
  | fail (e : SinkErr) (k : Nat)
  deriving DecidableEq, Repr

/-- One SinkWrite: its bytes, and what is fed to the authenticator once the sink has accepted them. In
the pseudocode that is the bytes themselves (AlignWrite, R170) or nothing (AEAD_DECRYPT, R176); where
R57's division cuts a write of AlignWrite, its last part carries what the whole feeds. -/
structure Write where
  bytes : List Byte
  feed : List Byte
  deriving DecidableEq, Repr

/-- What a command that writes to the sink does after its last SinkWrite: the lines of R173 to R176
below their writes. -/
inductive Finish where
  /-- AEAD_AAD: respond (R173). -/
  | aad
  /-- AEAD_UPDATE: count the plaintext, respond with the ciphertext `ct` (R174). -/
  | update (ct : List Byte)
  /-- AEAD_FINAL: form the tag, end the session, respond with the tag (R175). -/
  | final
  /-- AEAD_DECRYPT: end the session, respond with the associated data (R176). -/
  | decrypt (aad : List Byte)
  deriving DecidableEq, Repr

/-- A command in progress: its SinkWrites not yet answered, the next one first, and how it ends. -/
structure Transfer where
  writes : List Write
  finish : Finish
  deriving DecidableEq, Repr

/-- What the host does at the port (R12, R22, 93_implementation_defined.md section 2). -/
inductive HostEvent where
  /-- The host presents a command when the last one has been answered (R59, R245). -/
  | command (t : Transaction)
  /-- The host presents a command without waiting for the last one's response (R37, U1). -/
  | overlapping (t : Transaction)
  /-- RST is asserted (R240); where a command is waiting on the sink, it is abandoned (R241) and
  the sink has kept the first `k` bytes of what was left to write (U8, a draw). -/
  | rst (k : Nat)
  /-- The host presents a command and RST is asserted before its response (R241); the sink has kept
  the first `k` bytes of the command's output (U8, a draw). -/
  | commandCut (t : Transaction) (k : Nat)
  deriving DecidableEq, Repr

/-- The state: the block (R20), its busy condition (R37) and response port (R83), how its output is
divided (R57), and the sink and the host outside it. -/
structure State where
  /-- The CC unit. -/
  cc : CipherUnit
  /-- The P unit. -/
  p : AuthUnit
  /-- The A unit. -/
  a : SessionUnit
  /-- The command waiting on the sink; `none` when the block is not busy (R37). -/
  busy : Option Transfer
  /-- The response on the port; `none` while a command runs and after RST (D24). -/
  response : Option Response
  /-- The bytes appended to the sink, in order (R55). -/
  sink : List Byte
  /-- The sink's answers to come, the next first; where there is none the sink does not answer
  (DESIGN CHOICE, log entry 5: safe). -/
  sinkAnswers : List SinkAnswer
  /-- `sink_segmentation` (R7, R57): how the output of each writing command to come is divided into
  SinkWrites, the next command's first, each as the lengths of its writes. Where there is none the
  division is the pseudocode's (DESIGN CHOICE, log entry 6: safe). -/
  divisions : List (List Nat)
  /-- What the host will do, the next first (DESIGN CHOICE, log entry 4: safe). -/
  host : List HostEvent
  deriving DecidableEq, Repr

/-- Why the machine stops with a fault. No command faults: every error of R211 is a response. -/
inductive Fault where
  /-- Raised by the presentation of a command whose payload has 2^64 bytes or more. No transaction
  has such a payload (R70), so no run of the hardware does this. Safe. -/
  | payloadTooLong
  deriving DecidableEq, Repr

/-- Why the model has no meaning for a step. -/
inductive Refusal where
  /-- An instruction whose arm of `exec` has no meaning yet. Safe. -/
  | notModelled (mnemonic : String)
  /-- Raised by `step` when the host presents a command while the block is busy: R37 puts it outside
  the specification, and 93_implementation_defined.md U1 says a model refuses the run. Safe. -/
  | overlappingCommand
  deriving DecidableEq, Repr

/-- The state after reset (R38, R240): all phases at their first value, FRESH 0, not busy, no
response. R38 leaves the data fields unspecified and R35 says they are never observed: the model
names 0 for each (DESIGN CHOICE, log entry 2: unsafe). The sink is empty, and neither the sink's
answers nor the divisions nor the host's actions are chosen (log entries 4, 5 and 6). -/
def State.reset : State :=
  { cc := { S := Vector.replicate 16 0, CTR0 := 0, PHASE := .EMPTY }
    p := { ACC := 0, R := 0, S := 0, PHASE := .EMPTY }
    a := { PHASE := .IDLE, FRESH := false, AADLEN := 0, PTLEN := 0 }
    busy := none
    response := none
    sink := []
    sinkAnswers := []
    divisions := []
    host := [] }

end Sys2Proof.Machine
end

