-- ==== Sys2Proof/Machine/Flags.lean ====
section
/-!
DEFINITION. The block has no flags and no condition codes (R23). This file holds what stands in
their place: the conditions a command tests (the `require` lines of its rule, the counter check of
R106, the length check of R31), and the status codes (R84).
-/

namespace Sys2Proof.Machine

/-- The status byte of each status (R84). -/
def Status.code : Status → BitVec 8
  | .ok => 0x00
  | .invalidKeyLength => 0x01
  | .invalidNonceLength => 0x02
  | .counterOverflow => 0x03
  | .tagMismatch => 0x04
  | .bufferSizeMismatch => 0x05
  | .sinkError => 0x06
  | .sequenceError => 0x07
  | .illegalCommand => 0x08
  | .frameError => 0x09
  | .lengthOverflow => 0x0A

/-- `BlocksAvail(c, k)` (R106): k blocks can be generated from counter c, on unbounded integers. -/
abbrev blocksAvail (c : Word) (k : Nat) : Prop := c.toNat + k ≤ Config.counterMax

/-- A length count that takes n more bytes stays a 64-bit count (R31, R32). -/
abbrev lengthFits (len : BitVec 64) (n : Nat) : Prop := len.toNat + n ≤ Config.lengthMax

/-- The phase condition of the CC_* commands other than CC_INIT, and of P_DERIVE (R108, R147). -/
abbrev cipherUsable (s : State) : Prop := s.a.PHASE ≠ .OPEN ∧ s.cc.PHASE = .READY

/-- The phase condition of P_UPDATE and P_FINAL (R148, R149). -/
abbrev authUsable (s : State) : Prop := s.a.PHASE ≠ .OPEN ∧ s.p.PHASE = .ACTIVE

/-- The phase condition of AEAD_DECRYPT (R176). -/
abbrev sessionFresh (s : State) : Prop := s.a.PHASE = .OPEN ∧ s.a.FRESH = true

end Sys2Proof.Machine
end

