-- ==== Sys2Proof/Machine/Poly.lean ====
section
/-!
DEFINITION. The functions of the One-Time Authenticator: 41_poly1305.md rules R140 to R145. Numbers
are exact (R145): products are formed before they are reduced. The P_* and AEAD_* commands apply
them (Machine/Auth.lean, Machine/Aead.lean).
-/

namespace Sys2Proof.Machine

/-- The prime p = 2^130 − 5 (R6). -/
def polyP : Nat := 2 ^ 130 - 5

/-- The clamping mask of R140. -/
def clampMask : BitVec 128 := 0x0ffffffc0ffffffc0ffffffc0fffffff

/-- `Clamp(r)` (R140). -/
def clamp (r : BitVec 128) : BitVec 128 := r &&& clampMask

/-- `KeySplit(k)` (R141): the clamped r and the s of a 32-byte one-time key. -/
def keySplit (k : List Byte) : BitVec 128 × BitVec 128 := (clamp (le128 k 0), le128 k 16)

/-- `BlockValue(c)` (R142): the block's little-endian value with a high byte of 1 appended. -/
def blockValue (c : List Byte) : Nat := leNat c + 2 ^ (8 * c.length)

/-- One turn of the loop of `PolyAbsorb` (R143). -/
def absorbBlock (r : BitVec 128) (acc : Nat) (c : List Byte) : Nat :=
  ((acc + blockValue c) * r.toNat) % polyP

/-- `PolyAbsorb(acc, r, D)` (R143): the pieces of 16 bytes in order, the last as it is. -/
def polyAbsorb (acc : Nat) (r : BitVec 128) (d : List Byte) : Nat :=
  (blocksOf Config.polyBlockLen d).foldl (absorbBlock r) acc

/-- `PolyTag(acc, s)` (R144). -/
def polyTag (acc : Nat) (s : BitVec 128) : List Byte :=
  encLE Config.tagLen ((acc % polyP + s.toNat) % 2 ^ 128)

end Sys2Proof.Machine
end

