-- ==== Sys2Proof/Machine/Ops.lean ====
section
/-!
DEFINITION. The named operations on the state: the updates the commands make, ending a command with
a response or an error (R83, R210 to R213: the one shared operation that takes an error, in the
place of an exception entry; there is no return from an error, R217), EndSession (R171), AlignWrite
and SinkWrite (R170, R55, R56) with the division of output (R57), and RST (R240, R241).
-/

namespace Sys2Proof.Machine

open Host

/-! Updates of the units. -/

/-- `CC.S[12] <- c` (R24). -/
def State.setCounter (s : State) (c : Word) : State :=
  { s with cc := { s.cc with S := withCounter s.cc.S c } }

/-- A constructed cipher context (R107, R172): `CC.S`, `CC.CTR0`, then `CC.PHASE <- READY`. -/
def State.loadCipher (s : State) (st : CipherState) (ctr0 : Word) : State :=
  { s with cc := { S := st, CTR0 := ctr0, PHASE := .READY } }

/-- `CC.PHASE <- EMPTY`, the rest of the unit as it was (R213). -/
def State.voidCipher (s : State) : State := { s with cc := { s.cc with PHASE := .EMPTY } }

/-- A constructed authenticator (R146, R147, R172): r and s of a 32-byte key, `P.ACC <- 0`,
`P.PHASE <- ACTIVE`. -/
def State.loadAuth (s : State) (key : List Byte) : State :=
  { s with p := { ACC := 0, R := (keySplit key).1, S := (keySplit key).2, PHASE := .ACTIVE } }

/-- `P.ACC <- PolyAbsorb(P.ACC, P.R, d)` (R143). The value is below 2^130, so the register holds
it (R27). -/
def State.absorb (s : State) (d : List Byte) : State :=
  { s with p := { s.p with ACC := BitVec.ofNat 130 (polyAbsorb s.p.ACC.toNat s.p.R d) } }

/-- `PolyTag(P.ACC, P.S)` (R144). -/
def State.tag (s : State) : List Byte := polyTag s.p.ACC.toNat s.p.S

/-- `P.PHASE <- EMPTY`, the rest of the unit as it was (R149). -/
def State.exhaustAuth (s : State) : State := { s with p := { s.p with PHASE := .EMPTY } }

/-- An opened session (R172): both counts 0, `A.FRESH <- 1`, `A.PHASE <- OPEN`. -/
def State.openSession (s : State) : State :=
  { s with a := { PHASE := .OPEN, FRESH := true, AADLEN := 0, PTLEN := 0 } }

/-- `A.FRESH <- 0` (R33). -/
def State.clearFresh (s : State) : State := { s with a := { s.a with FRESH := false } }

/-- `A.AADLEN <- A.AADLEN + n` (R31), after the check that the sum fits. -/
def State.countAad (s : State) (n : Nat) : State :=
  { s with a := { s.a with AADLEN := s.a.AADLEN + BitVec.ofNat 64 n } }

/-- `A.PTLEN <- A.PTLEN + n` (R32), after the check that the sum fits. -/
def State.countPt (s : State) (n : Nat) : State :=
  { s with a := { s.a with PTLEN := s.a.PTLEN + BitVec.ofNat 64 n } }

/-- `EndSession()` (R171): the three phases to their first value, `A.FRESH <- 0`; the data fields
keep what they hold. -/
def State.endSession (s : State) : State :=
  { s with
    cc := { s.cc with PHASE := .EMPTY }
    p := { s.p with PHASE := .EMPTY }
    a := { s.a with PHASE := .IDLE, FRESH := false } }

/-! Ending a command. -/

/-- `respond(st, d)` (R11, R83). -/
def State.respond (s : State) (st : Status) (d : List Byte) : State :=
  { s with response := some { status := st, rdata := d } }

/-- The context an error voids (R213). -/
inductive Voids where
  /-- Nothing: IllegalCommand, SequenceError and the construction errors. -/
  | nothing
  /-- The CC context: CounterOverflow and BufferSizeMismatch of the stand-alone commands. -/
  | cipher
  /-- The session, by EndSession: every error of an AEAD command after its phase check. -/
  | session
  deriving DecidableEq, Repr

/-- The state effect of an error (R213). -/
def State.void (s : State) : Voids → State
  | .nothing => s
  | .cipher => s.voidCipher
  | .session => s.endSession

/-- Take an error (R210, R213): the state effect, then the response with the error's status. RDATA
is empty but for SinkError, which carries the descriptor (R212). -/
def State.fail (s : State) (e : Status) (v : Voids) (d : List Byte) : State :=
  (s.void v).respond e d

/-- `raise E` (R11): the command ends with error E and no response bytes. The machine goes on. -/
def raise (e : Status) (v : Voids) (s : State) : Outcome State Fault Refusal :=
  .next (s.fail e v [])

/-! The sink. -/

/-- The SinkWrite of a byte sequence, after which `feed` is fed to the authenticator; an empty write
is not issued (R11, R55). -/
def sinkWrite (b feed : List Byte) : List Write :=
  if b = [] then [] else [{ bytes := b, feed := feed }]

/-- The length of the largest 16-byte-aligned start of x (R170). -/
def alignedLen (x : List Byte) : Nat :=
  Config.polyBlockLen * (x.length / Config.polyBlockLen)

/-- The remainder of x after its aligned start, zero-padded to 16 bytes; empty where x is
aligned (R170). -/
def paddedTail (x : List Byte) : List Byte :=
  if x.length > alignedLen x then
    x.drop (alignedLen x) ++ zeros (Config.polyBlockLen - (x.length - alignedLen x))
  else []

/-- The SinkWrites of `AlignWrite(x)` (R170): the aligned start, then the padded remainder, each
also fed to the authenticator. -/
def alignWrites (x : List Byte) : List Write :=
  sinkWrite (x.take (alignedLen x)) (x.take (alignedLen x)) ++
    sinkWrite (paddedTail x) (paddedTail x)

/-- The first `n` bytes of a list of writes as one write, and what is left. Writes it covers whole are
merged, and a write it covers in part is cut: what that write feeds stays with its last byte. -/
def splitWrites : Nat → List Write → Write × List Write
  | _, [] => (⟨[], []⟩, [])
  | n, w :: ws =>
    if w.bytes.length ≤ n then
      let r := splitWrites (n - w.bytes.length) ws
      (⟨w.bytes ++ r.1.bytes, w.feed ++ r.1.feed⟩, r.2)
    else (⟨w.bytes.take n, []⟩, ⟨w.bytes.drop n, w.feed⟩ :: ws)

/-- The writes of a command divided anew (R57): each length takes that many bytes, at least one, off
the front as one SinkWrite; where the lengths are used up the rest stays as it was. -/
def divide : List Nat → List Write → List Write
  | [], ws => ws
  | _ :: _, [] => []
  | n :: ns, w :: ws =>
    let r := splitWrites (max n 1) (w :: ws)
    r.1 :: divide ns r.2

/-- The bytes are appended to the sink (R55). -/
def State.appendSink (s : State) (b : List Byte) : State := { s with sink := s.sink ++ b }

/-- What an accepted write does (R55, R170): its bytes are appended to the sink, and what it feeds is
absorbed. -/
def State.accepted (s : State) (w : Write) : State := (s.appendSink w.bytes).absorb w.feed

/-- What a failed write does (R55, R56, R212, R213): the sink has kept a start of its bytes, the
session ends, and the response is SinkError with the descriptor. -/
def State.sinkFailed (s : State) (w : Write) (e : SinkErr) (k : Nat) : State :=
  ((s.appendSink (w.bytes.take k)).fail .sinkError .session e.bytes)

/-- The end of a command whose SinkWrites have all been accepted (R173 to R176). -/
def State.finishWith (s : State) : Finish → State
  | .aad => s.respond .ok []
  | .update ct => (s.countPt ct.length).respond .ok ct
  | .final => s.endSession.respond .ok s.tag
  | .decrypt aad => s.endSession.respond .ok aad

/-- The command waits on the sink (R37, R55). -/
def State.waitOn (s : State) (ws : List Write) (f : Finish) : State :=
  { s with busy := some { writes := ws, finish := f } }

/-- No command is running (R37). -/
def State.notBusy (s : State) : State := { s with busy := none }

/-- The sink's answers to come. -/
def State.withAnswers (s : State) (as : List SinkAnswer) : State := { s with sinkAnswers := as }

/-- The SinkWrites of a command, in order, each with the sink's next answer (R55, R59): an accepted
write is followed by the next, and the last by the end of the command; a failed one ends the command;
a stall, or no answer, leaves the block busy with the rest of the command to do (U2, X3). -/
def drain : List Write → Finish → State → State
  | [], f, s => s.notBusy.finishWith f
  | w :: ws, f, s =>
    match s.sinkAnswers with
    | [] => s.waitOn (w :: ws) f
    | .stall :: as => (s.withAnswers as).waitOn (w :: ws) f
    | .accept :: as => drain ws f ((s.withAnswers as).accepted w)
    | .fail e k :: as => ((s.withAnswers as).notBusy).sinkFailed w e k

/-- The writes of a command in the next division (R57). -/
def State.divided (s : State) (ws : List Write) : List Write := divide (s.divisions.headD []) ws

/-- The next division has been used. -/
def State.dropDivision (s : State) : State := { s with divisions := s.divisions.tail }

/-- A command offers its output to the sink, in the next division, and ends as `f` says. -/
def State.writeOut (s : State) (ws : List Write) (f : Finish) : State :=
  drain (s.divided ws) f s.dropDivision

/-- The bytes a waiting command has left to write (R241, U8). -/
def pendingBytes : Option Transfer → List Byte
  | none => []
  | some x => x.writes.flatMap Write.bytes

/-- RST (R240, R241): every field of the block as after reset, no response, and the command that was
waiting on the sink abandoned. The sink keeps its bytes and the first `k` bytes of what was left to
write (U8). The data fields take the values they have in `State.reset` (DESIGN CHOICE, log entry 3:
unsafe). -/
def State.rst (s : State) (k : Nat) : State :=
  { State.reset with
    sink := s.sink ++ (pendingBytes s.busy).take k
    sinkAnswers := s.sinkAnswers
    divisions := s.divisions
    host := s.host }

end Sys2Proof.Machine
end

