-- ==== Sys2Proof/Machine/Aead.lean ====
section
/-!
DEFINITION. The AEAD_* commands: 42_aead.md rules R172 to R176. The commands that write to the sink
end in `State.writeOut`, which divides the output (R57) and asks the sink for its answer to each write
(R55).
-/

namespace Sys2Proof.Machine

open Host

/-- The one-time key of a session: the first 32 bytes of block 0 (R172, 90_conflicts.md C3). -/
def oneTimeKey (key nonce : List Byte) : List Byte :=
  slice (chachaBlock (initState key nonce 0)) 0 Config.keyLen

/-- AEAD_INIT (R172). No phase is required: an open session is abandoned (D37). -/
def execAeadInit (key nonce : List Byte) (s : State) : Outcome State Fault Refusal :=
  if key.length ≠ Config.keyLen then raise .invalidKeyLength .nothing s
  else if nonce.length ≠ Config.nonceLen then raise .invalidNonceLength .nothing s
  else
    .next ((((s.loadCipher (withCounter (initState key nonce 0) 1) 1).loadAuth
      (oneTimeKey key nonce)).openSession).respond .ok [])

/-- AEAD_AAD (R173). -/
def execAeadAad (data : List Byte) (s : State) : Outcome State Fault Refusal :=
  if s.a.PHASE ≠ .OPEN then raise .sequenceError .nothing s
  else if ¬ lengthFits s.a.AADLEN data.length then raise .lengthOverflow .session s
  else .next ((s.clearFresh.countAad data.length).writeOut (alignWrites data) .aad)

/-- AEAD_UPDATE (R174). LengthOverflow is never raised from a state a run reaches (R32). -/
def execAeadUpdate (data : List Byte) (s : State) : Outcome State Fault Refusal :=
  if s.a.PHASE ≠ .OPEN then raise .sequenceError .nothing s
  else if ¬ blocksAvail (counterOf s.cc.S) (blocksFor data.length) then
    raise .counterOverflow .session s
  else if ¬ lengthFits s.a.PTLEN data.length then raise .lengthOverflow .session s
  else
    .next ((s.clearFresh.setCounter (keystreamXor s.cc.S data).2).writeOut
      (alignWrites (keystreamXor s.cc.S data).1) (.update (keystreamXor s.cc.S data).1))

/-- The length footer of a session (R175). -/
def footer (a : SessionUnit) : List Byte := enc64 a.AADLEN ++ enc64 a.PTLEN

/-- AEAD_FINAL (R175): the tag is formed after the footer has been absorbed. -/
def execAeadFinal (s : State) : Outcome State Fault Refusal :=
  if s.a.PHASE ≠ .OPEN then raise .sequenceError .nothing s
  else .next (s.writeOut (alignWrites (footer s.a)) .final)

/-- The size of the associated data a buffer's footer gives: `LE64(B, L − 16)` (R176). -/
def footerAad (buf : List Byte) : Nat :=
  (le64 buf (buf.length - Config.polyBlockLen)).toNat

/-- The size of the plaintext a buffer's footer gives: `LE64(B, L − 8)` (R176). -/
def footerPt (buf : List Byte) : Nat := (le64 buf (buf.length - 8)).toNat

/-- The tag of a buffer under the session's key, its footer included (R176). -/
def bufferTag (s : State) (buf : List Byte) : List Byte :=
  polyTag (polyAbsorb s.p.ACC.toNat s.p.R buf) s.p.S

/-- The ciphertext segment of a buffer: `B[off : off + pt]` (R176). -/
def cipherSegment (buf : List Byte) : List Byte :=
  slice buf (pad16len (footerAad buf)) (footerPt buf)

/-- AEAD_DECRYPT (R176): verify the whole buffer, then check the frame and the counter, then write
the raw plaintext. The engine's counter moves past the blocks it generated (R24, R104; DEDUCED, log
entry 10: never observed). -/
def execAeadDecrypt (buf tag : List Byte) (s : State) : Outcome State Fault Refusal :=
  if ¬ sessionFresh s then raise .sequenceError .nothing s
  else if bufferTag s buf ≠ tag then raise .tagMismatch .session s
  else if buf.length < Config.polyBlockLen then raise .frameError .session s
  else if pad16len (footerAad buf) + footerPt buf > buf.length - Config.polyBlockLen then
    raise .frameError .session s
  else if ¬ blocksAvail (counterOf s.cc.S) (blocksFor (footerPt buf)) then
    raise .counterOverflow .session s
  else
    .next ((s.setCounter (keystreamXor s.cc.S (cipherSegment buf)).2).writeOut
      (sinkWrite (keystreamXor s.cc.S (cipherSegment buf)).1 [])
      (.decrypt (buf.take (footerAad buf))))

end Sys2Proof.Machine
end

