-- ==== Sys2Proof/Machine/Auth.lean ====
section
/-!
DEFINITION. The P_* commands: 41_poly1305.md rules R146 to R149.
-/

namespace Sys2Proof.Machine

open Host

/-- P_INIT (R146). -/
def execPInit (key : List Byte) (s : State) : Outcome State Fault Refusal :=
  if s.a.PHASE = .OPEN then raise .sequenceError .nothing s
  else if key.length ≠ Config.keyLen then raise .invalidKeyLength .nothing s
  else .next ((s.loadAuth key).respond .ok [])

/-- P_DERIVE (R147): the first 32 bytes of the pending keystream block are the key, and the block is
consumed. On CounterOverflow the P unit is unchanged. -/
def execPDerive (s : State) : Outcome State Fault Refusal :=
  if ¬ cipherUsable s then raise .sequenceError .nothing s
  else if ¬ blocksAvail (counterOf s.cc.S) 1 then raise .counterOverflow .cipher s
  else
    .next (((s.setCounter (counterOf s.cc.S + 1)).loadAuth
      (slice (chachaBlock s.cc.S) 0 Config.keyLen)).respond .ok [])

/-- P_UPDATE (R148): the tail of the data is absorbed as a short block (R143). -/
def execPUpdate (data : List Byte) (s : State) : Outcome State Fault Refusal :=
  if ¬ authUsable s then raise .sequenceError .nothing s
  else .next ((s.absorb data).respond .ok [])

/-- P_FINAL (R149). -/
def execPFinal (s : State) : Outcome State Fault Refusal :=
  if ¬ authUsable s then raise .sequenceError .nothing s
  else .next (s.exhaustAuth.respond .ok s.tag)

end Sys2Proof.Machine
end

