-- ==== Sys2Proof/Machine/Cipher.lean ====
section
/-!
DEFINITION. The CC_* commands: 40_chacha20.md rules R107 to R111. Each definition has its rule's
checks in the rule's order (R214).
-/

namespace Sys2Proof.Machine

open Host

/-- CC_INIT (R107). The counter is 0 where the argument is absent (R75). -/
def execCcInit (key nonce : List Byte) (ctr : Option Word) (s : State) :
    Outcome State Fault Refusal :=
  if s.a.PHASE = .OPEN then raise .sequenceError .nothing s
  else if key.length ≠ Config.keyLen then raise .invalidKeyLength .nothing s
  else if nonce.length ≠ Config.nonceLen then raise .invalidNonceLength .nothing s
  else .next ((s.loadCipher (initState key nonce (ctr.getD 0)) (ctr.getD 0)).respond .ok [])

/-- CC_BLOCK (R108). -/
def execCcBlock (s : State) : Outcome State Fault Refusal :=
  if ¬ cipherUsable s then raise .sequenceError .nothing s
  else if ¬ blocksAvail (counterOf s.cc.S) 1 then raise .counterOverflow .cipher s
  else .next ((s.setCounter (counterOf s.cc.S + 1)).respond .ok (chachaBlock s.cc.S))

/-- The part CC_XOR and CC_XORB share: the counter check for the whole request, then the keystream
XOR of the data (R105, R106). -/
def xorData (data : List Byte) (s : State) : Outcome State Fault Refusal :=
  if ¬ blocksAvail (counterOf s.cc.S) (blocksFor data.length) then
    raise .counterOverflow .cipher s
  else
    .next ((s.setCounter (keystreamXor s.cc.S data).2).respond .ok (keystreamXor s.cc.S data).1)

/-- CC_XOR (R109). -/
def execCcXor (data : List Byte) (s : State) : Outcome State Fault Refusal :=
  if ¬ cipherUsable s then raise .sequenceError .nothing s
  else xorData data s

/-- CC_XORB (R110): BufferSizeMismatch is checked before CounterOverflow. -/
def execCcXorb (data : List Byte) (s : State) : Outcome State Fault Refusal :=
  if ¬ cipherUsable s then raise .sequenceError .nothing s
  else if data.length % Config.blockLen ≠ 0 then raise .bufferSizeMismatch .cipher s
  else xorData data s

/-- CC_RESET (R111): the counter back to its initial value (90_conflicts.md C2). -/
def execCcReset (s : State) : Outcome State Fault Refusal :=
  if ¬ cipherUsable s then raise .sequenceError .nothing s
  else .next ((s.setCounter s.cc.CTR0).respond .ok [])

end Sys2Proof.Machine
end

