-- ==== Sys2Proof/Machine/Dispatch.lean ====
section
/-!
DEFINITION. The dispatch: one arm for each command of the opcode map (R79), each one call of its
meaning.
-/

namespace Sys2Proof.Machine

open Host

def exec (i : Instr) (s : State) : Host.Outcome State Fault Refusal :=
  match i with
  | .ccInit key nonce ctr => Sys2Proof.Machine.execCcInit key nonce ctr s
  | .ccBlock => Sys2Proof.Machine.execCcBlock s
  | .ccXor data => Sys2Proof.Machine.execCcXor data s
  | .ccXorb data => Sys2Proof.Machine.execCcXorb data s
  | .ccReset => Sys2Proof.Machine.execCcReset s
  | .pInit key => Sys2Proof.Machine.execPInit key s
  | .pDerive => Sys2Proof.Machine.execPDerive s
  | .pUpdate data => Sys2Proof.Machine.execPUpdate data s
  | .pFinal => Sys2Proof.Machine.execPFinal s
  | .aeadInit key nonce => Sys2Proof.Machine.execAeadInit key nonce s
  | .aeadAad data => Sys2Proof.Machine.execAeadAad data s
  | .aeadUpdate data => Sys2Proof.Machine.execAeadUpdate data s
  | .aeadFinal => Sys2Proof.Machine.execAeadFinal s
  | .aeadDecrypt buf tag => Sys2Proof.Machine.execAeadDecrypt buf tag s

end Sys2Proof.Machine
end

