-- ==== Sys2Proof/Machine/Port.lean ====
section
/-!
DEFINITION. The command port: what one step does with the host's next action and the sink's next
answer (R58, R59, R70, R80, R240, R241, R244). `Machine/Step.lean` calls `portStep` and nothing else.
-/

namespace Sys2Proof.Machine

open Host

/-- The host's action has been taken from the list, and the last response has left the port. -/
def State.takeEvent (s : State) (rest : List HostEvent) : State :=
  { s with host := rest, response := none }

/-- A presented transaction (R70, R80, R82): decoded first, before any phase check (R214); an illegal
command is answered IllegalCommand and changes nothing; a legal one is executed. A payload of 2^64
bytes or more is no transaction's (R70) and faults. -/
def runCommand (t : Transaction) (s : State) : Outcome State Fault Refusal :=
  if t.wf then
    match decode t with
    | .error _ => raise .illegalCommand .nothing s
    | .ok i => exec i s
  else .fault .payloadTooLong

/-- A command that RST cuts short (R241, U8): it runs while the sink answers none of its writes, so
that what it would have written is pending, and then RST is asserted. The command gives no response,
and the sink's answers are still to come. -/
def runCut (t : Transaction) (k : Nat) (s : State) : Outcome State Fault Refusal :=
  match runCommand t (s.withAnswers []) with
  | .next s' => .next ((s'.rst k).withAnswers s.sinkAnswers)
  | .fault r => .fault r
  | .refused r => .refused r

/-- One step of a block that is not busy: it waits where the host does nothing (R225, R242). -/
def idleStep (s : State) : Outcome State Fault Refusal :=
  match s.host with
  | [] => .next s
  | .command t :: rest => runCommand t (s.takeEvent rest)
  | .overlapping t :: rest => runCommand t (s.takeEvent rest)
  | .rst k :: rest => .next ((s.takeEvent rest).rst k)
  | .commandCut t k :: rest => runCut t k (s.takeEvent rest)

/-- One step of a block that waits on the sink with the command `x` (R37, R55): RST abandons the
command (R241); a command presented now is outside the specification and the model refuses it (U1);
otherwise the sink's next answer is taken, and the host's next command waits for the response. -/
def busyStep (x : Transfer) (s : State) : Outcome State Fault Refusal :=
  match s.host with
  | .rst k :: rest => .next ((s.takeEvent rest).rst k)
  | .overlapping _ :: _ => .refused .overlappingCommand
  | _ => .next (drain x.writes x.finish s)

/-- One step of the machine. -/
def portStep (s : State) : Outcome State Fault Refusal :=
  match s.busy with
  | none => idleStep s
  | some x => busyStep x s

/-- The host presents a transaction next: it is put before everything else the host will do. -/
def State.present (s : State) (t : Transaction) : State := { s with host := .command t :: s.host }

end Sys2Proof.Machine
end

