-- ==== Sys2Proof/Machine/Step.lean ====
section
/-!
DEFINITION. One step of the machine (R58): the host's next action, or the sink's next answer to the
command in progress. The block fetches nothing (R22, R62): the next command is the one the host
presents next.
-/

namespace Sys2Proof.Machine

/-- One step (Machine/Port.lean has the cases). -/
def step (s : State) : Host.Outcome State Fault Refusal := portStep s

/-- The state in which the host presents, as its next action, the command of a word of
spec/opcode_table.json: the next step runs it. A block that waits on the sink takes no command, so
the block is made not busy. -/
def State.withFetchWord (s : State) (nbits w : Nat) : State :=
  s.notBusy.present (tableTransaction nbits w)

end Sys2Proof.Machine
end

