-- ==== Sys2Proof/Machine/Assembler.lean ====
section
/-!
DEFINITION. The assembler of 30_encoding.md: the line syntax of R88, the transaction a command
assembles to, and the pseudo-instructions of R89 with the host's rule for issuing an expansion. The
assembler is the host's; the block sees only transactions.
-/

namespace Sys2Proof.Machine

open Host

/-- The transaction a command assembles to; the assembler refuses a key or a nonce longer than 255
bytes and a tag that has not 16 bytes (R88). -/
def assemble (i : Instr) : Option Transaction := if i.wf then some (encode i) else none

/-- The pseudo-instructions of R89. -/
inductive Pseudo where
  /-- `CC.ENCRYPT key=X, nonce=Y, ctr=C, data=D`. -/
  | ccEncrypt (key nonce : List Byte) (ctr : Word) (data : List Byte)
  /-- `P.MAC key=X, msg=M`. -/
  | pMac (key msg : List Byte)
  /-- `AEAD.SEAL key=X, nonce=Y, aad=A, pt=T`. -/
  | aeadSeal (key nonce aad pt : List Byte)
  /-- `AEAD.OPEN key=X, nonce=Y, buf=B, tag=G`. -/
  | aeadOpen (key nonce buf tag : List Byte)
  deriving DecidableEq, Repr

/-- The commands of an expansion, in order (R89). -/
def expand : Pseudo → List Instr
  | .ccEncrypt key nonce ctr data => [.ccInit key nonce (some ctr), .ccXor data]
  | .pMac key msg => [.pInit key, .pUpdate msg, .pFinal]
  | .aeadSeal key nonce aad pt => [.aeadInit key nonce, .aeadAad aad, .aeadUpdate pt, .aeadFinal]
  | .aeadOpen key nonce buf tag => [.aeadInit key nonce, .aeadDecrypt buf tag]

/-- The transactions of a pseudo-instruction, in order; `none` where the assembler refuses one of its
commands (R88, R89). -/
def Pseudo.transactions (p : Pseudo) : Option (List Transaction) := (expand p).mapM assemble

/-- The response is the successful one (R84). -/
def Response.isOk (r : Response) : Bool := r.status == .ok

/-- The response on the port is the successful one. -/
def State.answeredOk (s : State) : Bool := s.response.any Response.isOk

/-- A host that issues an expansion (R89): the machine, the transactions not yet issued, and whether
one of the expansion has been issued. -/
structure Issue where
  state : State
  left : List Transaction
  started : Bool
  deriving DecidableEq, Repr

/-- The host looks at the machine after a step (R89). While the block is busy it waits. Where the
command it issued last has ended otherwise than with OK (another status, or RST and no response), it
issues no later one. -/
def Issue.observe (x : Issue) (s : State) : Issue :=
  if x.started ∧ s.busy = none ∧ s.answeredOk = false then { x with state := s, left := [] }
  else { x with state := s }

/-- The host after a step of the machine, whatever the step's outcome. -/
def Issue.after (x : Issue) : Outcome State Fault Refusal → Outcome Issue Fault Refusal
  | .next s => .next (x.observe s)
  | .fault r => .fault r
  | .refused r => .refused r

/-- One step of the machine with the host that issues an expansion. A busy block, with a command of
the expansion or an earlier one, goes on, and the host waits for its response (R59, R245); otherwise
the next transaction is issued as the host's next action. -/
def issueStep (x : Issue) : Outcome Issue Fault Refusal :=
  match x.state.busy, x.left with
  | some _, _ => x.after (step x.state)
  | none, [] => .next x
  | none, t :: ts => { x with left := ts, started := true }.after (step (x.state.present t))

/-- `n` steps of a host that issues an expansion. -/
def issueFor : Nat → Issue → Outcome Issue Fault Refusal
  | 0, x => .next x
  | n + 1, x =>
    match issueStep x with
    | .next y => issueFor n y
    | .fault r => .fault r
    | .refused r => .refused r

/-- The host is given a pseudo-instruction to issue on a machine; `none` where the assembler refuses it,
and then none of its commands is issued (R88, R89). -/
def issue (p : Pseudo) (s : State) : Option Issue :=
  p.transactions.map fun ts => { state := s, left := ts, started := false }

/-! The text of a line (R88), as a list of characters. -/

/-- The double quote, which opens and closes a byte string. -/
def quoteChar : Char := Char.ofNat 34

/-- The value of a hex digit. -/
def hexDigit (c : Char) : Option Nat :=
  if 48 ≤ c.toNat ∧ c.toNat ≤ 57 then some (c.toNat - 48)
  else if 97 ≤ c.toNat ∧ c.toNat ≤ 102 then some (c.toNat - 87)
  else if 65 ≤ c.toNat ∧ c.toNat ≤ 70 then some (c.toNat - 55)
  else none

/-- The inside of `x"…"` up to its closing quote: two hex digits a byte, spaces and colons ignored.
The first argument is a first digit already read. -/
def hexBody : Option Nat → List Char → Option (List Byte × List Char)
  | _, [] => none
  | h, c :: cs =>
    if c = ' ' ∨ c = ':' then hexBody h cs
    else
      match h with
      | none =>
        if c = quoteChar then some ([], cs)
        else (hexDigit c).bind fun v => hexBody (some v) cs
      | some u =>
        (hexDigit c).bind fun v =>
          (hexBody none cs).map fun r => (BitVec.ofNat 8 (16 * u + v) :: r.1, r.2)

/-- The inside of `"text"` up to its closing quote: the ASCII bytes of the text. -/
def textBody : List Char → Option (List Byte × List Char)
  | [] => none
  | c :: cs =>
    if c = quoteChar then some ([], cs)
    else if c.toNat < 128 then
      (textBody cs).map fun r => (BitVec.ofNat 8 c.toNat :: r.1, r.2)
    else none

/-- The line without its leading spaces. -/
def skipSpaces (cs : List Char) : List Char := cs.dropWhile (· = ' ')

/-- A byte string, `x"…"` or `"text"`. -/
def byteString (cs : List Char) : Option (List Byte × List Char) :=
  match skipSpaces cs with
  | c :: d :: ds =>
    if c = 'x' ∧ d = quoteChar then hexBody none ds
    else if c = quoteChar then textBody (d :: ds)
    else none
  | _ => none

/-- The value of the digits in front, in base 10 or 16, after a value already read. -/
def digitsValue (base : Nat) : Nat → List Char → Nat × List Char
  | n, [] => (n, [])
  | n, c :: cs =>
    match hexDigit c with
    | some v => if v < base then digitsValue base (base * n + v) cs else (n, c :: cs)
    | none => (n, c :: cs)

/-- A decimal or `0x` hexadecimal u32. -/
def wordLiteral (cs : List Char) : Option (Word × List Char) :=
  let inBase (base : Nat) (ds : List Char) : Option (Word × List Char) :=
    let r := digitsValue base 0 ds
    if r.2.length < ds.length ∧ r.1 < 2 ^ 32 then some (BitVec.ofNat 32 r.1, r.2) else none
  match skipSpaces cs with
  | '0' :: 'x' :: ds => inBase 16 ds
  | ds => inBase 10 ds

/-- The given characters stand in front, after spaces: what follows them. -/
def expectText (text cs : List Char) : Option (List Char) :=
  let ds := skipSpaces cs
  if text.isPrefixOf ds then some (ds.drop text.length) else none

/-- `name=X` with a byte string X. -/
def namedBytes (name : String) (cs : List Char) : Option (List Byte × List Char) :=
  (expectText name.toList cs).bind fun ds => (expectText ['='] ds).bind byteString

/-- `, name=X` with a byte string X. -/
def nextNamedBytes (name : String) (cs : List Char) : Option (List Byte × List Char) :=
  (expectText [','] cs).bind (namedBytes name)

/-- `, name=C` with a u32 C. -/
def nextNamedWord (name : String) (cs : List Char) : Option (Word × List Char) :=
  (expectText [','] cs).bind fun ds =>
    (expectText name.toList ds).bind fun es => (expectText ['='] es).bind wordLiteral

/-- Nothing but spaces is left of the line. -/
def atEnd (cs : List Char) : Bool := (skipSpaces cs).isEmpty

/-- The command of a line: the mnemonic has been read, `cs` is what follows it (R88). -/
def parseOperands (mnemonic : String) (cs : List Char) : Option Instr :=
  let noOperand (i : Instr) : Option Instr := if atEnd cs then some i else none
  let data (f : List Byte → Instr) : Option Instr :=
    (byteString cs).bind fun r => if atEnd r.2 then some (f r.1) else none
  match mnemonic with
  | "CC.INIT" =>
    (namedBytes "key" cs).bind fun k => (nextNamedBytes "nonce" k.2).bind fun n =>
      if atEnd n.2 then some (.ccInit k.1 n.1 none)
      else (nextNamedWord "ctr" n.2).bind fun c =>
        if atEnd c.2 then some (.ccInit k.1 n.1 (some c.1)) else none
  | "CC.BLOCK" => noOperand .ccBlock
  | "CC.XOR" => data .ccXor
  | "CC.XORB" => data .ccXorb
  | "CC.RESET" => noOperand .ccReset
  | "P.INIT" => (namedBytes "key" cs).bind fun k => if atEnd k.2 then some (.pInit k.1) else none
  | "P.DERIVE" => noOperand .pDerive
  | "P.UPDATE" => data .pUpdate
  | "P.FINAL" => noOperand .pFinal
  | "AEAD.INIT" =>
    (namedBytes "key" cs).bind fun k => (nextNamedBytes "nonce" k.2).bind fun n =>
      if atEnd n.2 then some (.aeadInit k.1 n.1) else none
  | "AEAD.AAD" => data .aeadAad
  | "AEAD.UPDATE" => data .aeadUpdate
  | "AEAD.FINAL" => noOperand .aeadFinal
  | "AEAD.DECRYPT" =>
    (namedBytes "buf" cs).bind fun b => (nextNamedBytes "tag" b.2).bind fun t =>
      if atEnd t.2 then some (.aeadDecrypt b.1 t.1) else none
  | _ => none

/-- The pseudo-instruction of a line: the mnemonic has been read (R89). -/
def parsePseudo (mnemonic : String) (cs : List Char) : Option Pseudo :=
  match mnemonic with
  | "CC.ENCRYPT" =>
    (namedBytes "key" cs).bind fun k => (nextNamedBytes "nonce" k.2).bind fun n =>
      (nextNamedWord "ctr" n.2).bind fun c => (nextNamedBytes "data" c.2).bind fun d =>
        if atEnd d.2 then some (.ccEncrypt k.1 n.1 c.1 d.1) else none
  | "P.MAC" =>
    (namedBytes "key" cs).bind fun k => (nextNamedBytes "msg" k.2).bind fun m =>
      if atEnd m.2 then some (.pMac k.1 m.1) else none
  | "AEAD.SEAL" =>
    (namedBytes "key" cs).bind fun k => (nextNamedBytes "nonce" k.2).bind fun n =>
      (nextNamedBytes "aad" n.2).bind fun a => (nextNamedBytes "pt" a.2).bind fun p =>
        if atEnd p.2 then some (.aeadSeal k.1 n.1 a.1 p.1) else none
  | "AEAD.OPEN" =>
    (namedBytes "key" cs).bind fun k => (nextNamedBytes "nonce" k.2).bind fun n =>
      (nextNamedBytes "buf" n.2).bind fun b => (nextNamedBytes "tag" b.2).bind fun t =>
        if atEnd t.2 then some (.aeadOpen k.1 n.1 b.1 t.1) else none
  | _ => none

/-- The commands of a line: one command, or the expansion of a pseudo-instruction (R88, R89). -/
def parseLine (line : String) : Option (List Instr) :=
  let cs := skipSpaces line.toList
  let mnemonic := String.ofList (cs.takeWhile (· ≠ ' '))
  let rest := cs.dropWhile (· ≠ ' ')
  match parseOperands mnemonic rest with
  | some i => some [i]
  | none => (parsePseudo mnemonic rest).map expand

/-- The transactions of a line; `none` where the assembler refuses it (R88). -/
def assembleLine (line : String) : Option (List Transaction) :=
  (parseLine line).bind fun is => is.mapM assemble

end Sys2Proof.Machine
end

