-- ==== Sys2Proof/Safety.lean ====
section
/-!
DEFINITION. The terms in which claims speak of safe runs: the invariant of the machine, what two
states have in common that the host and the sink can ever see, the host's and the sink's duties
(93_implementation_defined.md section 2), and the stream and tag of a sealed session (R177).
-/

namespace Sys2Proof.Machine

open Host

/-! The invariant. -/

/-- The plaintext bytes of a waiting AEAD_UPDATE, counted only when it ends (R174). -/
def pendingPlaintext : Option Transfer → Nat
  | some { writes := _, finish := .update ct } => ct.length
  | _ => 0

/-- A waiting command is one that takes the session's freshness (AEAD_AAD, AEAD_UPDATE; R33). -/
def Finish.takesData : Finish → Bool
  | .aad => true
  | .update _ => true
  | .final => false
  | .decrypt _ => false

/-- The invariant of the machine: it holds after reset and every step keeps it. -/
structure State.Inv (s : State) : Prop where
  /-- The session invariant (R34). -/
  session : s.a.PHASE = .OPEN → s.cc.PHASE = .READY ∧ s.p.PHASE = .ACTIVE
  /-- The accumulator is a canonical residue (R27). -/
  canonical : s.p.ACC.toNat < polyP
  /-- The hard-wired bits of the multiplier are 0 (R28). -/
  clamped : clamp s.p.R = s.p.R
  /-- The four constants of a constructed context (R24, R25). -/
  constants : s.cc.PHASE = .READY →
    s.cc.S[0] = 0x61707865 ∧ s.cc.S[1] = 0x3320646e ∧ s.cc.S[2] = 0x79622d32 ∧
      s.cc.S[3] = 0x6b206574
  /-- Freshness belongs to an open session (R33). -/
  freshOpen : s.a.FRESH = true → s.a.PHASE = .OPEN
  /-- A fresh session that no command is working on is as AEAD_INIT left it (R33). -/
  fresh : s.a.FRESH = true → s.busy = none →
    s.p.ACC = 0 ∧ counterOf s.cc.S = 1 ∧ s.a.AADLEN = 0 ∧ s.a.PTLEN = 0
  /-- A session's plaintext fits the blocks it has generated after block 0 (R32). -/
  plaintext : s.a.PHASE = .OPEN → 1 ≤ (counterOf s.cc.S).toNat ∧
    s.a.PTLEN.toNat + pendingPlaintext s.busy ≤ 64 * ((counterOf s.cc.S).toNat - 1)
  /-- Only a session's command waits on the sink, it has something left to write and no write of it is
  empty (R55), and its response has not been given (R59). -/
  waiting : ∀ x, s.busy = some x →
    s.a.PHASE = .OPEN ∧ s.response = none ∧ x.writes ≠ [] ∧ (∀ w ∈ x.writes, w.bytes ≠ []) ∧
      (x.finish.takesData = true → s.a.FRESH = false)

/-! What can be seen. -/

/-- The two states agree on everything but data fields whose phase is at its first value (R35): the
fields that no command ever reads. -/
structure AgreeVisible (s t : State) : Prop where
  ccPhase : s.cc.PHASE = t.cc.PHASE
  cc : s.cc.PHASE = .READY → s.cc = t.cc
  pPhase : s.p.PHASE = t.p.PHASE
  p : s.p.PHASE = .ACTIVE → s.p = t.p
  aPhase : s.a.PHASE = t.a.PHASE
  a : s.a.PHASE = .OPEN → s.a = t.a
  busy : s.busy = t.busy
  response : s.response = t.response
  sink : s.sink = t.sink
  sinkAnswers : s.sinkAnswers = t.sinkAnswers
  divisions : s.divisions = t.divisions
  host : s.host = t.host

/-- Two outcomes that the host and the sink cannot tell apart, now or later. -/
def OutcomesAgree : Outcome State Fault Refusal → Outcome State Fault Refusal → Prop
  | .next s, .next t => AgreeVisible s t
  | .fault r, .fault q => r = q
  | .refused r, .refused q => r = q
  | _, _ => False

/-! Duties of the host and the sink. -/

/-- The host waits for each response (R245). -/
def State.hostWaits (s : State) : Prop := ∀ t, HostEvent.overlapping t ∉ s.host

/-- Every transaction the host will present is one the port carries (R7). -/
def State.hostPresentable (s : State) : Prop :=
  ∀ t, (HostEvent.command t ∈ s.host ∨ HostEvent.overlapping t ∈ s.host ∨
    ∃ k, HostEvent.commandCut t k ∈ s.host) → t.presentable

/-- The sink accepts the next `n` writes and then answers `rest` (R55, R244). -/
def State.sinkAccepts (s : State) (n : Nat) (rest : List SinkAnswer) : Prop :=
  s.sinkAnswers = List.replicate n .accept ++ rest

/-- The command completed cleanly: the response is OK. -/
def State.clean (s : State) : Prop := s.answeredOk = true

/-- The host lets the block work: its next action is neither RST nor a command presented without
waiting. -/
def State.hostLetsWork (s : State) : Prop :=
  (∀ k rest, s.host ≠ .rst k :: rest) ∧ ∀ t rest, s.host ≠ .overlapping t :: rest

/-! Encodings and failing writes, as the command rules give them. -/

/-- The encoding line of a command rule: its row of the opcode map (R79), and its length condition on
KLEN, NLEN, CP and N (R78). -/
def EncodedBy (op : Op) (pattern mask : Word) (lengths : Nat → Nat → Bool → Nat → Prop) : Prop :=
  (⟨op, pattern, mask⟩ : OpRow) ∈ opcodeMap ∧
    ∀ k n cp len, lengthOK op k n cp len = true ↔ lengths k n cp len

/-- The sink accepts the writes `pre` and then fails the next write `w` of a command with descriptor
`e`, having kept `k` bytes of it; its later answers are `rest` (R55, R56). -/
def SinkFailsAt (ws : List Write) (s : State) (pre : List Write) (w : Write) (e : SinkErr) (k : Nat)
    (rest : List SinkAnswer) : Prop :=
  (∃ post, ws = pre ++ w :: post) ∧
    s.sinkAnswers = List.replicate pre.length .accept ++ .fail e k :: rest

/-- What a failed write leaves (R55, R56, R212, R213): SinkError with the descriptor, the accepted bytes
and the kept start of the failed write in the sink, nothing after it, the session ended. -/
def EndedBySink (s t : State) (pre : List Write) (w : Write) (e : SinkErr) (k : Nat)
    (rest : List SinkAnswer) : Prop :=
  t.response = some ⟨.sinkError, e.bytes⟩ ∧
    t.sink = s.sink ++ pre.flatMap Write.bytes ++ w.bytes.take k ∧ t.sinkAnswers = rest ∧
    t.busy = none ∧ t.host = s.host ∧ t.cc.PHASE = .EMPTY ∧ t.p.PHASE = .EMPTY ∧
    t.a.PHASE = .IDLE ∧ t.a.FRESH = false

/-- The sink accepts the writes `pre` of a command and does not answer the next of `post` yet: it
stalls, its later answers being `rest`, or it is silent (R55, R244). -/
def SinkStallsAt (ws : List Write) (s : State) (pre post : List Write) (rest : List SinkAnswer) :
    Prop :=
  ws = pre ++ post ∧ post ≠ [] ∧
    ((s.sinkAnswers = List.replicate pre.length .accept ∧ rest = []) ∨
      s.sinkAnswers = List.replicate pre.length .accept ++ .stall :: rest)

/-- What a write that is not answered leaves (R55, R59): the accepted bytes in the sink and nothing
more, the block busy with the writes `post` and then with the end `f` of the command, no response
given, the phases as they were, and nothing of the key or the host's list touched. -/
def WaitsOnSink (s t : State) (pre post : List Write) (f : Finish) (rest : List SinkAnswer) : Prop :=
  t.busy = some ⟨post, f⟩ ∧ t.response = s.response ∧
    t.sink = s.sink ++ pre.flatMap Write.bytes ∧ t.sinkAnswers = rest ∧ t.host = s.host ∧
    t.divisions = s.divisions.tail ∧ t.cc.PHASE = s.cc.PHASE ∧ t.p.PHASE = s.p.PHASE ∧
    t.p.R = s.p.R ∧ t.p.S = s.p.S

/-! Sealed sessions. -/

/-- The cipher state a session starts encrypting with: counter 1 (R172). -/
def sessionCipher (key nonce : List Byte) : CipherState := withCounter (initState key nonce 0) 1

/-- The ciphertext of a plaintext, from counter 1 (R177). -/
def sealText (key nonce pt : List Byte) : List Byte := (keystreamXor (sessionCipher key nonce) pt).1

/-- The stream of a sealed session: `pad16(A) ++ pad16(C) ++ ENC64(|A|) ++ ENC64(|P|)` (R177). -/
def sealStream (key nonce aad pt : List Byte) : List Byte :=
  pad16 aad ++ pad16 (sealText key nonce pt) ++ encLE 8 aad.length ++ encLE 8 pt.length

/-- The tag of a sealed session (R177): `PolyTag(PolyAbsorb(0, r, stream), s)`, (r, s) from block 0. -/
def sealTag (key nonce aad pt : List Byte) : List Byte :=
  polyTag (polyAbsorb 0 (keySplit (oneTimeKey key nonce)).1 (sealStream key nonce aad pt))
    (keySplit (oneTimeKey key nonce)).2

end Sys2Proof.Machine
end

