-- ==== Sys2Proof/Certificates/Slice0/Obligations.lean ====
section
/-!
DEFINITION. The statements for the provers, each with the rule of spec/ it formalises. A state is
written out as the record the rules give, `{ s with … }`, so a result is also its frame: what is not
written there is unchanged. Where a record says what is left of `sinkAnswers`, `divisions` or `host`,
that is the model's account of its own draws (log entries 4, 5 and 6), and no rule's.
-/

open Host Sys2Proof Sys2Proof.Machine

/-! ## Encoding -/

/-- Decoding the encoding of an instruction gives the instruction back, for every instruction and
every operand the encoding admits (R71, R78, R79, R82, R87, R88). -/
def Obligations.EncodedInstructionsDecode : Prop :=
  ∀ i : Instr, i.wf = true → decode (encode i) = .ok i

/-- A transaction that decodes is the encoding of the instruction it decodes to, which is well
formed: no bit of a word and no byte of a payload is dropped or ignored (R71, R77, R78, R79). -/
def Obligations.DecodedTransactionsEncode : Prop :=
  ∀ (t : Transaction) (i : Instr), t.wf = true → decode t = .ok i → i.wf = true ∧ encode i = t

/-- R76, R77 and the opcodes of R79: "No two rows match the same word, because every row's mask covers
OPC"; and a word matches a row exactly when its reserved bits are 0, its opcode is assigned, and the
fields its opcode does not use are 0. -/
def Obligations.WordsOfTheOpcodeMap : Prop :=
  (∀ (w : Word) (q r : OpRow), q ∈ opcodeMap → r ∈ opcodeMap →
    rowMatches w q = true → rowMatches w r = true → q = r) ∧
  ∀ w : Word, (findOp w).isSome = true ↔
    w.extractLsb' 25 7 = 0 ∧
      (w.extractLsb' 0 8 = 0x10 ∨
       (w.extractLsb' 0 8 = 0x30 ∧ w.extractLsb' 24 1 = 0) ∨
       (w.extractLsb' 0 8 = 0x20 ∧ w.extractLsb' 24 1 = 0 ∧ w.extractLsb' 16 8 = 0) ∨
       (w.extractLsb' 0 8 ∈
          ([0x11, 0x12, 0x13, 0x14, 0x21, 0x22, 0x23, 0x31, 0x32, 0x33, 0x34] : List (BitVec 8)) ∧
        w.extractLsb' 24 1 = 0 ∧ w.extractLsb' 16 8 = 0 ∧ w.extractLsb' 8 8 = 0))

/-- Words written out from the encodings of R71 and R79, one for each family and each shape of
payload, decode to the instruction they stand for (a sanity statement). -/
def Obligations.SpecWordsDecode : Prop :=
  decode ⟨0x010C2010, zeros 44 ++ [0xFE, 0xFF, 0xFF, 0xFF]⟩
      = .ok (.ccInit (zeros 32) (zeros 12) (some 0xFFFFFFFE)) ∧
  decode ⟨0x00000012, [0x41, 0x42]⟩ = .ok (.ccXor [0x41, 0x42]) ∧
  decode ⟨0x00000020, []⟩ = .ok (.pInit []) ∧
  decode ⟨0x00010230, [1, 2, 3]⟩ = .ok (.aeadInit [1, 2] [3]) ∧
  decode ⟨0x00000034, zeros 16⟩ = .ok (.aeadDecrypt [] (zeros 16))

/-- R80: an illegal command (its word matches no row, or its payload fails the length condition) is
refused with IllegalCommand, changes no state and writes nothing, whatever the phases are; only the
response leaves the port. A reserved bit and each unassigned OPC value make a word illegal. -/
def Obligations.IllegalCommandChangesNothing : Prop :=
  (∀ (s : State) (t : Transaction) (rest : List HostEvent),
    s.busy = none → s.host = .command t :: rest → t.wf = true →
    (findOp t.word = none ∨
      ∃ op, findOp t.word = some op ∧
        lengthOK op (fieldKLEN t.word) (fieldNLEN t.word) (fieldCP t.word) t.payload.length
          = false) →
    step s = .next { s with host := rest, response := some ⟨.illegalCommand, []⟩ }) ∧
  ∀ w : Word,
    (w.extractLsb' 25 7 ≠ 0 ∨ (w.extractLsb' 0 8).toNat ≤ 0x0F ∨
      (0x15 ≤ (w.extractLsb' 0 8).toNat ∧ (w.extractLsb' 0 8).toNat ≤ 0x1F) ∨
      (0x24 ≤ (w.extractLsb' 0 8).toNat ∧ (w.extractLsb' 0 8).toNat ≤ 0x2F) ∨
      0x35 ≤ (w.extractLsb' 0 8).toNat) →
    findOp w = none

/-- The status codes (R84): 0x00 to 0x0A in the table's order, and no other value. -/
def Obligations.StatusCodes : Prop :=
  [Status.ok, .invalidKeyLength, .invalidNonceLength, .counterOverflow, .tagMismatch,
    .bufferSizeMismatch, .sinkError, .sequenceError, .illegalCommand, .frameError,
    .lengthOverflow].map Status.code = [0, 1, 2, 3, 4, 5, 6, 7, 8, 9, 10] ∧
  ∀ st : Status, st.code.toNat ≤ 0x0A

/-! ## The step, reset and the port -/

/-- A presented transaction that decodes is executed: the step is exec of the decoded instruction on
the state in which the host's action has been taken and the port holds no response (R58, R59). -/
def Obligations.StepRunsDecodedCommand : Prop :=
  ∀ (s : State) (t : Transaction) (rest : List HostEvent) (i : Instr),
    s.busy = none → s.host = .command t :: rest → t.wf = true → decode t = .ok i →
    step s = exec i { s with host := rest, response := none }

/-- What reset leaves (R38, R240): the three phases at their first value, A.FRESH 0, not busy, and no
response pending. -/
def Obligations.ResetLeavesFirstPhases : Prop :=
  State.reset.cc.PHASE = .EMPTY ∧ State.reset.p.PHASE = .EMPTY ∧ State.reset.a.PHASE = .IDLE ∧
    State.reset.a.FRESH = false ∧ State.reset.busy = none ∧ State.reset.response = none

/-- RST (R240, R241) in any state, between commands or while a command waits on the sink: all phases
at their first value, A.FRESH 0, not busy, no response. Bytes the sink has stay. Of what an abandoned
command had left to write the sink has taken the first `k` bytes: the model's form of the draw of
93_implementation_defined.md U8 (log entry 12, DESIGN CHOICE). -/
def Obligations.RstAbandonsAndResets : Prop :=
  ∀ (s : State) (k : Nat) (rest : List HostEvent), s.host = .rst k :: rest →
    ∃ t, step s = .next t ∧
      t.cc.PHASE = .EMPTY ∧ t.p.PHASE = .EMPTY ∧ t.a.PHASE = .IDLE ∧ t.a.FRESH = false ∧
      t.busy = none ∧ t.response = none ∧ t.host = rest ∧ t.sinkAnswers = s.sinkAnswers ∧
      (s.busy = none → t.sink = s.sink) ∧
      ∀ x, s.busy = some x → t.sink = s.sink ++ (x.writes.flatMap Write.bytes).take k

/-- RST while a command executes (R241): no response, the reset state, and the sink has kept the first
`k` bytes of `out`, the command's own output: what the same command writes where RST is not asserted and
the sink accepts. It holds for every command of every length the port can carry. That the kept bytes are
the first `k`, a draw, is the model's form of "any prefix of the command's output"
(93_implementation_defined.md U8; log entry 12, DESIGN CHOICE). -/
def Obligations.CutCommandGivesNoResponse : Prop :=
  ∀ (s : State) (t : Transaction) (k : Nat) (rest : List HostEvent),
    s.busy = none → s.host = .commandCut t k :: rest → t.wf = true →
    ∃ u, step s = .next u ∧
      u.cc.PHASE = .EMPTY ∧ u.p.PHASE = .EMPTY ∧ u.a.PHASE = .IDLE ∧ u.a.FRESH = false ∧
      u.busy = none ∧ u.response = none ∧ u.host = rest ∧ u.sinkAnswers = s.sinkAnswers ∧
      ∃ out : List Byte, u.sink = s.sink ++ out.take k ∧
        ∀ n, out.length ≤ n → ∃ v,
          step { s with host := .command t :: rest, sinkAnswers := List.replicate n .accept }
            = .next v ∧ v.busy = none ∧ v.sink = s.sink ++ out

/-- The block waits: where the host does nothing (R225, R242), and, with a command in progress, where
the sink has not answered its write (R55, R244), whatever the host will do next other than RST and a
command presented without waiting. A wait is a step that changes nothing (log entry 15, DESIGN CHOICE),
and a stall is a wait of one step, which uses the answer up (log entry 5, DESIGN CHOICE). -/
def Obligations.WaitingChangesNothing : Prop :=
  (∀ s : State, s.busy = none → s.host = [] → step s = .next s) ∧
  (∀ (s : State) (x : Transfer), s.busy = some x → x.writes ≠ [] →
    s.hostLetsWork →
    s.sinkAnswers = [] → step s = .next s) ∧
  (∀ (s : State) (x : Transfer) (as : List SinkAnswer), s.busy = some x → x.writes ≠ [] →
    s.hostLetsWork →
    s.sinkAnswers = .stall :: as → step s = .next { s with sinkAnswers := as })

/-- A command presented while another waits on the sink is refused by name (R37, U1). -/
def Obligations.OverlappingCommandIsRefused : Prop :=
  ∀ (s : State) (x : Transfer) (t : Transaction) (rest : List HostEvent),
    s.busy = some x → s.host = .overlapping t :: rest → step s = .refused .overlappingCommand

/-- The block has no traps (R210): whatever command is executed, in whatever state, the machine goes
on. -/
def Obligations.EveryCommandGoesOn : Prop :=
  ∀ (i : Instr) (s : State), ∃ t, exec i s = .next t

/-- The only stops of the machine: a command presented while the block is busy, and a payload that no
transaction has. -/
def Obligations.OnlyTwoStops : Prop :=
  (∀ (s : State) (r : Fault), step s = .fault r →
    r = .payloadTooLong ∧ s.busy = none ∧ ∃ t rest, t.wf = false ∧
      (s.host = .command t :: rest ∨ s.host = .overlapping t :: rest ∨
        ∃ k, s.host = .commandCut t k :: rest)) ∧
  (∀ (s : State) (r : Refusal), step s = .refused r →
    r = .overlappingCommand ∧ s.busy ≠ none ∧ ∃ t rest, s.host = .overlapping t :: rest)

/-! ## Whole-machine rules -/

/-- The invariant holds after reset. -/
def Obligations.InvariantAfterReset : Prop := State.reset.Inv

/-- Every step keeps the invariant, from every state that has it: the session invariant (R34), the
canonical accumulator (R27), the hard-wired zero bits (R28), the constants (R25), freshness (R33), the
plaintext bound (R32), and no response before the sink has answered (R59). -/
def Obligations.StepKeepsInvariant : Prop :=
  ∀ s t : State, s.Inv → step s = .next t → t.Inv

/-- A data field's value while its phase is at its first value is never observed (R35): two states
that differ only in such fields give outcomes that differ only in such fields. -/
def Obligations.GatedFieldsAreNeverObserved : Prop :=
  ∀ s t : State, s.Inv → t.Inv → AgreeVisible s t → OutcomesAgree (step s) (step t)

/-- Bytes in the sink are never retracted (R56, R252), by any step, RST among them. -/
def Obligations.SinkIsAppendOnly : Prop :=
  ∀ s t : State, step s = .next t → s.sink <+: t.sink

/-- LengthOverflow never fires for A.PTLEN (R32): in a session the counter check of AEAD_UPDATE fails
first. -/
def Obligations.UpdateNeverOverflowsLength : Prop :=
  ∀ (data : List Byte) (s t : State), s.Inv → s.busy = none → s.response = none →
    exec (.aeadUpdate data) s = .next t → t.response ≠ some ⟨.lengthOverflow, []⟩

/-- "constants and key/nonce words never change after construction" (R25): no command but CC_INIT and
AEAD_INIT writes a word of CC.S other than word 12, or CC.CTR0 (R26); and no word at all, word 12 among
them, changes in a step in which a waiting command goes on, whatever the sink answers. -/
def Obligations.KeyAndNonceWordsStay : Prop :=
  (∀ (i : Instr) (s t : State), exec i s = .next t →
    (∀ key nonce ctr, i ≠ .ccInit key nonce ctr) → (∀ key nonce, i ≠ .aeadInit key nonce) →
    (∀ j : Fin 16, j ≠ 12 → t.cc.S[j] = s.cc.S[j]) ∧ t.cc.CTR0 = s.cc.CTR0) ∧
  (∀ s t : State, s.busy ≠ none → (∀ k rest, s.host ≠ .rst k :: rest) → step s = .next t →
    t.cc.S = s.cc.S ∧ t.cc.CTR0 = s.cc.CTR0)

/-- The counter is monotonic (R25, 90_conflicts.md C5): no command but the two constructions and
CC_RESET moves it back. -/
def Obligations.CounterIsMonotonic : Prop :=
  ∀ (i : Instr) (s t : State), exec i s = .next t →
    (∀ key nonce ctr, i ≠ .ccInit key nonce ctr) → (∀ key nonce, i ≠ .aeadInit key nonce) →
    i ≠ .ccReset → (counterOf s.cc.S).toNat ≤ (counterOf t.cc.S).toNat

/-- Frame of the stand-alone commands: none touches the A unit, the sink or the host's list; the CC_*
commands leave the P unit, and the P_* commands other than P_DERIVE leave the CC unit (R24, R27 to
R33). -/
def Obligations.StandAloneCommandsFrame : Prop :=
  ∀ (s t : State),
    (∀ i : Instr, ((∃ key nonce ctr, i = .ccInit key nonce ctr) ∨ i = .ccBlock ∨
        (∃ data, i = .ccXor data) ∨ (∃ data, i = .ccXorb data) ∨ i = .ccReset) →
      exec i s = .next t →
      t.p = s.p ∧ t.a = s.a ∧ t.busy = s.busy ∧ t.sink = s.sink ∧
        t.sinkAnswers = s.sinkAnswers ∧ t.divisions = s.divisions ∧ t.host = s.host) ∧
    (∀ i : Instr, ((∃ key, i = .pInit key) ∨ (∃ data, i = .pUpdate data) ∨ i = .pFinal) →
      exec i s = .next t →
      t.cc = s.cc ∧ t.a = s.a ∧ t.busy = s.busy ∧ t.sink = s.sink ∧
        t.sinkAnswers = s.sinkAnswers ∧ t.divisions = s.divisions ∧ t.host = s.host) ∧
    (exec .pDerive s = .next t →
      t.a = s.a ∧ t.busy = s.busy ∧ t.sink = s.sink ∧ t.sinkAnswers = s.sinkAnswers ∧
        t.divisions = s.divisions ∧ t.host = s.host ∧ t.cc.CTR0 = s.cc.CTR0 ∧ ∀ j : Fin 16, j ≠ 12 → t.cc.S[j] = s.cc.S[j])

/-- Frame of the AEAD commands in a session: none touches the host's list, the key words, CC.CTR0 or
the Poly1305 key (R24, R26, R28, R29), and at most one division is used. -/
def Obligations.SessionCommandsFrame : Prop :=
  ∀ (i : Instr) (s t : State),
    ((∃ data, i = .aeadAad data) ∨ (∃ data, i = .aeadUpdate data) ∨ i = .aeadFinal ∨
      ∃ buf tag, i = .aeadDecrypt buf tag) →
    exec i s = .next t →
    t.host = s.host ∧ (t.divisions = s.divisions ∨ t.divisions = s.divisions.tail) ∧
      t.cc.CTR0 = s.cc.CTR0 ∧ t.p.R = s.p.R ∧ t.p.S = s.p.S ∧
      ∀ j : Fin 16, j ≠ 12 → t.cc.S[j] = s.cc.S[j]

/-- "While a session is open, the stand-alone CC_* and P_* commands return SequenceError" (R254), and
change nothing (R213). -/
def Obligations.SessionLocksTheUnits : Prop :=
  ∀ (i : Instr) (s : State), s.a.PHASE = .OPEN →
    ((∃ key nonce ctr, i = .ccInit key nonce ctr) ∨ i = .ccBlock ∨ (∃ data, i = .ccXor data) ∨
      (∃ data, i = .ccXorb data) ∨ i = .ccReset ∨ (∃ key, i = .pInit key) ∨ i = .pDerive ∨
      (∃ data, i = .pUpdate data) ∨ i = .pFinal) →
    exec i s = .next { s with response := some ⟨.sequenceError, []⟩ }

/-- R243: every command other than CC_INIT, P_INIT and AEAD_INIT returns SequenceError while no
context has been initialised, and changes nothing. -/
def Obligations.CommandsNeedAnInit : Prop :=
  ∀ (i : Instr) (s : State),
    s.cc.PHASE = .EMPTY → s.p.PHASE = .EMPTY → s.a.PHASE = .IDLE →
    (∀ key nonce ctr, i ≠ .ccInit key nonce ctr) → (∀ key, i ≠ .pInit key) →
    (∀ key nonce, i ≠ .aeadInit key nonce) →
    exec i s = .next { s with response := some ⟨.sequenceError, []⟩ }

/-- R83: when the status is an error other than SinkError, M = 0. -/
def Obligations.ErrorResponsesAreEmpty : Prop :=
  ∀ (i : Instr) (s t : State) (r : Response), s.response = none → exec i s = .next t →
    t.response = some r → r.status ≠ .ok → r.status ≠ .sinkError → r.rdata = []

/-! ## Functions -/

/-- The little-endian conversions are inverse to each other (R10: `LE(ENCn(v)) = v`). -/
def Obligations.LittleEndianInverse : Prop :=
  (∀ n v : Nat, v < 256 ^ n → leNat (encLE n v) = v ∧ (encLE n v).length = n) ∧
  (∀ b : List Byte, encLE b.length (leNat b) = b)

/-- InitState word by word (R100). -/
def Obligations.InitStateWords : Prop :=
  ∀ (key nonce : List Byte) (ctr : Word),
    (initState key nonce ctr)[0] = 0x61707865 ∧ (initState key nonce ctr)[1] = 0x3320646e ∧
    (initState key nonce ctr)[2] = 0x79622d32 ∧ (initState key nonce ctr)[3] = 0x6b206574 ∧
    (∀ (i : Nat) (h : i < 8), (initState key nonce ctr)[4 + i] = le32 key (4 * i)) ∧
    (initState key nonce ctr)[12] = ctr ∧
    (∀ (i : Nat) (h : i < 3), (initState key nonce ctr)[13 + i] = le32 nonce (4 * i))

/-- The quarter round (R101) on four distinct indices: each step reads the values the step before
wrote, and the other twelve words are unchanged. -/
def Obligations.QuarterRoundSteps : Prop :=
  ∀ (x : CipherState) (a b c d : Fin 16), [a, b, c, d].Nodup →
    ∀ a1 d1 c1 b1 a2 d2 c2 b2 : Word,
      a1 = x[a] + x[b] → d1 = (x[d] ^^^ a1).rotateLeft 16 →
      c1 = x[c] + d1 → b1 = (x[b] ^^^ c1).rotateLeft 12 →
      a2 = a1 + b1 → d2 = (d1 ^^^ a2).rotateLeft 8 →
      c2 = c1 + d2 → b2 = (b1 ^^^ c2).rotateLeft 7 →
      (quarterRound x a b c d)[a] = a2 ∧ (quarterRound x a b c d)[b] = b2 ∧
      (quarterRound x a b c d)[c] = c2 ∧ (quarterRound x a b c d)[d] = d2 ∧
      ∀ j : Fin 16, j ∉ [a, b, c, d] → (quarterRound x a b c d)[j] = x[j]

/-- Quarter rounds on disjoint words commute, so the order of the four columns, and that of the four
diagonals, does not affect the result (R102). -/
def Obligations.DisjointQuarterRoundsCommute : Prop :=
  ∀ (x : CipherState) (a b c d a' b' c' d' : Fin 16), [a, b, c, d, a', b', c', d'].Nodup →
    quarterRound (quarterRound x a b c d) a' b' c' d'
      = quarterRound (quarterRound x a' b' c' d') a b c d

/-- The double round (R102): eight quarter rounds, the four columns, then the four diagonals, on the
words the rule lists. The keystream block (R103): 64 bytes; word i is the word after ten double rounds
plus the original word, little-endian. -/
def Obligations.KeystreamBlockWords : Prop :=
  (∀ x c d : CipherState,
    c = quarterRound (quarterRound (quarterRound (quarterRound x
      0 4 8 12) 1 5 9 13) 2 6 10 14) 3 7 11 15 →
    d = quarterRound (quarterRound (quarterRound (quarterRound c
      0 5 10 15) 1 6 11 12) 2 7 8 13) 3 4 9 14 →
    doubleRound x = d) ∧
  ∀ s : CipherState, (chachaBlock s).length = 64 ∧
    ∀ i : Fin 16, slice (chachaBlock s) (4 * i.val) 4 = encLE 4 ((doubleRound^[10] s)[i] + s[i]).toNat

/-- KeystreamXor (R105), byte by byte: |out| = |D|; byte i is XORed with byte i mod 64 of the block at
counter c + i / 64; exactly ceil(|D| / 64) blocks are consumed, with no wrap where BlocksAvail holds;
and it is its own inverse. -/
def Obligations.KeystreamXorBytes : Prop :=
  ∀ (s : CipherState) (d : List Byte),
    blocksAvail (counterOf s) ((d.length + 63) / 64) →
    (keystreamXor s d).1.length = d.length ∧
    (keystreamXor s d).2.toNat = (counterOf s).toNat + (d.length + 63) / 64 ∧
    (∀ (i : Nat) (h : i < d.length),
      (keystreamXor s d).1[i]? = some (d[i] ^^^ (chachaBlock
        (withCounter s (counterOf s + BitVec.ofNat 32 (i / 64)))).getD (i % 64) 0)) ∧
    (keystreamXor s (keystreamXor s d).1).1 = d

/-- Clamp (R140) byte by byte: bytes 3, 7, 11 and 15 are ANDed with 0x0F, bytes 4, 8 and 12 with 0xFC,
the others are unchanged; the result is below 2^124. -/
def Obligations.ClampBytes : Prop :=
  ∀ r : BitVec 128, (clamp r).toNat < 2 ^ 124 ∧
    ∀ k : Fin 16, (clamp r).extractLsb' (8 * k.val) 8 =
      r.extractLsb' (8 * k.val) 8 &&&
        (if k.val ∈ [3, 7, 11, 15] then 0x0F else if k.val ∈ [4, 8, 12] then 0xFC else 0xFF)

/-- PolyAbsorb (R142, R143): nothing for no bytes; a block of 1 to 16 bytes gives
`((acc + LE(c) + 2^(8|c|)) * r) mod p`; a full block is absorbed before what follows it; and a
canonical accumulator stays canonical. -/
def Obligations.PolyAbsorbBlocks : Prop :=
  ∀ (acc : Nat) (r : BitVec 128),
    polyAbsorb acc r [] = acc ∧
    (∀ c : List Byte, 1 ≤ c.length → c.length ≤ 16 →
      polyAbsorb acc r c = ((acc + (leNat c + 2 ^ (8 * c.length))) * r.toNat) % (2 ^ 130 - 5) ∧
      leNat c + 2 ^ (8 * c.length) < 2 ^ 129) ∧
    (∀ c d : List Byte, c.length = 16 →
      polyAbsorb acc r (c ++ d) = polyAbsorb (polyAbsorb acc r c) r d) ∧
    (∀ d : List Byte, acc < 2 ^ 130 - 5 → polyAbsorb acc r d < 2 ^ 130 - 5)

/-- The chunking law (R150): chunks that are a multiple of 16 bytes compose; others differ in
general. -/
def Obligations.PolyChunking : Prop :=
  (∀ (acc : Nat) (r : BitVec 128) (x y : List Byte), x.length % 16 = 0 →
    polyAbsorb (polyAbsorb acc r x) r y = polyAbsorb acc r (x ++ y)) ∧
  (∃ (acc : Nat) (r : BitVec 128) (x y : List Byte), x.length % 16 ≠ 0 ∧
    polyAbsorb (polyAbsorb acc r x) r y ≠ polyAbsorb acc r (x ++ y))

/-- PolyTag (R144): the 16-byte little-endian tag of the fully reduced accumulator plus s modulo
2^128. -/
def Obligations.PolyTagValue : Prop :=
  ∀ (acc : Nat) (s : BitVec 128), (polyTag acc s).length = 16 ∧
    leNat (polyTag acc s) = (acc % (2 ^ 130 - 5) + s.toNat) % 2 ^ 128

/-! ## CC_* commands -/

/-- CC_INIT (R107): the checks in order, each construction error changing nothing, and the constructed
context. Any counter value is accepted, and 0 is the default. -/
def Obligations.CcInitRule : Prop :=
  EncodedBy .ccInit 0x00000010 0xFE0000FF (fun k n cp len => len = k + n + if cp then 4 else 0) ∧
  ∀ (key nonce : List Byte) (ctr : Option Word) (s : State),
    (s.a.PHASE = .OPEN →
      exec (.ccInit key nonce ctr) s = .next { s with response := some ⟨.sequenceError, []⟩ }) ∧
    (s.a.PHASE = .IDLE → key.length ≠ 32 →
      exec (.ccInit key nonce ctr) s = .next { s with response := some ⟨.invalidKeyLength, []⟩ }) ∧
    (s.a.PHASE = .IDLE → key.length = 32 → nonce.length ≠ 12 →
      exec (.ccInit key nonce ctr) s
        = .next { s with response := some ⟨.invalidNonceLength, []⟩ }) ∧
    (s.a.PHASE = .IDLE → key.length = 32 → nonce.length = 12 →
      exec (.ccInit key nonce ctr) s = .next { s with
        cc := ⟨initState key nonce (ctr.getD 0), ctr.getD 0, .READY⟩
        response := some ⟨.ok, []⟩ })

/-- CC_BLOCK (R108, R104): SequenceError; CounterOverflow at counter 0xFFFFFFFF, which voids the
context and outputs nothing; otherwise the 64-byte block, and the counter goes up by 1 without a
wrap. -/
def Obligations.CcBlockRule : Prop :=
  EncodedBy .ccBlock 0x00000011 0xFFFFFFFF (fun _ _ _ len => len = 0) ∧
  ∀ s : State,
    ((s.a.PHASE = .OPEN ∨ s.cc.PHASE = .EMPTY) →
      exec .ccBlock s = .next { s with response := some ⟨.sequenceError, []⟩ }) ∧
    (s.a.PHASE = .IDLE → s.cc.PHASE = .READY → s.cc.S[12] = 0xFFFFFFFF →
      exec .ccBlock s = .next { s with
        cc := ⟨s.cc.S, s.cc.CTR0, .EMPTY⟩
        response := some ⟨.counterOverflow, []⟩ }) ∧
    (s.a.PHASE = .IDLE → s.cc.PHASE = .READY → s.cc.S[12] ≠ 0xFFFFFFFF →
      exec .ccBlock s = .next { s with
        cc := ⟨s.cc.S.set 12 (s.cc.S[12] + 1), s.cc.CTR0, .READY⟩
        response := some ⟨.ok, chachaBlock s.cc.S⟩ } ∧
      (s.cc.S[12] + 1).toNat = s.cc.S[12].toNat + 1)

/-- CC_XOR (R109, R106): SequenceError; CounterOverflow, decided on the whole request before any
output; otherwise the data XOR keystream, and the counter goes up by ceil(N / 64). -/
def Obligations.CcXorRule : Prop :=
  EncodedBy .ccXor 0x00000012 0xFFFFFFFF (fun _ _ _ _ => True) ∧
  ∀ (data : List Byte) (s : State),
    ((s.a.PHASE = .OPEN ∨ s.cc.PHASE = .EMPTY) →
      exec (.ccXor data) s = .next { s with response := some ⟨.sequenceError, []⟩ }) ∧
    (s.a.PHASE = .IDLE → s.cc.PHASE = .READY →
      s.cc.S[12].toNat + (data.length + 63) / 64 > 0xFFFFFFFF →
      exec (.ccXor data) s = .next { s with
        cc := ⟨s.cc.S, s.cc.CTR0, .EMPTY⟩
        response := some ⟨.counterOverflow, []⟩ }) ∧
    (s.a.PHASE = .IDLE → s.cc.PHASE = .READY →
      s.cc.S[12].toNat + (data.length + 63) / 64 ≤ 0xFFFFFFFF →
      exec (.ccXor data) s = .next { s with
        cc := ⟨s.cc.S.set 12 (s.cc.S[12] + BitVec.ofNat 32 ((data.length + 63) / 64)), s.cc.CTR0,
          .READY⟩
        response := some ⟨.ok, (keystreamXor s.cc.S data).1⟩ })

/-- CC_XORB (R110): BufferSizeMismatch where N is not a multiple of 64, before CounterOverflow, and it
voids the context; otherwise as CC_XOR, with N / 64 blocks. -/
def Obligations.CcXorbRule : Prop :=
  EncodedBy .ccXorb 0x00000013 0xFFFFFFFF (fun _ _ _ _ => True) ∧
  ∀ (data : List Byte) (s : State),
    ((s.a.PHASE = .OPEN ∨ s.cc.PHASE = .EMPTY) →
      exec (.ccXorb data) s = .next { s with response := some ⟨.sequenceError, []⟩ }) ∧
    (s.a.PHASE = .IDLE → s.cc.PHASE = .READY → data.length % 64 ≠ 0 →
      exec (.ccXorb data) s = .next { s with
        cc := ⟨s.cc.S, s.cc.CTR0, .EMPTY⟩
        response := some ⟨.bufferSizeMismatch, []⟩ }) ∧
    (s.a.PHASE = .IDLE → s.cc.PHASE = .READY → data.length % 64 = 0 →
      s.cc.S[12].toNat + data.length / 64 > 0xFFFFFFFF →
      exec (.ccXorb data) s = .next { s with
        cc := ⟨s.cc.S, s.cc.CTR0, .EMPTY⟩
        response := some ⟨.counterOverflow, []⟩ }) ∧
    (s.a.PHASE = .IDLE → s.cc.PHASE = .READY → data.length % 64 = 0 →
      s.cc.S[12].toNat + data.length / 64 ≤ 0xFFFFFFFF →
      exec (.ccXorb data) s = .next { s with
        cc := ⟨s.cc.S.set 12 (s.cc.S[12] + BitVec.ofNat 32 (data.length / 64)), s.cc.CTR0, .READY⟩
        response := some ⟨.ok, (keystreamXor s.cc.S data).1⟩ })

/-- CC_RESET (R111): SequenceError, or the counter back to CC.CTR0 with every other word
unchanged. -/
def Obligations.CcResetRule : Prop :=
  EncodedBy .ccReset 0x00000014 0xFFFFFFFF (fun _ _ _ len => len = 0) ∧
  ∀ s : State,
    ((s.a.PHASE = .OPEN ∨ s.cc.PHASE = .EMPTY) →
      exec .ccReset s = .next { s with response := some ⟨.sequenceError, []⟩ }) ∧
    (s.a.PHASE = .IDLE → s.cc.PHASE = .READY →
      exec .ccReset s = .next { s with
        cc := ⟨s.cc.S.set 12 s.cc.CTR0, s.cc.CTR0, .READY⟩
        response := some ⟨.ok, []⟩ })

/-- Involution (R112): CC_XOR m, CC_RESET, CC_XOR of the first response returns m, for every length,
where the counter starts at CC.CTR0 and the blocks are there. -/
def Obligations.XorIsItsOwnInverse : Prop :=
  ∀ (m : List Byte) (s : State), s.a.PHASE = .IDLE → s.cc.PHASE = .READY →
    s.cc.S[12] = s.cc.CTR0 → s.cc.S[12].toNat + (m.length + 63) / 64 ≤ 0xFFFFFFFF →
    ∃ t u v x, exec (.ccXor m) s = .next t ∧ t.response = some ⟨.ok, x⟩ ∧
      exec .ccReset t = .next u ∧ exec (.ccXor x) u = .next v ∧ v.response = some ⟨.ok, m⟩

/-- Chunks of a keystream XOR (R105, R112, R248): where the first chunk is a multiple of 64 bytes, two
CC_XORs end in the state of one CC_XOR of the whole, and the responses concatenate. -/
def Obligations.XorChunksCompose : Prop :=
  ∀ (x y : List Byte) (s : State), s.a.PHASE = .IDLE → s.cc.PHASE = .READY →
    x.length % 64 = 0 → s.cc.S[12].toNat + ((x ++ y).length + 63) / 64 ≤ 0xFFFFFFFF →
    ∃ t u v a b, exec (.ccXor x) s = .next t ∧ t.response = some ⟨.ok, a⟩ ∧
      exec (.ccXor y) t = .next u ∧ u.response = some ⟨.ok, b⟩ ∧
      exec (.ccXor (x ++ y)) s = .next v ∧ v.response = some ⟨.ok, a ++ b⟩ ∧ v.cc = u.cc

/-! ## P_* commands -/

/-- P_INIT (R146): the checks in order, and the authenticator constructed from the key, r clamped. -/
def Obligations.PInitRule : Prop :=
  EncodedBy .pInit 0x00000020 0xFFFF00FF (fun k _ _ len => len = k) ∧
  ∀ (key : List Byte) (s : State),
    (s.a.PHASE = .OPEN →
      exec (.pInit key) s = .next { s with response := some ⟨.sequenceError, []⟩ }) ∧
    (s.a.PHASE = .IDLE → key.length ≠ 32 →
      exec (.pInit key) s = .next { s with response := some ⟨.invalidKeyLength, []⟩ }) ∧
    (s.a.PHASE = .IDLE → key.length = 32 →
      exec (.pInit key) s = .next { s with
        p := ⟨0, clamp (le128 key 0), le128 key 16, .ACTIVE⟩
        response := some ⟨.ok, []⟩ })

/-- P_DERIVE (R147): SequenceError; CounterOverflow, which voids the CC context and leaves the P unit;
otherwise the P unit is keyed from the first 32 bytes of the pending block, which is consumed. -/
def Obligations.PDeriveRule : Prop :=
  EncodedBy .pDerive 0x00000021 0xFFFFFFFF (fun _ _ _ len => len = 0) ∧
  ∀ s : State,
    ((s.a.PHASE = .OPEN ∨ s.cc.PHASE = .EMPTY) →
      exec .pDerive s = .next { s with response := some ⟨.sequenceError, []⟩ }) ∧
    (s.a.PHASE = .IDLE → s.cc.PHASE = .READY → s.cc.S[12] = 0xFFFFFFFF →
      exec .pDerive s = .next { s with
        cc := ⟨s.cc.S, s.cc.CTR0, .EMPTY⟩
        response := some ⟨.counterOverflow, []⟩ }) ∧
    (s.a.PHASE = .IDLE → s.cc.PHASE = .READY → s.cc.S[12] ≠ 0xFFFFFFFF →
      exec .pDerive s = .next { s with
        cc := ⟨s.cc.S.set 12 (s.cc.S[12] + 1), s.cc.CTR0, .READY⟩
        p := ⟨0, clamp (le128 (chachaBlock s.cc.S) 0), le128 (chachaBlock s.cc.S) 16, .ACTIVE⟩
        response := some ⟨.ok, []⟩ })

/-- P_UPDATE (R148): SequenceError, or the data absorbed into the accumulator and nothing else
changed; an empty update changes nothing. -/
def Obligations.PUpdateRule : Prop :=
  EncodedBy .pUpdate 0x00000022 0xFFFFFFFF (fun _ _ _ _ => True) ∧
  ∀ (data : List Byte) (s : State),
    ((s.a.PHASE = .OPEN ∨ s.p.PHASE = .EMPTY) →
      exec (.pUpdate data) s = .next { s with response := some ⟨.sequenceError, []⟩ }) ∧
    (s.a.PHASE = .IDLE → s.p.PHASE = .ACTIVE →
      exec (.pUpdate data) s = .next { s with
        p := ⟨BitVec.ofNat 130 (polyAbsorb s.p.ACC.toNat s.p.R data), s.p.R, s.p.S, .ACTIVE⟩
        response := some ⟨.ok, []⟩ } ∧
      polyAbsorb s.p.ACC.toNat s.p.R data < 2 ^ 130 ∧
      exec (.pUpdate []) s = .next { s with response := some ⟨.ok, []⟩ })

/-- P_FINAL (R149): SequenceError, or the tag, after which the authenticator is exhausted: a second
P_FINAL and a P_UPDATE get SequenceError. -/
def Obligations.PFinalRule : Prop :=
  EncodedBy .pFinal 0x00000023 0xFFFFFFFF (fun _ _ _ len => len = 0) ∧
  ∀ s : State,
    ((s.a.PHASE = .OPEN ∨ s.p.PHASE = .EMPTY) →
      exec .pFinal s = .next { s with response := some ⟨.sequenceError, []⟩ }) ∧
    (s.a.PHASE = .IDLE → s.p.PHASE = .ACTIVE →
      ∃ t, exec .pFinal s = .next t ∧
        t = { s with
          p := ⟨s.p.ACC, s.p.R, s.p.S, .EMPTY⟩
          response := some ⟨.ok, polyTag s.p.ACC.toNat s.p.S⟩ } ∧
        exec .pFinal t = .next { t with response := some ⟨.sequenceError, []⟩ } ∧
        ∀ data, exec (.pUpdate data) t = .next { t with response := some ⟨.sequenceError, []⟩ })

/-! ## AEAD_* commands -/

/-- AEAD_INIT (R172): no phase requirement; the construction errors change nothing; otherwise block 0
keys the authenticator, the engine stands at counter 1, the counts are 0 and the session is open and
fresh. -/
def Obligations.AeadInitRule : Prop :=
  EncodedBy .aeadInit 0x00000030 0xFF0000FF (fun k n _ len => len = k + n) ∧
  ∀ (key nonce : List Byte) (s : State),
    (key.length ≠ 32 →
      exec (.aeadInit key nonce) s
        = .next { s with response := some ⟨.invalidKeyLength, []⟩ }) ∧
    (key.length = 32 → nonce.length ≠ 12 →
      exec (.aeadInit key nonce) s
        = .next { s with response := some ⟨.invalidNonceLength, []⟩ }) ∧
    (key.length = 32 → nonce.length = 12 →
      exec (.aeadInit key nonce) s = .next { s with
        cc := ⟨initState key nonce 1, 1, .READY⟩
        p := ⟨0, clamp (le128 (chachaBlock (initState key nonce 0)) 0),
          le128 (chachaBlock (initState key nonce 0)) 16, .ACTIVE⟩
        a := ⟨.OPEN, true, 0, 0⟩
        response := some ⟨.ok, []⟩ })

/-- AEAD_AAD (R173, R170): SequenceError; LengthOverflow, which ends the session and writes nothing;
otherwise, where the sink accepts the writes, the sink gets pad16 of the data, the accumulator absorbs
the same bytes, the count goes up by N, and the session is no longer fresh; where the sink fails one,
SinkError; where it stalls or is silent, the command waits. The writes are those of any division (R57).
An empty command writes and absorbs nothing. -/
def Obligations.AeadAadRule : Prop :=
  EncodedBy .aeadAad 0x00000031 0xFFFFFFFF (fun _ _ _ _ => True) ∧
  ∀ (data : List Byte) (s : State),
    (s.a.PHASE = .IDLE →
      exec (.aeadAad data) s = .next { s with response := some ⟨.sequenceError, []⟩ }) ∧
    (s.a.PHASE = .OPEN → s.a.AADLEN.toNat + data.length > 2 ^ 64 - 1 →
      exec (.aeadAad data) s = .next { s with
        cc := ⟨s.cc.S, s.cc.CTR0, .EMPTY⟩
        p := ⟨s.p.ACC, s.p.R, s.p.S, .EMPTY⟩
        a := ⟨.IDLE, false, s.a.AADLEN, s.a.PTLEN⟩
        response := some ⟨.lengthOverflow, []⟩ }) ∧
    (∀ rest, s.a.PHASE = .OPEN → s.a.AADLEN.toNat + data.length ≤ 2 ^ 64 - 1 →
      s.sinkAccepts (s.divided (alignWrites data)).length rest →
      exec (.aeadAad data) s = .next { s with
        p := ⟨BitVec.ofNat 130 (polyAbsorb s.p.ACC.toNat s.p.R (pad16 data)), s.p.R, s.p.S,
          s.p.PHASE⟩
        a := ⟨.OPEN, false, s.a.AADLEN + BitVec.ofNat 64 data.length, s.a.PTLEN⟩
        busy := none
        response := some ⟨.ok, []⟩
        sink := s.sink ++ pad16 data
        sinkAnswers := rest
        divisions := s.divisions.tail } ∧
      (s.a.AADLEN + BitVec.ofNat 64 data.length).toNat = s.a.AADLEN.toNat + data.length ∧
      polyAbsorb s.p.ACC.toNat s.p.R (pad16 data) < 2 ^ 130) ∧
    (∀ pre w e k rest, s.a.PHASE = .OPEN → s.a.AADLEN.toNat + data.length ≤ 2 ^ 64 - 1 →
      SinkFailsAt (s.divided (alignWrites data)) s pre w e k rest →
      ∃ t, exec (.aeadAad data) s = .next t ∧ EndedBySink s t pre w e k rest) ∧
    (∀ pre post rest, s.a.PHASE = .OPEN → s.a.AADLEN.toNat + data.length ≤ 2 ^ 64 - 1 →
      SinkStallsAt (s.divided (alignWrites data)) s pre post rest →
      ∃ t, exec (.aeadAad data) s = .next t ∧ WaitsOnSink s t pre post .aad rest ∧
        t.cc = s.cc ∧ t.a = ⟨.OPEN, false, s.a.AADLEN + BitVec.ofNat 64 data.length, s.a.PTLEN⟩)

/-- AEAD_UPDATE (R174, R170): SequenceError; CounterOverflow, then LengthOverflow, before any output,
each of which ends the session (the latter in no state a run reaches: UpdateNeverOverflowsLength);
otherwise, where the sink accepts the writes, the response is the ciphertext, the sink gets it padded
to 16 bytes, the accumulator absorbs the padded bytes, and the counter and the count go up; where the
sink fails one, SinkError; where it stalls or is silent, the command waits and the count has not gone
up. The writes are those of any division (R57). -/
def Obligations.AeadUpdateRule : Prop :=
  EncodedBy .aeadUpdate 0x00000032 0xFFFFFFFF (fun _ _ _ _ => True) ∧
  ∀ (data : List Byte) (s : State),
    (s.a.PHASE = .IDLE →
      exec (.aeadUpdate data) s = .next { s with response := some ⟨.sequenceError, []⟩ }) ∧
    (s.a.PHASE = .OPEN → s.cc.S[12].toNat + (data.length + 63) / 64 > 0xFFFFFFFF →
      exec (.aeadUpdate data) s = .next { s with
        cc := ⟨s.cc.S, s.cc.CTR0, .EMPTY⟩
        p := ⟨s.p.ACC, s.p.R, s.p.S, .EMPTY⟩
        a := ⟨.IDLE, false, s.a.AADLEN, s.a.PTLEN⟩
        response := some ⟨.counterOverflow, []⟩ }) ∧
    (s.a.PHASE = .OPEN → s.cc.S[12].toNat + (data.length + 63) / 64 ≤ 0xFFFFFFFF →
      s.a.PTLEN.toNat + data.length > 2 ^ 64 - 1 →
      exec (.aeadUpdate data) s = .next { s with
        cc := ⟨s.cc.S, s.cc.CTR0, .EMPTY⟩
        p := ⟨s.p.ACC, s.p.R, s.p.S, .EMPTY⟩
        a := ⟨.IDLE, false, s.a.AADLEN, s.a.PTLEN⟩
        response := some ⟨.lengthOverflow, []⟩ }) ∧
    (∀ rest, s.a.PHASE = .OPEN → s.cc.S[12].toNat + (data.length + 63) / 64 ≤ 0xFFFFFFFF →
      s.a.PTLEN.toNat + data.length ≤ 2 ^ 64 - 1 →
      s.sinkAccepts (s.divided (alignWrites (keystreamXor s.cc.S data).1)).length rest →
      exec (.aeadUpdate data) s = .next { s with
        cc := ⟨s.cc.S.set 12 (s.cc.S[12] + BitVec.ofNat 32 ((data.length + 63) / 64)), s.cc.CTR0,
          s.cc.PHASE⟩
        p := ⟨BitVec.ofNat 130 (polyAbsorb s.p.ACC.toNat s.p.R
          (pad16 (keystreamXor s.cc.S data).1)), s.p.R, s.p.S, s.p.PHASE⟩
        a := ⟨.OPEN, false, s.a.AADLEN, s.a.PTLEN + BitVec.ofNat 64 data.length⟩
        busy := none
        response := some ⟨.ok, (keystreamXor s.cc.S data).1⟩
        sink := s.sink ++ pad16 (keystreamXor s.cc.S data).1
        sinkAnswers := rest
        divisions := s.divisions.tail } ∧
      (s.a.PTLEN + BitVec.ofNat 64 data.length).toNat = s.a.PTLEN.toNat + data.length ∧
      polyAbsorb s.p.ACC.toNat s.p.R (pad16 (keystreamXor s.cc.S data).1) < 2 ^ 130) ∧
    (∀ pre w e k rest, s.a.PHASE = .OPEN →
      s.cc.S[12].toNat + (data.length + 63) / 64 ≤ 0xFFFFFFFF →
      s.a.PTLEN.toNat + data.length ≤ 2 ^ 64 - 1 →
      SinkFailsAt (s.divided (alignWrites (keystreamXor s.cc.S data).1)) s pre w e k rest →
      ∃ t, exec (.aeadUpdate data) s = .next t ∧ EndedBySink s t pre w e k rest) ∧
    (∀ pre post rest, s.a.PHASE = .OPEN →
      s.cc.S[12].toNat + (data.length + 63) / 64 ≤ 0xFFFFFFFF →
      s.a.PTLEN.toNat + data.length ≤ 2 ^ 64 - 1 →
      SinkStallsAt (s.divided (alignWrites (keystreamXor s.cc.S data).1)) s pre post rest →
      ∃ t, exec (.aeadUpdate data) s = .next t ∧
        WaitsOnSink s t pre post (.update (keystreamXor s.cc.S data).1) rest ∧
        t.cc = ⟨s.cc.S.set 12 (s.cc.S[12] + BitVec.ofNat 32 ((data.length + 63) / 64)), s.cc.CTR0,
          s.cc.PHASE⟩ ∧
        t.a = ⟨.OPEN, false, s.a.AADLEN, s.a.PTLEN⟩)

/-- AEAD_FINAL (R175): SequenceError; otherwise, where the sink accepts the writes, the sink gets the
16-byte footer, the response is the tag over it, and the session is ended; where the sink fails one,
SinkError and no tag; where it stalls or is silent, the command waits in the open session. The footer is
one write or any division of it (R57). -/
def Obligations.AeadFinalRule : Prop :=
  EncodedBy .aeadFinal 0x00000033 0xFFFFFFFF (fun _ _ _ len => len = 0) ∧
  ∀ s : State,
    (s.a.PHASE = .IDLE →
      exec .aeadFinal s = .next { s with response := some ⟨.sequenceError, []⟩ }) ∧
    (∀ rest, s.a.PHASE = .OPEN → s.sinkAccepts (s.divided (alignWrites (footer s.a))).length rest →
      exec .aeadFinal s = .next { s with
        cc := ⟨s.cc.S, s.cc.CTR0, .EMPTY⟩
        p := ⟨BitVec.ofNat 130 (polyAbsorb s.p.ACC.toNat s.p.R
          (encLE 8 s.a.AADLEN.toNat ++ encLE 8 s.a.PTLEN.toNat)), s.p.R, s.p.S, .EMPTY⟩
        a := ⟨.IDLE, false, s.a.AADLEN, s.a.PTLEN⟩
        busy := none
        response := some ⟨.ok, polyTag (polyAbsorb s.p.ACC.toNat s.p.R
          (encLE 8 s.a.AADLEN.toNat ++ encLE 8 s.a.PTLEN.toNat)) s.p.S⟩
        sink := s.sink ++ (encLE 8 s.a.AADLEN.toNat ++ encLE 8 s.a.PTLEN.toNat)
        sinkAnswers := rest
        divisions := s.divisions.tail }) ∧
    (s.divisions = [] →
      s.divided (alignWrites (footer s.a)) = [⟨footer s.a, footer s.a⟩]) ∧
    (∀ pre w e k rest, s.a.PHASE = .OPEN →
      SinkFailsAt (s.divided (alignWrites (footer s.a))) s pre w e k rest →
      ∃ t, exec .aeadFinal s = .next t ∧ EndedBySink s t pre w e k rest) ∧
    (∀ pre post rest, s.a.PHASE = .OPEN →
      SinkStallsAt (s.divided (alignWrites (footer s.a))) s pre post rest →
      ∃ t, exec .aeadFinal s = .next t ∧ WaitsOnSink s t pre post .final rest ∧
        t.cc = s.cc ∧ t.a = s.a)

/-- AEAD_DECRYPT (R176, R214). Its errors in their order: SequenceError changes nothing; TagMismatch,
then FrameError for a buffer too short for its footer or too short for the footer's sizes, then
CounterOverflow, each of which ends the session and writes no byte to the sink. An authentic buffer
that holds its frame: the response is the associated data, the sink gets the raw plaintext, the session
is ended; the sink is asked only where there is plaintext to write. A failing sink: SinkError. A sink
that stalls or is silent: the command waits. The plaintext is one write or any division of it (R57). -/
def Obligations.AeadDecryptRule : Prop :=
  EncodedBy .aeadDecrypt 0x00000034 0xFFFFFFFF (fun _ _ _ len => 16 ≤ len) ∧
  ∀ (buf tag : List Byte) (s : State) (aad pt : Nat),
    aad = leNat (slice buf (buf.length - 16) 8) → pt = leNat (slice buf (buf.length - 8) 8) →
    ((s.a.PHASE = .IDLE ∨ s.a.FRESH = false) →
      exec (.aeadDecrypt buf tag) s = .next { s with response := some ⟨.sequenceError, []⟩ }) ∧
    (s.a.PHASE = .OPEN → s.a.FRESH = true →
      ∀ e : Status,
        ((polyTag (polyAbsorb s.p.ACC.toNat s.p.R buf) s.p.S ≠ tag ∧ e = .tagMismatch) ∨
         (polyTag (polyAbsorb s.p.ACC.toNat s.p.R buf) s.p.S = tag ∧ buf.length < 16 ∧
            e = .frameError) ∨
         (polyTag (polyAbsorb s.p.ACC.toNat s.p.R buf) s.p.S = tag ∧ 16 ≤ buf.length ∧
            buf.length - 16 < pad16len aad + pt ∧ e = .frameError) ∨
         (polyTag (polyAbsorb s.p.ACC.toNat s.p.R buf) s.p.S = tag ∧ 16 ≤ buf.length ∧
            pad16len aad + pt ≤ buf.length - 16 ∧
            s.cc.S[12].toNat + (pt + 63) / 64 > 0xFFFFFFFF ∧ e = .counterOverflow)) →
        exec (.aeadDecrypt buf tag) s = .next { s with
          cc := ⟨s.cc.S, s.cc.CTR0, .EMPTY⟩
          p := ⟨s.p.ACC, s.p.R, s.p.S, .EMPTY⟩
          a := ⟨.IDLE, false, s.a.AADLEN, s.a.PTLEN⟩
          response := some ⟨e, []⟩ }) ∧
    (s.a.PHASE = .OPEN → s.a.FRESH = true →
      polyTag (polyAbsorb s.p.ACC.toNat s.p.R buf) s.p.S = tag → 16 ≤ buf.length →
      pad16len aad + pt ≤ buf.length - 16 → s.cc.S[12].toNat + (pt + 63) / 64 ≤ 0xFFFFFFFF →
      ∀ m ws, m = (keystreamXor s.cc.S (slice buf (pad16len aad) pt)).1 →
        ws = s.divided (if pt = 0 then [] else [⟨m, []⟩]) →
        (∀ rest, s.sinkAccepts ws.length rest →
          ∃ t, exec (.aeadDecrypt buf tag) s = .next t ∧
            t.response = some ⟨.ok, buf.take aad⟩ ∧ t.sink = s.sink ++ m ∧
            t.sinkAnswers = rest ∧ t.busy = none ∧ t.host = s.host ∧
            t.divisions = s.divisions.tail ∧
            t.cc.PHASE = .EMPTY ∧ t.p = ⟨s.p.ACC, s.p.R, s.p.S, .EMPTY⟩ ∧
            t.a = ⟨.IDLE, false, s.a.AADLEN, s.a.PTLEN⟩) ∧
        (∀ pre w e k rest, SinkFailsAt ws s pre w e k rest →
          ∃ t, exec (.aeadDecrypt buf tag) s = .next t ∧ EndedBySink s t pre w e k rest) ∧
        ∀ pre post rest, SinkStallsAt ws s pre post rest →
          ∃ t, exec (.aeadDecrypt buf tag) s = .next t ∧
            WaitsOnSink s t pre post (.decrypt (buf.take aad)) rest ∧ t.p = s.p ∧ t.a = s.a)

/-- AEAD_DECRYPT verifies before it trusts (R176): in whatever state, a step of exec that changes the
sink or answers OK has found the computed tag equal to the given one, all 16 bytes (R179). -/
def Obligations.DecryptVerifiesFirst : Prop :=
  ∀ (buf tag : List Byte) (s t : State), s.response = none →
    exec (.aeadDecrypt buf tag) s = .next t →
    (t.sink ≠ s.sink ∨ t.busy ≠ s.busy ∨ ∃ d, t.response = some ⟨.ok, d⟩) →
    polyTag (polyAbsorb s.p.ACC.toNat s.p.R buf) s.p.S = tag

/-! ## The sink -/

/-- SinkError response data (R212), with what a failed write leaves (R55, R56, R213): a command whose
next writes meet `pre` accepting answers and then a failure ends with SinkError and the descriptor
unchanged, whatever it would have done after that write. -/
def Obligations.SinkFailureEndsSession : Prop :=
  ∀ (ws : List Write) (f : Finish) (s : State) (pre : List Write) (w : Write) (e : SinkErr) (k : Nat)
    (rest : List SinkAnswer),
    SinkFailsAt ws s pre w e k rest → EndedBySink s (drain ws f s) pre w e k rest

/-- A stall only delays (R55, R59). A waiting command goes on in the next step with the writes it has
left. A command that meets a stall, with any start of its writes accepted, waits with the others, gives
no response yet, and goes on as it would have gone on without the stall. -/
def Obligations.StallOnlyDelays : Prop :=
  (∀ (x : Transfer) (s : State), s.busy = some x → s.hostLetsWork →
    step s = .next (drain x.writes x.finish s)) ∧
  ∀ (pre : List Write) (w : Write) (ws : List Write) (f : Finish) (s : State)
    (as : List SinkAnswer), s.hostLetsWork →
    s.sinkAnswers = List.replicate pre.length .accept ++ .stall :: as →
    ∃ t, drain (pre ++ w :: ws) f s = t ∧ t.busy = some ⟨w :: ws, f⟩ ∧ t.response = s.response ∧
      t.sink = s.sink ++ pre.flatMap Write.bytes ∧ t.sinkAnswers = as ∧
      step t = .next (drain (pre ++ w :: ws) f
        { s with sinkAnswers := List.replicate pre.length .accept ++ as })

/-- How output is divided into SinkWrites is not observable (R57). Every division into non-empty writes
in order is a division of the model, and every division of the model is one. Whatever the division, a
sink that accepts gets the same bytes and the command ends in the same state; and a failure of one of
its writes after some bytes is a failure of a write of the pseudocode after the same bytes, with the same
sink, response and visible state. -/
def Obligations.CuttingAWriteIsNotSeen : Prop :=
  ∀ (ws : List Write) (f : Finish) (s : State),
    (∀ w ∈ ws, w.bytes ≠ [] ∧ w.feed.length % 16 = 0) →
    (∀ L : List (List Byte), (∀ c ∈ L, c ≠ []) → L.flatten = ws.flatMap Write.bytes →
      ∃ ns, (divide ns ws).map Write.bytes = L) ∧
    ∀ ns : List Nat,
      ((divide ns ws).flatMap Write.bytes = ws.flatMap Write.bytes ∧
        ∀ w ∈ divide ns ws, w.bytes ≠ []) ∧
      (∀ as : List SinkAnswer,
        drain (divide ns ws) f
            { s with sinkAnswers := List.replicate (divide ns ws).length .accept ++ as }
          = drain ws f { s with sinkAnswers := List.replicate ws.length .accept ++ as }) ∧
      ∀ pre w e k rest, SinkFailsAt (divide ns ws) s pre w e k rest →
        ∃ pre' w' k', SinkFailsAt ws
            { s with sinkAnswers := List.replicate pre'.length .accept ++ .fail e k' :: rest }
            pre' w' e k' rest ∧
          pre'.flatMap Write.bytes ++ w'.bytes.take k'
            = pre.flatMap Write.bytes ++ w.bytes.take k ∧
          AgreeVisible (drain (divide ns ws) f s) (drain ws f
            { s with sinkAnswers := List.replicate pre'.length .accept ++ .fail e k' :: rest })

/-! ## Sessions -/

/-- Chunks of a session (R180, R247): where the first chunk is a multiple of 16 bytes (AEAD_AAD) or of
64 bytes (AEAD_UPDATE), two commands leave the units and the sink as one command of the whole. The sink
has an accepting answer for each byte, so for each write of any division. -/
def Obligations.SessionChunksCompose : Prop :=
  ∀ (x y : List Byte) (s : State) (n : Nat), s.a.PHASE = .OPEN →
    s.sinkAnswers = List.replicate n .accept → (pad16 x).length + (pad16 y).length ≤ n →
    (x.length % 16 = 0 → s.a.AADLEN.toNat + (x ++ y).length ≤ 2 ^ 64 - 1 →
      ∃ t u v, exec (.aeadAad x) s = .next t ∧ exec (.aeadAad y) t = .next u ∧
        exec (.aeadAad (x ++ y)) s = .next v ∧
        u.cc = v.cc ∧ u.p = v.p ∧ u.a = v.a ∧ u.sink = v.sink ∧ u.response = v.response) ∧
    (x.length % 64 = 0 → s.cc.S[12].toNat + ((x ++ y).length + 63) / 64 ≤ 0xFFFFFFFF →
      s.a.PTLEN.toNat + (x ++ y).length ≤ 2 ^ 64 - 1 →
      ∃ t u v a b, exec (.aeadUpdate x) s = .next t ∧ t.response = some ⟨.ok, a⟩ ∧
        exec (.aeadUpdate y) t = .next u ∧ u.response = some ⟨.ok, b⟩ ∧
        exec (.aeadUpdate (x ++ y)) s = .next v ∧ v.response = some ⟨.ok, a ++ b⟩ ∧
        u.cc = v.cc ∧ u.p = v.p ∧ u.a = v.a ∧ u.sink = v.sink)

/-- The stream layout (R177): AEAD_INIT, AEAD_AAD A, AEAD_UPDATE P, AEAD_FINAL, issued by the host one
after the other (AEAD.SEAL, R89) to a sink that accepts, all answered OK, write exactly
`pad16(A) ++ pad16(C) ++ ENC64(|A|) ++ ENC64(|P|)`, whose length is a multiple of 16, in whatever
divisions, and return the tag of that stream under the key of block 0. -/
def Obligations.SealWritesTheStream : Prop :=
  ∀ (key nonce aad pt : List Byte) (s : State) (n : Nat), key.length = 32 → nonce.length = 12 →
    aad.length ≤ 2 ^ 64 - 1 → pt.length ≤ 64 * (2 ^ 32 - 2) → s.busy = none →
    s.sinkAnswers = List.replicate n .accept → (sealStream key nonce aad pt).length ≤ n →
    (sealStream key nonce aad pt).length % 16 = 0 ∧
    ∃ x y, issue (.aeadSeal key nonce aad pt) s = some x ∧ issueFor 4 x = .next y ∧
      y.left = [] ∧
      y.state.response = some ⟨.ok, sealTag key nonce aad pt⟩ ∧
      y.state.sink = s.sink ++ sealStream key nonce aad pt ∧ y.state.busy = none ∧
      y.state.a.PHASE = .IDLE ∧ y.state.cc.PHASE = .EMPTY ∧ y.state.p.PHASE = .EMPTY ∧
      y.state.host = s.host

/-- The round trip (R176, R177, and the source's property of 95_test_vectors.md L1-3): AEAD_INIT and
AEAD_DECRYPT of the stream and tag of a sealed session (AEAD.OPEN, R89) return the associated data and
write the plaintext to the sink, for all lengths, aligned or not, for which the stream and the tag are a
payload (R70). -/
def Obligations.OpenRecoversTheSealed : Prop :=
  ∀ (key nonce aad pt : List Byte) (s : State) (n : Nat),
    key.length = 32 → nonce.length = 12 → pt.length ≤ 64 * (2 ^ 32 - 2) →
    (sealStream key nonce aad pt).length + 16 ≤ 2 ^ 64 - 1 →
    s.busy = none → s.sinkAnswers = List.replicate n .accept → pt.length ≤ n →
    ∃ x y, issue (.aeadOpen key nonce (sealStream key nonce aad pt) (sealTag key nonce aad pt)) s
        = some x ∧ issueFor 2 x = .next y ∧ y.left = [] ∧
      y.state.response = some ⟨.ok, aad⟩ ∧ y.state.sink = s.sink ++ pt ∧ y.state.busy = none ∧
      y.state.a.PHASE = .IDLE ∧ y.state.cc.PHASE = .EMPTY ∧ y.state.p.PHASE = .EMPTY ∧
      y.state.host = s.host

/-- Zero lengths (R178): with no associated data and no plaintext the stream is the footer alone,
zeros(16), and the tag is `PolyTag((2^128 * r) mod p, s)`. -/
def Obligations.EmptySessionStream : Prop :=
  ∀ key nonce : List Byte,
    sealStream key nonce [] [] = List.replicate 16 0 ∧
    sealTag key nonce [] [] = polyTag
      ((2 ^ 128 * (keySplit (oneTimeKey key nonce)).1.toNat) % (2 ^ 130 - 5))
      (keySplit (oneTimeKey key nonce)).2 ∧
    (∀ pt, sealStream key nonce [] pt
      = pad16 (sealText key nonce pt) ++ encLE 8 0 ++ encLE 8 pt.length) ∧
    (∀ aad, sealStream key nonce aad [] = pad16 aad ++ encLE 8 aad.length ++ encLE 8 0)
end

