-- ==== Sys2Proof/Laws/State.lean ====
section
/-!
SUPPORT. One lemma for each field of State and each update of Machine/Ops.lean and Machine/Port.lean:
what the update leaves in that field. All are true by unfolding, and all are simp lemmas, so that no
proof unfolds a record update.
-/

namespace Sys2Proof.Machine

@[simp] theorem State.setCounter_cc (s : State) (c : Word) :
    (s.setCounter c).cc = { s.cc with S := withCounter s.cc.S c } := rfl
@[simp] theorem State.setCounter_p (s : State) (c : Word) : (s.setCounter c).p = s.p := rfl
@[simp] theorem State.setCounter_a (s : State) (c : Word) : (s.setCounter c).a = s.a := rfl
@[simp] theorem State.setCounter_busy (s : State) (c : Word) : (s.setCounter c).busy = s.busy := rfl
@[simp] theorem State.setCounter_response (s : State) (c : Word) :
    (s.setCounter c).response = s.response := rfl
@[simp] theorem State.setCounter_sink (s : State) (c : Word) : (s.setCounter c).sink = s.sink := rfl
@[simp] theorem State.setCounter_sinkAnswers (s : State) (c : Word) :
    (s.setCounter c).sinkAnswers = s.sinkAnswers := rfl
@[simp] theorem State.setCounter_host (s : State) (c : Word) : (s.setCounter c).host = s.host := rfl
@[simp] theorem State.setCounter_divisions (s : State) (c : Word) :
    (s.setCounter c).divisions = s.divisions := rfl

@[simp] theorem State.loadCipher_cc (s : State) (st : CipherState) (c : Word) :
    (s.loadCipher st c).cc = { S := st, CTR0 := c, PHASE := .READY } := rfl
@[simp] theorem State.loadCipher_p (s : State) (st : CipherState) (c : Word) :
    (s.loadCipher st c).p = s.p := rfl
@[simp] theorem State.loadCipher_a (s : State) (st : CipherState) (c : Word) :
    (s.loadCipher st c).a = s.a := rfl
@[simp] theorem State.loadCipher_busy (s : State) (st : CipherState) (c : Word) :
    (s.loadCipher st c).busy = s.busy := rfl
@[simp] theorem State.loadCipher_response (s : State) (st : CipherState) (c : Word) :
    (s.loadCipher st c).response = s.response := rfl
@[simp] theorem State.loadCipher_sink (s : State) (st : CipherState) (c : Word) :
    (s.loadCipher st c).sink = s.sink := rfl
@[simp] theorem State.loadCipher_sinkAnswers (s : State) (st : CipherState) (c : Word) :
    (s.loadCipher st c).sinkAnswers = s.sinkAnswers := rfl
@[simp] theorem State.loadCipher_host (s : State) (st : CipherState) (c : Word) :
    (s.loadCipher st c).host = s.host := rfl
@[simp] theorem State.loadCipher_divisions (s : State) (st : CipherState) (c : Word) :
    (s.loadCipher st c).divisions = s.divisions := rfl

@[simp] theorem State.voidCipher_cc (s : State) :
    (s.voidCipher).cc = { s.cc with PHASE := .EMPTY } := rfl
@[simp] theorem State.voidCipher_p (s : State) : (s.voidCipher).p = s.p := rfl
@[simp] theorem State.voidCipher_a (s : State) : (s.voidCipher).a = s.a := rfl
@[simp] theorem State.voidCipher_busy (s : State) : (s.voidCipher).busy = s.busy := rfl
@[simp] theorem State.voidCipher_response (s : State) : (s.voidCipher).response = s.response := rfl
@[simp] theorem State.voidCipher_sink (s : State) : (s.voidCipher).sink = s.sink := rfl
@[simp] theorem State.voidCipher_sinkAnswers (s : State) :
    (s.voidCipher).sinkAnswers = s.sinkAnswers := rfl
@[simp] theorem State.voidCipher_host (s : State) : (s.voidCipher).host = s.host := rfl
@[simp] theorem State.voidCipher_divisions (s : State) :
    (s.voidCipher).divisions = s.divisions := rfl

@[simp] theorem State.loadAuth_cc (s : State) (key : List Byte) : (s.loadAuth key).cc = s.cc := rfl
@[simp] theorem State.loadAuth_p (s : State) (key : List Byte) :
    (s.loadAuth key).p
      = { ACC := 0, R := (keySplit key).1, S := (keySplit key).2, PHASE := .ACTIVE } := rfl
@[simp] theorem State.loadAuth_a (s : State) (key : List Byte) : (s.loadAuth key).a = s.a := rfl
@[simp] theorem State.loadAuth_busy (s : State) (key : List Byte) :
    (s.loadAuth key).busy = s.busy := rfl
@[simp] theorem State.loadAuth_response (s : State) (key : List Byte) :
    (s.loadAuth key).response = s.response := rfl
@[simp] theorem State.loadAuth_sink (s : State) (key : List Byte) :
    (s.loadAuth key).sink = s.sink := rfl
@[simp] theorem State.loadAuth_sinkAnswers (s : State) (key : List Byte) :
    (s.loadAuth key).sinkAnswers = s.sinkAnswers := rfl
@[simp] theorem State.loadAuth_host (s : State) (key : List Byte) :
    (s.loadAuth key).host = s.host := rfl
@[simp] theorem State.loadAuth_divisions (s : State) (key : List Byte) :
    (s.loadAuth key).divisions = s.divisions := rfl

@[simp] theorem State.absorb_cc (s : State) (d : List Byte) : (s.absorb d).cc = s.cc := rfl
@[simp] theorem State.absorb_p (s : State) (d : List Byte) :
    (s.absorb d).p = { s.p with ACC := BitVec.ofNat 130 (polyAbsorb s.p.ACC.toNat s.p.R d) } := rfl
@[simp] theorem State.absorb_a (s : State) (d : List Byte) : (s.absorb d).a = s.a := rfl
@[simp] theorem State.absorb_busy (s : State) (d : List Byte) : (s.absorb d).busy = s.busy := rfl
@[simp] theorem State.absorb_response (s : State) (d : List Byte) :
    (s.absorb d).response = s.response := rfl
@[simp] theorem State.absorb_sink (s : State) (d : List Byte) : (s.absorb d).sink = s.sink := rfl
@[simp] theorem State.absorb_sinkAnswers (s : State) (d : List Byte) :
    (s.absorb d).sinkAnswers = s.sinkAnswers := rfl
@[simp] theorem State.absorb_host (s : State) (d : List Byte) : (s.absorb d).host = s.host := rfl
@[simp] theorem State.absorb_divisions (s : State) (d : List Byte) :
    (s.absorb d).divisions = s.divisions := rfl

@[simp] theorem State.exhaustAuth_cc (s : State) : (s.exhaustAuth).cc = s.cc := rfl
@[simp] theorem State.exhaustAuth_p (s : State) :
    (s.exhaustAuth).p = { s.p with PHASE := .EMPTY } := rfl
@[simp] theorem State.exhaustAuth_a (s : State) : (s.exhaustAuth).a = s.a := rfl
@[simp] theorem State.exhaustAuth_busy (s : State) : (s.exhaustAuth).busy = s.busy := rfl
@[simp] theorem State.exhaustAuth_response (s : State) :
    (s.exhaustAuth).response = s.response := rfl
@[simp] theorem State.exhaustAuth_sink (s : State) : (s.exhaustAuth).sink = s.sink := rfl
@[simp] theorem State.exhaustAuth_sinkAnswers (s : State) :
    (s.exhaustAuth).sinkAnswers = s.sinkAnswers := rfl
@[simp] theorem State.exhaustAuth_host (s : State) : (s.exhaustAuth).host = s.host := rfl
@[simp] theorem State.exhaustAuth_divisions (s : State) :
    (s.exhaustAuth).divisions = s.divisions := rfl

@[simp] theorem State.openSession_cc (s : State) : (s.openSession).cc = s.cc := rfl
@[simp] theorem State.openSession_p (s : State) : (s.openSession).p = s.p := rfl
@[simp] theorem State.openSession_a (s : State) :
    (s.openSession).a = { PHASE := .OPEN, FRESH := true, AADLEN := 0, PTLEN := 0 } := rfl
@[simp] theorem State.openSession_busy (s : State) : (s.openSession).busy = s.busy := rfl
@[simp] theorem State.openSession_response (s : State) :
    (s.openSession).response = s.response := rfl
@[simp] theorem State.openSession_sink (s : State) : (s.openSession).sink = s.sink := rfl
@[simp] theorem State.openSession_sinkAnswers (s : State) :
    (s.openSession).sinkAnswers = s.sinkAnswers := rfl
@[simp] theorem State.openSession_host (s : State) : (s.openSession).host = s.host := rfl
@[simp] theorem State.openSession_divisions (s : State) :
    (s.openSession).divisions = s.divisions := rfl

@[simp] theorem State.clearFresh_cc (s : State) : (s.clearFresh).cc = s.cc := rfl
@[simp] theorem State.clearFresh_p (s : State) : (s.clearFresh).p = s.p := rfl
@[simp] theorem State.clearFresh_a (s : State) :
    (s.clearFresh).a = { s.a with FRESH := false } := rfl
@[simp] theorem State.clearFresh_busy (s : State) : (s.clearFresh).busy = s.busy := rfl
@[simp] theorem State.clearFresh_response (s : State) : (s.clearFresh).response = s.response := rfl
@[simp] theorem State.clearFresh_sink (s : State) : (s.clearFresh).sink = s.sink := rfl
@[simp] theorem State.clearFresh_sinkAnswers (s : State) :
    (s.clearFresh).sinkAnswers = s.sinkAnswers := rfl
@[simp] theorem State.clearFresh_host (s : State) : (s.clearFresh).host = s.host := rfl
@[simp] theorem State.clearFresh_divisions (s : State) :
    (s.clearFresh).divisions = s.divisions := rfl

@[simp] theorem State.countAad_cc (s : State) (n : Nat) : (s.countAad n).cc = s.cc := rfl
@[simp] theorem State.countAad_p (s : State) (n : Nat) : (s.countAad n).p = s.p := rfl
@[simp] theorem State.countAad_a (s : State) (n : Nat) :
    (s.countAad n).a = { s.a with AADLEN := s.a.AADLEN + BitVec.ofNat 64 n } := rfl
@[simp] theorem State.countAad_busy (s : State) (n : Nat) : (s.countAad n).busy = s.busy := rfl
@[simp] theorem State.countAad_response (s : State) (n : Nat) :
    (s.countAad n).response = s.response := rfl
@[simp] theorem State.countAad_sink (s : State) (n : Nat) : (s.countAad n).sink = s.sink := rfl
@[simp] theorem State.countAad_sinkAnswers (s : State) (n : Nat) :
    (s.countAad n).sinkAnswers = s.sinkAnswers := rfl
@[simp] theorem State.countAad_host (s : State) (n : Nat) : (s.countAad n).host = s.host := rfl
@[simp] theorem State.countAad_divisions (s : State) (n : Nat) :
    (s.countAad n).divisions = s.divisions := rfl

@[simp] theorem State.countPt_cc (s : State) (n : Nat) : (s.countPt n).cc = s.cc := rfl
@[simp] theorem State.countPt_p (s : State) (n : Nat) : (s.countPt n).p = s.p := rfl
@[simp] theorem State.countPt_a (s : State) (n : Nat) :
    (s.countPt n).a = { s.a with PTLEN := s.a.PTLEN + BitVec.ofNat 64 n } := rfl
@[simp] theorem State.countPt_busy (s : State) (n : Nat) : (s.countPt n).busy = s.busy := rfl
@[simp] theorem State.countPt_response (s : State) (n : Nat) :
    (s.countPt n).response = s.response := rfl
@[simp] theorem State.countPt_sink (s : State) (n : Nat) : (s.countPt n).sink = s.sink := rfl
@[simp] theorem State.countPt_sinkAnswers (s : State) (n : Nat) :
    (s.countPt n).sinkAnswers = s.sinkAnswers := rfl
@[simp] theorem State.countPt_host (s : State) (n : Nat) : (s.countPt n).host = s.host := rfl
@[simp] theorem State.countPt_divisions (s : State) (n : Nat) :
    (s.countPt n).divisions = s.divisions := rfl

@[simp] theorem State.endSession_cc (s : State) :
    (s.endSession).cc = { s.cc with PHASE := .EMPTY } := rfl
@[simp] theorem State.endSession_p (s : State) :
    (s.endSession).p = { s.p with PHASE := .EMPTY } := rfl
@[simp] theorem State.endSession_a (s : State) :
    (s.endSession).a = { s.a with PHASE := .IDLE, FRESH := false } := rfl
@[simp] theorem State.endSession_busy (s : State) : (s.endSession).busy = s.busy := rfl
@[simp] theorem State.endSession_response (s : State) : (s.endSession).response = s.response := rfl
@[simp] theorem State.endSession_sink (s : State) : (s.endSession).sink = s.sink := rfl
@[simp] theorem State.endSession_sinkAnswers (s : State) :
    (s.endSession).sinkAnswers = s.sinkAnswers := rfl
@[simp] theorem State.endSession_host (s : State) : (s.endSession).host = s.host := rfl
@[simp] theorem State.endSession_divisions (s : State) :
    (s.endSession).divisions = s.divisions := rfl

@[simp] theorem State.respond_cc (s : State) (st : Status) (d : List Byte) :
    (s.respond st d).cc = s.cc := rfl
@[simp] theorem State.respond_p (s : State) (st : Status) (d : List Byte) :
    (s.respond st d).p = s.p := rfl
@[simp] theorem State.respond_a (s : State) (st : Status) (d : List Byte) :
    (s.respond st d).a = s.a := rfl
@[simp] theorem State.respond_busy (s : State) (st : Status) (d : List Byte) :
    (s.respond st d).busy = s.busy := rfl
@[simp] theorem State.respond_response (s : State) (st : Status) (d : List Byte) :
    (s.respond st d).response = some { status := st, rdata := d } := rfl
@[simp] theorem State.respond_sink (s : State) (st : Status) (d : List Byte) :
    (s.respond st d).sink = s.sink := rfl
@[simp] theorem State.respond_sinkAnswers (s : State) (st : Status) (d : List Byte) :
    (s.respond st d).sinkAnswers = s.sinkAnswers := rfl
@[simp] theorem State.respond_host (s : State) (st : Status) (d : List Byte) :
    (s.respond st d).host = s.host := rfl
@[simp] theorem State.respond_divisions (s : State) (st : Status) (d : List Byte) :
    (s.respond st d).divisions = s.divisions := rfl

@[simp] theorem State.appendSink_cc (s : State) (b : List Byte) : (s.appendSink b).cc = s.cc := rfl
@[simp] theorem State.appendSink_p (s : State) (b : List Byte) : (s.appendSink b).p = s.p := rfl
@[simp] theorem State.appendSink_a (s : State) (b : List Byte) : (s.appendSink b).a = s.a := rfl
@[simp] theorem State.appendSink_busy (s : State) (b : List Byte) :
    (s.appendSink b).busy = s.busy := rfl
@[simp] theorem State.appendSink_response (s : State) (b : List Byte) :
    (s.appendSink b).response = s.response := rfl
@[simp] theorem State.appendSink_sink (s : State) (b : List Byte) :
    (s.appendSink b).sink = s.sink ++ b := rfl
@[simp] theorem State.appendSink_sinkAnswers (s : State) (b : List Byte) :
    (s.appendSink b).sinkAnswers = s.sinkAnswers := rfl
@[simp] theorem State.appendSink_host (s : State) (b : List Byte) :
    (s.appendSink b).host = s.host := rfl
@[simp] theorem State.appendSink_divisions (s : State) (b : List Byte) :
    (s.appendSink b).divisions = s.divisions := rfl

@[simp] theorem State.waitOn_cc (s : State) (ws : List Write) (f : Finish) :
    (s.waitOn ws f).cc = s.cc := rfl
@[simp] theorem State.waitOn_p (s : State) (ws : List Write) (f : Finish) :
    (s.waitOn ws f).p = s.p := rfl
@[simp] theorem State.waitOn_a (s : State) (ws : List Write) (f : Finish) :
    (s.waitOn ws f).a = s.a := rfl
@[simp] theorem State.waitOn_busy (s : State) (ws : List Write) (f : Finish) :
    (s.waitOn ws f).busy = some { writes := ws, finish := f } := rfl
@[simp] theorem State.waitOn_response (s : State) (ws : List Write) (f : Finish) :
    (s.waitOn ws f).response = s.response := rfl
@[simp] theorem State.waitOn_sink (s : State) (ws : List Write) (f : Finish) :
    (s.waitOn ws f).sink = s.sink := rfl
@[simp] theorem State.waitOn_sinkAnswers (s : State) (ws : List Write) (f : Finish) :
    (s.waitOn ws f).sinkAnswers = s.sinkAnswers := rfl
@[simp] theorem State.waitOn_host (s : State) (ws : List Write) (f : Finish) :
    (s.waitOn ws f).host = s.host := rfl
@[simp] theorem State.waitOn_divisions (s : State) (ws : List Write) (f : Finish) :
    (s.waitOn ws f).divisions = s.divisions := rfl

@[simp] theorem State.notBusy_cc (s : State) : (s.notBusy).cc = s.cc := rfl
@[simp] theorem State.notBusy_p (s : State) : (s.notBusy).p = s.p := rfl
@[simp] theorem State.notBusy_a (s : State) : (s.notBusy).a = s.a := rfl
@[simp] theorem State.notBusy_busy (s : State) : (s.notBusy).busy = none := rfl
@[simp] theorem State.notBusy_response (s : State) : (s.notBusy).response = s.response := rfl
@[simp] theorem State.notBusy_sink (s : State) : (s.notBusy).sink = s.sink := rfl
@[simp] theorem State.notBusy_sinkAnswers (s : State) :
    (s.notBusy).sinkAnswers = s.sinkAnswers := rfl
@[simp] theorem State.notBusy_host (s : State) : (s.notBusy).host = s.host := rfl
@[simp] theorem State.notBusy_divisions (s : State) : (s.notBusy).divisions = s.divisions := rfl

@[simp] theorem State.withAnswers_cc (s : State) (as : List SinkAnswer) :
    (s.withAnswers as).cc = s.cc := rfl
@[simp] theorem State.withAnswers_p (s : State) (as : List SinkAnswer) :
    (s.withAnswers as).p = s.p := rfl
@[simp] theorem State.withAnswers_a (s : State) (as : List SinkAnswer) :
    (s.withAnswers as).a = s.a := rfl
@[simp] theorem State.withAnswers_busy (s : State) (as : List SinkAnswer) :
    (s.withAnswers as).busy = s.busy := rfl
@[simp] theorem State.withAnswers_response (s : State) (as : List SinkAnswer) :
    (s.withAnswers as).response = s.response := rfl
@[simp] theorem State.withAnswers_sink (s : State) (as : List SinkAnswer) :
    (s.withAnswers as).sink = s.sink := rfl
@[simp] theorem State.withAnswers_sinkAnswers (s : State) (as : List SinkAnswer) :
    (s.withAnswers as).sinkAnswers = as := rfl
@[simp] theorem State.withAnswers_host (s : State) (as : List SinkAnswer) :
    (s.withAnswers as).host = s.host := rfl
@[simp] theorem State.withAnswers_divisions (s : State) (as : List SinkAnswer) :
    (s.withAnswers as).divisions = s.divisions := rfl

@[simp] theorem State.dropDivision_cc (s : State) : (s.dropDivision).cc = s.cc := rfl
@[simp] theorem State.dropDivision_p (s : State) : (s.dropDivision).p = s.p := rfl
@[simp] theorem State.dropDivision_a (s : State) : (s.dropDivision).a = s.a := rfl
@[simp] theorem State.dropDivision_busy (s : State) : (s.dropDivision).busy = s.busy := rfl
@[simp] theorem State.dropDivision_response (s : State) : (s.dropDivision).response = s.response := rfl
@[simp] theorem State.dropDivision_sink (s : State) : (s.dropDivision).sink = s.sink := rfl
@[simp] theorem State.dropDivision_sinkAnswers (s : State) :
    (s.dropDivision).sinkAnswers = s.sinkAnswers := rfl
@[simp] theorem State.dropDivision_host (s : State) : (s.dropDivision).host = s.host := rfl
@[simp] theorem State.dropDivision_divisions (s : State) :
    (s.dropDivision).divisions = s.divisions.tail := rfl

@[simp] theorem State.takeEvent_cc (s : State) (es : List HostEvent) :
    (s.takeEvent es).cc = s.cc := rfl
@[simp] theorem State.takeEvent_p (s : State) (es : List HostEvent) :
    (s.takeEvent es).p = s.p := rfl
@[simp] theorem State.takeEvent_a (s : State) (es : List HostEvent) :
    (s.takeEvent es).a = s.a := rfl
@[simp] theorem State.takeEvent_busy (s : State) (es : List HostEvent) :
    (s.takeEvent es).busy = s.busy := rfl
@[simp] theorem State.takeEvent_response (s : State) (es : List HostEvent) :
    (s.takeEvent es).response = none := rfl
@[simp] theorem State.takeEvent_sink (s : State) (es : List HostEvent) :
    (s.takeEvent es).sink = s.sink := rfl
@[simp] theorem State.takeEvent_sinkAnswers (s : State) (es : List HostEvent) :
    (s.takeEvent es).sinkAnswers = s.sinkAnswers := rfl
@[simp] theorem State.takeEvent_host (s : State) (es : List HostEvent) :
    (s.takeEvent es).host = es := rfl
@[simp] theorem State.takeEvent_divisions (s : State) (es : List HostEvent) :
    (s.takeEvent es).divisions = s.divisions := rfl

@[simp] theorem State.present_cc (s : State) (t : Transaction) : (s.present t).cc = s.cc := rfl
@[simp] theorem State.present_p (s : State) (t : Transaction) : (s.present t).p = s.p := rfl
@[simp] theorem State.present_a (s : State) (t : Transaction) : (s.present t).a = s.a := rfl
@[simp] theorem State.present_busy (s : State) (t : Transaction) : (s.present t).busy = s.busy := rfl
@[simp] theorem State.present_response (s : State) (t : Transaction) :
    (s.present t).response = s.response := rfl
@[simp] theorem State.present_sink (s : State) (t : Transaction) :
    (s.present t).sink = s.sink := rfl
@[simp] theorem State.present_sinkAnswers (s : State) (t : Transaction) :
    (s.present t).sinkAnswers = s.sinkAnswers := rfl
@[simp] theorem State.present_host (s : State) (t : Transaction) :
    (s.present t).host = .command t :: s.host := rfl
@[simp] theorem State.present_divisions (s : State) (t : Transaction) :
    (s.present t).divisions = s.divisions := rfl

end Sys2Proof.Machine
end

