-- ==== Sys2Proof/Laws/Port.lean ====
section
/-!
SUPPORT. Everything a presented transaction and one step can do (Machine/Port.lean), said once: a
claim about every step goes through these cases and unfolds nothing.
-/

namespace Sys2Proof.Machine

open Host

/-- What presenting a transaction does: it faults, it is illegal, or its command is executed. -/
theorem runCommand_cases (t : Transaction) (s : State) :
    (t.wf = false ∧ runCommand t s = .fault .payloadTooLong) ∨
    (t.wf = true ∧ ∃ e, decode t = .error e ∧
      runCommand t s = raise .illegalCommand .nothing s) ∨
    (t.wf = true ∧ ∃ i, decode t = .ok i ∧ runCommand t s = exec i s) := by
  unfold runCommand
  cases t.wf with
  | false => exact .inl ⟨rfl, rfl⟩
  | true =>
    cases h : decode t with
    | error e => exact .inr (.inl ⟨rfl, e, rfl, rfl⟩)
    | ok i => exact .inr (.inr ⟨rfl, i, rfl, rfl⟩)

/-- What a command cut by RST does: what the command does while the sink is silent, then RST. -/
theorem runCut_next (t : Transaction) (k : Nat) (s u : State) (h : runCut t k s = .next u) :
    ∃ v, runCommand t (s.withAnswers []) = .next v ∧ u = (v.rst k).withAnswers s.sinkAnswers := by
  unfold runCut at h
  split at h
  · rename_i v hv
    injection h with h
    exact ⟨v, hv, h.symm⟩
  · cases h
  · cases h

/-- What one step does when it goes on. -/
theorem step_cases (s u : State) (h : step s = .next u) :
    (s.busy = none ∧ s.host = [] ∧ u = s) ∨
    (s.busy = none ∧ ∃ t rest, (s.host = .command t :: rest ∨ s.host = .overlapping t :: rest) ∧
      runCommand t (s.takeEvent rest) = .next u) ∨
    (s.busy = none ∧ ∃ t k rest, s.host = .commandCut t k :: rest ∧
      runCut t k (s.takeEvent rest) = .next u) ∨
    (∃ k rest, s.host = .rst k :: rest ∧ u = (s.takeEvent rest).rst k) ∨
    (∃ x, s.busy = some x ∧ u = drain x.writes x.finish s) := by
  unfold step portStep at h
  split at h
  · rename_i hb
    unfold idleStep at h
    split at h
    · rename_i hh; injection h with h; exact .inl ⟨hb, hh, h.symm⟩
    · rename_i t rest hh; exact .inr (.inl ⟨hb, t, rest, .inl hh, h⟩)
    · rename_i t rest hh; exact .inr (.inl ⟨hb, t, rest, .inr hh, h⟩)
    · rename_i k rest hh; injection h with h; exact .inr (.inr (.inr (.inl ⟨k, rest, hh, h.symm⟩)))
    · rename_i t k rest hh; exact .inr (.inr (.inl ⟨hb, t, k, rest, hh, h⟩))
  · rename_i x hx
    unfold busyStep at h
    split at h
    · rename_i k rest hh; injection h with h; exact .inr (.inr (.inr (.inl ⟨k, rest, hh, h.symm⟩)))
    · cases h
    · injection h with h; exact .inr (.inr (.inr (.inr ⟨x, hx, h.symm⟩)))

end Sys2Proof.Machine
end

