-- ==== Sys2Proof/Laws/Assembler.lean ====
section
/-!
SUPPORT. What a host that issues an expansion does (Machine/Assembler.lean), said once: everything one
of its steps can do, and that it issues nothing after a command that did not end with OK (R89).
-/

namespace Sys2Proof.Machine

open Host

@[simp] theorem Issue.observe_state (x : Issue) (s : State) : (x.observe s).state = s := by
  unfold Issue.observe; split <;> rfl

@[simp] theorem Issue.observe_started (x : Issue) (s : State) :
    (x.observe s).started = x.started := by
  unfold Issue.observe; split <;> rfl

/-- A command of the expansion that ended otherwise than with OK is the last one issued. -/
theorem Issue.observe_stopped (x : Issue) (s : State) (hx : x.started = true) (hs : s.busy = none)
    (ha : s.answeredOk = false) : (x.observe s).left = [] := by
  simp [Issue.observe, hx, hs, ha]

/-- While the block works, and after OK, what is left to issue stays. -/
theorem Issue.observe_going (x : Issue) (s : State) (h : s.busy ≠ none ∨ s.answeredOk = true) :
    (x.observe s).left = x.left := by
  unfold Issue.observe
  split
  · rename_i hc
    rcases h with h | h
    · exact absurd hc.2.1 h
    · simp [h] at hc
  · rfl

/-- Everything a step of an issuing host does when it goes on: nothing is left to issue and nothing
happens; the block is busy and goes on; or the next transaction is issued on a block that is not
busy. -/
theorem issueStep_cases (x y : Issue) (h : issueStep x = .next y) :
    (x.state.busy = none ∧ x.left = [] ∧ y = x) ∨
    (x.state.busy ≠ none ∧ ∃ s, step x.state = .next s ∧ y = x.observe s) ∨
    (x.state.busy = none ∧ ∃ t ts s, x.left = t :: ts ∧ step (x.state.present t) = .next s ∧
      y = Issue.observe { x with left := ts, started := true } s) := by
  have after : ∀ (z : Issue) o, z.after o = .next y → ∃ s, o = .next s ∧ y = z.observe s := by
    intro z o ho
    cases o with
    | next s => injection ho with ho; exact ⟨s, rfl, ho.symm⟩
    | fault r => cases ho
    | refused r => cases ho
  unfold issueStep at h
  split at h
  · rename_i hb
    exact .inr (.inl ⟨by simp [hb], after _ _ h⟩)
  · rename_i hb hl
    injection h with h
    exact .inl ⟨hb, hl, h.symm⟩
  · rename_i t ts hb hl
    obtain ⟨s, hs, hy⟩ := after _ _ h
    exact .inr (.inr ⟨hb, t, ts, s, hl, hs, hy⟩)

/-- A host that has nothing left to issue, on a block that is not busy, does nothing more. -/
theorem issueFor_done (n : Nat) (x : Issue) (hb : x.state.busy = none) (hl : x.left = []) :
    issueFor n x = .next x := by
  induction n with
  | zero => rfl
  | succ n ih => simp [issueFor, issueStep, hb, hl, ih]

end Sys2Proof.Machine
end

