-- ==== Sys2Proof/Laws/Operands.lean ====
section
/-!
SUPPORT. Small lemmas of the byte and number functions of Machine/Operands.lean: lengths, the value
of a byte sequence, and how a byte sequence falls into pieces.
-/

namespace Sys2Proof.Machine

@[simp] theorem zeros_length (n : Nat) : (zeros n).length = n := List.length_replicate

@[simp] theorem zeros_zero : zeros 0 = [] := rfl

@[simp] theorem slice_length (b : List Byte) (o n : Nat) :
    (slice b o n).length = min n (b.length - o) := by
  simp [slice]

theorem slice_append_left (x y : List Byte) (n : Nat) (h : x.length = n) :
    slice (x ++ y) 0 n = x := by
  subst h; simp [slice]

theorem slice_append_right (x y : List Byte) (o n : Nat) (h : x.length = o) (h' : y.length = n) :
    slice (x ++ y) o n = y := by
  subst h; subst h'; simp [slice]

theorem slice_append_middle (x y z : List Byte) (o n : Nat) (h : x.length = o) (h' : y.length = n) :
    slice (x ++ y ++ z) o n = y := by
  subst h; subst h'; simp [slice, List.append_assoc]

@[simp] theorem encLE_length (n v : Nat) : (encLE n v).length = n := by
  induction n generalizing v with
  | zero => rfl
  | succ n ih => simp [encLE, ih]

theorem leNat_lt (b : List Byte) : leNat b < 256 ^ b.length := by
  induction b with
  | nil => decide
  | cons x xs ih =>
    have hx := x.isLt
    simp only [leNat, List.length_cons, pow_succ]
    omega

theorem leNat_append (x y : List Byte) : leNat (x ++ y) = leNat x + 256 ^ x.length * leNat y := by
  induction x with
  | nil => simp [leNat]
  | cons b bs ih => simp only [List.cons_append, leNat, ih, List.length_cons, pow_succ]; ring

theorem leNat_zeros (n : Nat) : leNat (zeros n) = 0 := by
  induction n with
  | zero => rfl
  | succ n ih => simp [zeros, List.replicate_succ, leNat] at *; exact ih

theorem encLE_zero (n : Nat) : encLE n 0 = zeros n := by
  induction n with
  | zero => rfl
  | succ n ih => simp [encLE, ih, zeros, List.replicate_succ]

theorem ceilDiv_zero (n : Nat) (h : 0 < n) : ceilDiv 0 n = 0 := by
  simp only [ceilDiv]; exact Nat.div_eq_of_lt (by omega)

theorem ceilDiv_add (m n : Nat) (h : 0 < n) : ceilDiv (n + m) n = ceilDiv m n + 1 := by
  simp only [ceilDiv]
  rw [show n + m + (n - 1) = m + (n - 1) + n by omega, Nat.add_div_right _ h]

theorem ceilDiv_small (m n : Nat) (h : 0 < m) (h' : m ≤ n) : ceilDiv m n = 1 := by
  simp only [ceilDiv]
  rw [show m + (n - 1) = (m - 1) + n by omega, Nat.add_div_right _ (by omega),
    Nat.div_eq_of_lt (by omega)]

theorem pad16len_eq (n : Nat) : pad16len n = 16 * ((n + 15) / 16) := rfl

theorem le_pad16len (n : Nat) : n ≤ pad16len n := by rw [pad16len_eq]; omega

@[simp] theorem pad16_length (x : List Byte) : (pad16 x).length = pad16len x.length := by
  have := le_pad16len x.length
  simp only [pad16, List.length_append, zeros_length]; omega

theorem pad16len_mod (n : Nat) : pad16len n % 16 = 0 := by rw [pad16len_eq]; omega

@[simp] theorem pad16_nil : pad16 [] = [] := by decide

/-- A byte sequence that is a multiple of 16 long gets no padding (R170). -/
theorem pad16_of_aligned (x : List Byte) (h : x.length % 16 = 0) : pad16 x = x := by
  simp only [pad16, pad16len_eq]
  rw [show 16 * ((x.length + 15) / 16) - x.length = 0 by omega]; simp

/-- Padding after an aligned start pads the rest. -/
theorem pad16_append (x y : List Byte) (h : x.length % 16 = 0) :
    pad16 (x ++ y) = x ++ pad16 y := by
  simp only [pad16, pad16len_eq, List.length_append, List.append_assoc]
  congr 3; omega

theorem pieces_length (n k : Nat) (d : List Byte) : (pieces n k d).length = k := by
  induction k generalizing d with
  | zero => rfl
  | succ k ih => simp [pieces, ih]

@[simp] theorem blocksOf_nil (n : Nat) (h : 0 < n) : blocksOf n [] = [] := by
  simp [blocksOf, ceilDiv_zero n h, pieces]

theorem blocksOf_length (n : Nat) (d : List Byte) : (blocksOf n d).length = ceilDiv d.length n :=
  pieces_length _ _ _

/-- A sequence of at most one piece is its own piece. -/
theorem blocksOf_single (n : Nat) (c : List Byte) (h : 0 < c.length) (h' : c.length ≤ n) :
    blocksOf n c = [c] := by
  simp [blocksOf, ceilDiv_small _ _ h h', pieces, List.take_of_length_le h']

/-- A whole piece in front is the first piece. -/
theorem blocksOf_cons (n : Nat) (c d : List Byte) (h : 0 < n) (hc : c.length = n) :
    blocksOf n (c ++ d) = c :: blocksOf n d := by
  subst hc
  simp [blocksOf, ceilDiv_add _ _ h, pieces]

/-- A start that is a multiple of the piece length keeps its pieces. -/
theorem blocksOf_append (n : Nat) (x y : List Byte) (h : 0 < n) (hx : x.length % n = 0) :
    blocksOf n (x ++ y) = blocksOf n x ++ blocksOf n y := by
  obtain ⟨k, hk⟩ := Nat.dvd_of_mod_eq_zero hx
  induction k generalizing x with
  | zero =>
    have : x = [] := List.length_eq_zero_iff.mp (by simpa using hk)
    simp [this, blocksOf_nil n h]
  | succ k ih =>
    have hlen : n ≤ x.length := by rw [hk, Nat.mul_succ]; omega
    have ht : (x.take n).length = n := by simp [hlen]
    have hd : (x.drop n).length = n * k := by rw [List.length_drop, hk, Nat.mul_succ]; omega
    have e : x = x.take n ++ x.drop n := (List.take_append_drop n x).symm
    have ih' := ih (x.drop n) (by rw [hd]; simp) hd
    calc blocksOf n (x ++ y)
        = blocksOf n (x.take n ++ (x.drop n ++ y)) := by
          rw [← List.append_assoc, List.take_append_drop]
      _ = x.take n :: (blocksOf n (x.drop n) ++ blocksOf n y) := by
          rw [blocksOf_cons n _ _ h ht, ih']
      _ = blocksOf n (x.take n ++ x.drop n) ++ blocksOf n y := by
          rw [blocksOf_cons n _ _ h ht]; rfl
      _ = blocksOf n x ++ blocksOf n y := by rw [← e]

end Sys2Proof.Machine
end

