-- ==== Sys2Proof/Laws/ChaCha.lean ====
section
/-!
SUPPORT. Small lemmas of the ChaCha20 functions of Machine/ChaCha.lean: the counter word, and what the
keystream loop does to the state and to the length of the data.
-/

namespace Sys2Proof.Machine

@[simp] theorem counterOf_withCounter (s : CipherState) (c : Word) :
    counterOf (withCounter s c) = c := by
  simp [counterOf, withCounter]

@[simp] theorem withCounter_withCounter (s : CipherState) (c d : Word) :
    withCounter (withCounter s c) d = withCounter s d := by
  simp [withCounter]

@[simp] theorem withCounter_counterOf (s : CipherState) : withCounter s (counterOf s) = s := by
  simp [counterOf, withCounter]

/-- Replacing the counter leaves the other words (R24). -/
theorem withCounter_other (s : CipherState) (c : Word) (j : Fin 16) (h : j ≠ 12) :
    (withCounter s c)[j] = s[j] := by
  have : (12 : Nat) ≠ j.val := fun e => h (Fin.ext e.symm)
  simp [withCounter, this]

@[simp] theorem counterOf_initState (key nonce : List Byte) (c : Word) :
    counterOf (initState key nonce c) = c := rfl

theorem withCounter_initState (key nonce : List Byte) (c d : Word) :
    withCounter (initState key nonce c) d = initState key nonce d := by
  simp [withCounter, initState]

@[simp] theorem chachaBlock_length (s : CipherState) : (chachaBlock s).length = 64 := by
  have h : ∀ l : List Word, (l.flatMap enc32).length = 4 * l.length := by
    intro l
    induction l with
    | nil => rfl
    | cons w ws ih => simp [enc32, ih]; omega
  rw [chachaBlock, h]; simp

theorem xorBytes_length (c k : List Byte) : (xorBytes c k).length = min c.length k.length := by
  simp [xorBytes]

/-- XORing twice with the same bytes gives the data back. -/
theorem xorBytes_xorBytes (c k : List Byte) (h : c.length ≤ k.length) :
    xorBytes (xorBytes c k) k = c := by
  induction c generalizing k with
  | nil => simp [xorBytes]
  | cons b bs ih =>
    cases k with
    | nil => simp at h
    | cons u us =>
      have := ih us (by simpa using h)
      simp only [xorBytes, List.zipWith_cons_cons] at *
      rw [this, BitVec.xor_assoc, BitVec.xor_self, BitVec.xor_zero]

/-- The state after the keystream loop: the counter has gone up by the number of pieces. -/
theorem xorPieces_state (t : CipherState) (cs : List (List Byte)) :
    (xorPieces t cs).2 = withCounter t (counterOf t + BitVec.ofNat 32 cs.length) := by
  induction cs generalizing t with
  | nil => simp [xorPieces]
  | cons c cs ih =>
    simp only [xorPieces, ih, counterOf_withCounter, withCounter_withCounter, List.length_cons]
    congr 1
    rw [Nat.add_comm cs.length 1, BitVec.ofNat_add, BitVec.add_assoc]; rfl

/-- The keystream loop over two lists of pieces. -/
theorem xorPieces_append (t : CipherState) (xs ys : List (List Byte)) :
    (xorPieces t (xs ++ ys)).1 = (xorPieces t xs).1 ++ (xorPieces (xorPieces t xs).2 ys).1 := by
  induction xs generalizing t with
  | nil => simp [xorPieces]
  | cons c cs ih => simp [xorPieces, ih, List.append_assoc]

/-- The counter after KeystreamXor (R105): one up for each block of the data. -/
theorem keystreamXor_counter (s : CipherState) (d : List Byte) :
    (keystreamXor s d).2 = counterOf s + BitVec.ofNat 32 (blocksFor d.length) := by
  simp [keystreamXor, xorPieces_state, blocksOf_length, blocksFor]

theorem blocksFor_eq (n : Nat) : blocksFor n = (n + 63) / 64 := rfl

@[simp] theorem keystreamXor_nil (s : CipherState) : (keystreamXor s []).1 = [] := by
  simp [keystreamXor, blocksOf_nil Config.blockLen (by decide), xorPieces]

/-- An aligned start of the data is XORed with the blocks before the rest's (R105, R112). -/
theorem keystreamXor_append (s : CipherState) (x y : List Byte) (h : x.length % 64 = 0) :
    (keystreamXor s (x ++ y)).1
      = (keystreamXor s x).1 ++ (keystreamXor (withCounter s (keystreamXor s x).2) y).1 := by
  have hb := blocksOf_append Config.blockLen x y (by decide) h
  simp only [keystreamXor, hb, xorPieces_append]
  simp [xorPieces_state]

/-- KeystreamXor of one piece: the data XORed with the start of the block at the counter. -/
theorem keystreamXor_single (s : CipherState) (c : List Byte) (h : c.length ≤ 64) :
    (keystreamXor s c).1 = xorBytes c (chachaBlock s) := by
  rcases Nat.eq_zero_or_pos c.length with h0 | h0
  · have : c = [] := List.length_eq_zero_iff.mp h0
    subst this; simp [xorBytes]
  · simp [keystreamXor, blocksOf_single Config.blockLen c h0 h, xorPieces]

/-- KeystreamXor keeps the length of the data (R105). -/
@[simp] theorem keystreamXor_length (s : CipherState) (d : List Byte) :
    (keystreamXor s d).1.length = d.length := by
  generalize hn : d.length = n
  induction n using Nat.strong_induction_on generalizing s d with
  | _ n ih =>
    by_cases hs : d.length ≤ 64
    · rw [keystreamXor_single s d hs, xorBytes_length, chachaBlock_length]; omega
    · have ht : (d.take 64).length = 64 := by simp; omega
      rw [← List.take_append_drop 64 d, keystreamXor_append s _ _ (by rw [ht]),
        List.length_append, keystreamXor_single s _ (by omega), xorBytes_length,
        ih (d.drop 64).length (by simp; omega) _ _ rfl, chachaBlock_length]
      simp; omega

end Sys2Proof.Machine
end

