-- ==== Sys2Proof/Laws/Decode.lean ====
section
/-!
SUPPORT. Small lemmas of the encoder and the decoder of Decode.lean: the fields of a word that
`wordOf` writes (R71 to R76).
-/

namespace Sys2Proof

/-- The value of a word written from its fields. -/
theorem wordOf_toNat (op : Op) (k n : Nat) (c : Bool) :
    (wordOf op k n c).toNat
      = ((c.toNat * 256 + n % 256) * 256 + k % 256) * 256 + (opCode op).toNat := by
  have h := (opCode op).isLt
  have hc : c.toNat ≤ 1 := by cases c <;> decide
  simp only [wordOf, BitVec.toNat_append, BitVec.toNat_ofNat, BitVec.toNat_ofBool, Nat.zero_mod,
    Nat.zero_shiftLeft, Nat.zero_or]
  have e : ∀ x y : Nat, y < 2 ^ 8 → x <<< 8 ||| y = x * 256 + y := by
    intro x y hy
    rw [← Nat.shiftLeft_add_eq_or_of_lt hy, Nat.shiftLeft_eq]
  rw [e _ _ h, e _ _ (Nat.mod_lt _ (by decide)), e _ _ (Nat.mod_lt _ (by decide))]
  rfl

/-- OPC of a word written from its fields. -/
theorem fieldOPC_wordOf (op : Op) (k n : Nat) (c : Bool) : fieldOPC (wordOf op k n c) = opCode op := by
  apply BitVec.eq_of_toNat_eq
  have h := (opCode op).isLt
  simp only [fieldOPC, BitVec.extractLsb'_toNat, wordOf_toNat, Nat.shiftRight_zero]
  omega

/-- The reserved bits of a word written from its fields (R76). -/
theorem reserved_wordOf (op : Op) (k n : Nat) (c : Bool) :
    (wordOf op k n c).extractLsb' 25 7 = 0 := by
  apply BitVec.eq_of_toNat_eq
  have h := (opCode op).isLt
  have hc : c.toNat ≤ 1 := by cases c <;> decide
  simp only [BitVec.extractLsb'_toNat, wordOf_toNat, Nat.shiftRight_eq_div_pow]
  change _ = 0
  omega

/-- KLEN of a word written from its fields. -/
theorem fieldKLEN_wordOf (op : Op) (k n : Nat) (c : Bool) (hk : k ≤ 255) :
    fieldKLEN (wordOf op k n c) = k := by
  have h := (opCode op).isLt
  simp only [fieldKLEN, BitVec.extractLsb'_toNat, wordOf_toNat, Nat.shiftRight_eq_div_pow]
  omega

/-- NLEN of a word written from its fields. -/
theorem fieldNLEN_wordOf (op : Op) (k n : Nat) (c : Bool) (hn : n ≤ 255) :
    fieldNLEN (wordOf op k n c) = n := by
  have h := (opCode op).isLt
  have hc : c.toNat ≤ 1 := by cases c <;> decide
  simp only [fieldNLEN, BitVec.extractLsb'_toNat, wordOf_toNat, Nat.shiftRight_eq_div_pow]
  omega

/-- CP of a word written from its fields. -/
theorem fieldCP_wordOf (op : Op) (k n : Nat) (c : Bool) : fieldCP (wordOf op k n c) = c := by
  have h := (opCode op).isLt
  unfold fieldCP
  rw [BitVec.getLsbD, wordOf_toNat, Nat.testBit_eq_decide_div_mod_eq]
  cases c
  · simp only [Bool.toNat_false, decide_eq_false_iff_not]; omega
  · simp only [Bool.toNat_true, decide_eq_true_eq]; omega

end Sys2Proof
end

