-- ==== Sys2Proof/Laws/PerInstr.lean ====
section
/-!
SUPPORT. What is said of every instruction as syntax, one lemma for each constructor of Instr: its
word has the opcode of R79, zero reserved bits (R76), the lengths of its key and nonce in the fields of
R73 and R74, and its payload has the length R78 gives.
-/

namespace Sys2Proof.Laws.EncodedOpcode

/-- The operation of an instruction (R79). -/
def opOf : Instr → Op
  | .ccInit _ _ _ => .ccInit
  | .ccBlock => .ccBlock
  | .ccXor _ => .ccXor
  | .ccXorb _ => .ccXorb
  | .ccReset => .ccReset
  | .pInit _ => .pInit
  | .pDerive => .pDerive
  | .pUpdate _ => .pUpdate
  | .pFinal => .pFinal
  | .aeadInit _ _ => .aeadInit
  | .aeadAad _ => .aeadAad
  | .aeadUpdate _ => .aeadUpdate
  | .aeadFinal => .aeadFinal
  | .aeadDecrypt _ _ => .aeadDecrypt

/-- The low byte of the encoded word is the operation's opcode, the reserved bits are 0, and the
payload meets the length condition of the operation. -/
def Statement (i : Instr) : Prop :=
  i.wf = true →
    fieldOPC (encode i).word = opCode (opOf i) ∧ (encode i).word.extractLsb' 25 7 = 0 ∧
      lengthOK (opOf i) (fieldKLEN (encode i).word) (fieldNLEN (encode i).word)
        (fieldCP (encode i).word) (encode i).payload.length = true

theorem ccInit (key nonce : List Byte) (ctr : Option Word) : Statement (.ccInit key nonce ctr) := by
  intro h
  simp only [Instr.wf, fitsLengthField, Bool.and_eq_true, decide_eq_true_eq] at h
  cases ctr <;>
    simp [encode, opOf, fieldOPC_wordOf, reserved_wordOf, lengthOK, fieldKLEN_wordOf _ _ _ _ h.1,
      fieldNLEN_wordOf _ _ _ _ h.2, fieldCP_wordOf, Machine.enc32, Nat.add_assoc]

theorem ccBlock : Statement (.ccBlock) := by
  intro _
  simp [encode, opOf, fieldOPC_wordOf, reserved_wordOf, lengthOK]

theorem ccXor (data : List Byte) : Statement (.ccXor data) := by
  intro _
  simp [encode, opOf, fieldOPC_wordOf, reserved_wordOf, lengthOK]

theorem ccXorb (data : List Byte) : Statement (.ccXorb data) := by
  intro _
  simp [encode, opOf, fieldOPC_wordOf, reserved_wordOf, lengthOK]

theorem ccReset : Statement (.ccReset) := by
  intro _
  simp [encode, opOf, fieldOPC_wordOf, reserved_wordOf, lengthOK]

theorem pInit (key : List Byte) : Statement (.pInit key) := by
  intro h
  simp only [Instr.wf, fitsLengthField, decide_eq_true_eq] at h
  simp [encode, opOf, fieldOPC_wordOf, reserved_wordOf, lengthOK, fieldKLEN_wordOf _ _ _ _ h]

theorem pDerive : Statement (.pDerive) := by
  intro _
  simp [encode, opOf, fieldOPC_wordOf, reserved_wordOf, lengthOK]

theorem pUpdate (data : List Byte) : Statement (.pUpdate data) := by
  intro _
  simp [encode, opOf, fieldOPC_wordOf, reserved_wordOf, lengthOK]

theorem pFinal : Statement (.pFinal) := by
  intro _
  simp [encode, opOf, fieldOPC_wordOf, reserved_wordOf, lengthOK]

theorem aeadInit (key nonce : List Byte) : Statement (.aeadInit key nonce) := by
  intro h
  simp only [Instr.wf, fitsLengthField, Bool.and_eq_true, decide_eq_true_eq] at h
  simp [encode, opOf, fieldOPC_wordOf, reserved_wordOf, lengthOK, fieldKLEN_wordOf _ _ _ _ h.1,
    fieldNLEN_wordOf _ _ _ _ h.2]

theorem aeadAad (data : List Byte) : Statement (.aeadAad data) := by
  intro _
  simp [encode, opOf, fieldOPC_wordOf, reserved_wordOf, lengthOK]

theorem aeadUpdate (data : List Byte) : Statement (.aeadUpdate data) := by
  intro _
  simp [encode, opOf, fieldOPC_wordOf, reserved_wordOf, lengthOK]

theorem aeadFinal : Statement (.aeadFinal) := by
  intro _
  simp [encode, opOf, fieldOPC_wordOf, reserved_wordOf, lengthOK]

theorem aeadDecrypt (buf tag : List Byte) : Statement (.aeadDecrypt buf tag) := by
  intro h
  simp only [Instr.wf, Bool.and_eq_true, decide_eq_true_eq] at h
  simp [encode, opOf, fieldOPC_wordOf, reserved_wordOf, lengthOK, h.1]

end Sys2Proof.Laws.EncodedOpcode
end

