-- ==== Sys2Proof/Laws/Poly.lean ====
section
/-!
SUPPORT. Small lemmas of the Poly1305 functions of Machine/Poly.lean: what absorbing nothing, one
block and an aligned start do, and the bound that makes P.ACC a 130-bit register.
-/

namespace Sys2Proof.Machine

theorem polyP_pos : 0 < polyP := by decide

theorem polyP_lt : polyP < 2 ^ 130 := by decide

@[simp] theorem polyAbsorb_nil (acc : Nat) (r : BitVec 128) : polyAbsorb acc r [] = acc := by
  simp [polyAbsorb, blocksOf_nil Config.polyBlockLen (by decide)]

theorem absorbBlock_lt (r : BitVec 128) (acc : Nat) (c : List Byte) :
    absorbBlock r acc c < polyP := Nat.mod_lt _ polyP_pos

theorem foldl_absorbBlock_lt (r : BitVec 128) (cs : List (List Byte)) (acc : Nat)
    (h : acc < polyP) : cs.foldl (absorbBlock r) acc < polyP := by
  induction cs generalizing acc with
  | nil => exact h
  | cons c cs ih => exact ih _ (absorbBlock_lt r acc c)

/-- An accumulator that fits the register P.ACC stays one, whatever is absorbed. -/
theorem polyAbsorb_fits (acc : Nat) (r : BitVec 128) (d : List Byte) (h : acc < 2 ^ 130) :
    polyAbsorb acc r d < 2 ^ 130 := by
  unfold polyAbsorb
  cases blocksOf Config.polyBlockLen d with
  | nil => exact h
  | cons c cs =>
    exact lt_trans (foldl_absorbBlock_lt r cs _ (absorbBlock_lt r acc c)) polyP_lt

/-- The register P.ACC holds the value of PolyAbsorb (R27). -/
theorem toNat_ofNat_polyAbsorb (acc : BitVec 130) (r : BitVec 128) (d : List Byte) :
    (BitVec.ofNat 130 (polyAbsorb acc.toNat r d)).toNat = polyAbsorb acc.toNat r d := by
  rw [BitVec.toNat_ofNat, Nat.mod_eq_of_lt (polyAbsorb_fits _ r d acc.isLt)]

/-- An aligned start is absorbed before the rest. -/
theorem polyAbsorb_aligned (acc : Nat) (r : BitVec 128) (x y : List Byte)
    (h : x.length % Config.polyBlockLen = 0) :
    polyAbsorb acc r (x ++ y) = polyAbsorb (polyAbsorb acc r x) r y := by
  simp only [polyAbsorb, blocksOf_append Config.polyBlockLen x y (by decide) h, List.foldl_append]

theorem polyTag_length (acc : Nat) (s : BitVec 128) : (polyTag acc s).length = Config.tagLen :=
  encLE_length _ _

end Sys2Proof.Machine
end

