-- ==== Sys2Proof/Laws/Sink.lean ====
section
/-!
SUPPORT. What the sink operations of Machine/Ops.lean do: the writes of AlignWrite, accepted writes,
and, once, everything `drain` can do (`drain_cases`).
-/

namespace Sys2Proof.Machine

/-! ## AlignWrite -/

theorem alignedLen_eq (x : List Byte) : alignedLen x = 16 * (x.length / 16) := rfl

theorem sinkWrite_bytes (b feed : List Byte) :
    (sinkWrite b feed).flatMap Write.bytes = b := by
  unfold sinkWrite; split <;> simp_all

theorem sinkWrite_mem (b feed : List Byte) (w : Write) (h : w ∈ sinkWrite b feed) :
    w = ⟨b, feed⟩ ∧ b ≠ [] := by
  unfold sinkWrite at h; split at h <;> simp_all

/-- The aligned start and the padded remainder are the padded whole. -/
theorem take_append_paddedTail (x : List Byte) :
    x.take (alignedLen x) ++ paddedTail x = pad16 x := by
  unfold paddedTail
  have e := alignedLen_eq x
  split
  · rename_i h
    rw [← List.append_assoc, List.take_append_drop, pad16]
    congr 2
    rw [pad16len_eq, show Config.polyBlockLen = 16 from rfl]; omega
  · rw [List.append_nil, List.take_of_length_le (by omega), pad16_of_aligned]
    omega

/-- What AlignWrite writes, in order, is the padded data (R170, R177). -/
theorem alignWrites_bytes (x : List Byte) : (alignWrites x).flatMap Write.bytes = pad16 x := by
  simp [alignWrites, sinkWrite_bytes, take_append_paddedTail]

theorem paddedTail_length (x : List Byte) : (paddedTail x).length % 16 = 0 := by
  have h := congrArg List.length (take_append_paddedTail x)
  have e := alignedLen_eq x
  have m := pad16len_mod x.length
  rw [List.length_append, pad16_length, List.length_take] at h
  omega

/-- Every write of AlignWrite feeds its own bytes, a whole number of 16-byte blocks (R170). -/
theorem alignWrites_mem (x : List Byte) (w : Write) (h : w ∈ alignWrites x) :
    w.feed = w.bytes ∧ w.bytes.length % 16 = 0 ∧ w.bytes ≠ [] := by
  have e := alignedLen_eq x
  rcases List.mem_append.mp h with h | h
  · obtain ⟨rfl, hb⟩ := sinkWrite_mem _ _ _ h
    exact ⟨rfl, by rw [List.length_take]; omega, hb⟩
  · obtain ⟨rfl, hb⟩ := sinkWrite_mem _ _ _ h
    exact ⟨rfl, paddedTail_length x, hb⟩

/-- What AlignWrite feeds the authenticator, in order, is the padded data (R170). -/
theorem alignWrites_feed (x : List Byte) : (alignWrites x).flatMap Write.feed = pad16 x := by
  rw [← alignWrites_bytes, List.flatMap_congr fun w hw => (alignWrites_mem x w hw).1]

@[simp] theorem alignWrites_nil : alignWrites [] = [] := by decide

/-- A non-empty aligned sequence is one write (R175: "exactly 16 bytes: no padding"). -/
theorem alignWrites_of_aligned (x : List Byte) (h : x.length % 16 = 0) (hx : x ≠ []) :
    alignWrites x = [⟨x, x⟩] := by
  have e : alignedLen x = x.length := by rw [alignedLen_eq]; omega
  simp [alignWrites, paddedTail, e, sinkWrite, hx]

/-! ## The division of output -/

theorem splitWrites_bytes (n : Nat) (ws : List Write) :
    (splitWrites n ws).1.bytes ++ (splitWrites n ws).2.flatMap Write.bytes
      = ws.flatMap Write.bytes := by
  induction ws generalizing n with
  | nil => simp [splitWrites]
  | cons w ws ih =>
    unfold splitWrites
    split
    · simp [ih]
    · simp [← List.append_assoc]

theorem splitWrites_feed (n : Nat) (ws : List Write) :
    (splitWrites n ws).1.feed ++ (splitWrites n ws).2.flatMap Write.feed
      = ws.flatMap Write.feed := by
  induction ws generalizing n with
  | nil => simp [splitWrites]
  | cons w ws ih =>
    unfold splitWrites
    split
    · simp [ih]
    · simp

/-- The first `n` bytes are taken, or all where there are fewer. -/
theorem splitWrites_length (n : Nat) (ws : List Write) :
    (splitWrites n ws).1.bytes.length = min n (ws.flatMap Write.bytes).length := by
  induction ws generalizing n with
  | nil => simp [splitWrites]
  | cons w ws ih =>
    unfold splitWrites
    split
    · simp only [List.length_append, ih, List.flatMap_cons]; omega
    · simp only [List.length_take, List.flatMap_cons, List.length_append]; omega

/-- No write that is left is empty. -/
theorem splitWrites_ne_nil (n : Nat) (ws : List Write) (h : ∀ w ∈ ws, w.bytes ≠ []) :
    ∀ w ∈ (splitWrites n ws).2, w.bytes ≠ [] := by
  induction ws generalizing n with
  | nil => simp [splitWrites]
  | cons w ws ih =>
    unfold splitWrites
    split
    · exact ih _ fun v hv => h v (by simp [hv])
    · rename_i hn
      intro v hv
      rcases List.mem_cons.mp hv with rfl | hv
      · simp only [ne_eq, List.drop_eq_nil_iff]; omega
      · exact h v (by simp [hv])

/-- What is taken and what is left feed whole blocks. -/
theorem splitWrites_aligned (n : Nat) (ws : List Write) (h : ∀ w ∈ ws, w.feed.length % 16 = 0) :
    (splitWrites n ws).1.feed.length % 16 = 0 ∧
      ∀ w ∈ (splitWrites n ws).2, w.feed.length % 16 = 0 := by
  induction ws generalizing n with
  | nil => simp [splitWrites]
  | cons w ws ih =>
    have hw := h w (by simp)
    have hs := ih (n - w.bytes.length) fun v hv => h v (by simp [hv])
    unfold splitWrites
    split
    · exact ⟨by rw [List.length_append]; omega, hs.2⟩
    · refine ⟨rfl, fun v hv => ?_⟩
      rcases List.mem_cons.mp hv with rfl | hv
      · exact hw
      · exact h v (by simp [hv])

@[simp] theorem divide_nil (ns : List Nat) : divide ns [] = [] := by cases ns <;> rfl

/-- The same bytes in the same order, whatever the division (R57). -/
theorem divide_bytes (ns : List Nat) (ws : List Write) :
    (divide ns ws).flatMap Write.bytes = ws.flatMap Write.bytes := by
  induction ns generalizing ws with
  | nil => rfl
  | cons n ns ih =>
    cases ws with
    | nil => rfl
    | cons w ws =>
      simp only [divide, List.flatMap_cons, ih]
      rw [splitWrites_bytes, List.flatMap_cons]

/-- The authenticator is fed the same bytes in the same order, whatever the division (R57). -/
theorem divide_feed (ns : List Nat) (ws : List Write) :
    (divide ns ws).flatMap Write.feed = ws.flatMap Write.feed := by
  induction ns generalizing ws with
  | nil => rfl
  | cons n ns ih =>
    cases ws with
    | nil => rfl
    | cons w ws =>
      simp only [divide, List.flatMap_cons, ih]
      rw [splitWrites_feed, List.flatMap_cons]

/-- No write of a division is empty (R55). -/
theorem divide_ne_nil (ns : List Nat) (ws : List Write) (h : ∀ w ∈ ws, w.bytes ≠ []) :
    ∀ w ∈ divide ns ws, w.bytes ≠ [] := by
  induction ns generalizing ws with
  | nil => exact h
  | cons n ns ih =>
    cases ws with
    | nil => simp
    | cons v vs =>
      have hv := List.length_pos_of_ne_nil (h v (by simp))
      intro w hw
      rcases List.mem_cons.mp hw with rfl | hw
      · refine List.ne_nil_of_length_pos ?_
        rw [splitWrites_length, List.flatMap_cons, List.length_append]
        omega
      · exact ih _ (splitWrites_ne_nil _ _ h) w hw

/-- Each write of a division feeds whole blocks. -/
theorem divide_aligned (ns : List Nat) (ws : List Write) (h : ∀ w ∈ ws, w.feed.length % 16 = 0) :
    ∀ w ∈ divide ns ws, w.feed.length % 16 = 0 := by
  induction ns generalizing ws with
  | nil => exact h
  | cons n ns ih =>
    cases ws with
    | nil => simp
    | cons v vs =>
      have hs := splitWrites_aligned (max n 1) (v :: vs) h
      intro w hw
      rcases List.mem_cons.mp hw with rfl | hw
      · exact hs.1
      · exact ih _ hs.2 w hw

/-- A division keeps the writes non-empty and what they feed aligned. -/
theorem divide_mem (ns : List Nat) (ws : List Write)
    (h : ∀ w ∈ ws, w.bytes ≠ [] ∧ w.feed.length % 16 = 0) :
    ∀ w ∈ divide ns ws, w.bytes ≠ [] ∧ w.feed.length % 16 = 0 := fun w hw =>
  ⟨divide_ne_nil ns ws (fun v hv => (h v hv).1) w hw, divide_aligned ns ws (fun v hv => (h v hv).2) w hw⟩

/-- A division has at most as many writes as bytes. -/
theorem length_le_bytes (ws : List Write) (h : ∀ w ∈ ws, w.bytes ≠ []) :
    ws.length ≤ (ws.flatMap Write.bytes).length := by
  induction ws with
  | nil => simp
  | cons w ws ih =>
    have hw := List.length_pos_of_ne_nil (h w (by simp))
    have := ih fun v hv => h v (by simp [hv])
    simp only [List.length_cons, List.flatMap_cons, List.length_append]
    omega

/-- The writes of AlignWrite in the next division: no empty write, and whole blocks fed. -/
theorem divided_alignWrites_mem (x : List Byte) (s : State) :
    ∀ w ∈ s.divided (alignWrites x), w.bytes ≠ [] ∧ w.feed.length % 16 = 0 :=
  divide_mem _ _ fun w hw =>
    ⟨(alignWrites_mem x w hw).2.2, by
      rw [(alignWrites_mem x w hw).1]; exact (alignWrites_mem x w hw).2.1⟩

/-! ## Accepted writes -/

/-- The state after a list of writes, all accepted. -/
def acceptAll (ws : List Write) (s : State) : State := ws.foldl State.accepted s

@[simp] theorem acceptAll_nil (s : State) : acceptAll [] s = s := rfl

@[simp] theorem acceptAll_cons (w : Write) (ws : List Write) (s : State) :
    acceptAll (w :: ws) s = acceptAll ws (s.accepted w) := rfl

/-- An accepted write changes the sink and the accumulator, nothing else. -/
theorem accepted_eq (s : State) (w : Write) :
    s.accepted w = { s with
      p := ⟨BitVec.ofNat 130 (polyAbsorb s.p.ACC.toNat s.p.R w.feed), s.p.R, s.p.S, s.p.PHASE⟩
      sink := s.sink ++ w.bytes } := rfl

/-- Accepted writes change the sink and the accumulator, nothing else. -/
theorem acceptAll_eq (ws : List Write) (s : State) :
    ∃ acc, acceptAll ws s = { s with
      p := ⟨acc, s.p.R, s.p.S, s.p.PHASE⟩
      sink := s.sink ++ ws.flatMap Write.bytes } := by
  induction ws generalizing s with
  | nil => exact ⟨s.p.ACC, by simp⟩
  | cons w ws ih =>
    obtain ⟨acc, h⟩ := ih (s.accepted w)
    refine ⟨acc, ?_⟩
    rw [acceptAll_cons, h, accepted_eq]
    simp [List.append_assoc]

/-! What a list of accepted writes leaves in each field. -/

@[simp] theorem acceptAll_cc (ws : List Write) (s : State) :
    (acceptAll ws s).cc = s.cc := by
  obtain ⟨acc, h⟩ := acceptAll_eq ws s
  rw [h]

@[simp] theorem acceptAll_a (ws : List Write) (s : State) :
    (acceptAll ws s).a = s.a := by
  obtain ⟨acc, h⟩ := acceptAll_eq ws s
  rw [h]

@[simp] theorem acceptAll_R (ws : List Write) (s : State) :
    (acceptAll ws s).p.R = s.p.R := by
  obtain ⟨acc, h⟩ := acceptAll_eq ws s
  rw [h]

@[simp] theorem acceptAll_S (ws : List Write) (s : State) :
    (acceptAll ws s).p.S = s.p.S := by
  obtain ⟨acc, h⟩ := acceptAll_eq ws s
  rw [h]

@[simp] theorem acceptAll_phase (ws : List Write) (s : State) :
    (acceptAll ws s).p.PHASE = s.p.PHASE := by
  obtain ⟨acc, h⟩ := acceptAll_eq ws s
  rw [h]

@[simp] theorem acceptAll_busy (ws : List Write) (s : State) :
    (acceptAll ws s).busy = s.busy := by
  obtain ⟨acc, h⟩ := acceptAll_eq ws s
  rw [h]

@[simp] theorem acceptAll_response (ws : List Write) (s : State) :
    (acceptAll ws s).response = s.response := by
  obtain ⟨acc, h⟩ := acceptAll_eq ws s
  rw [h]

@[simp] theorem acceptAll_sink (ws : List Write) (s : State) :
    (acceptAll ws s).sink = s.sink ++ ws.flatMap Write.bytes := by
  obtain ⟨acc, h⟩ := acceptAll_eq ws s
  rw [h]

@[simp] theorem acceptAll_sinkAnswers (ws : List Write) (s : State) :
    (acceptAll ws s).sinkAnswers = s.sinkAnswers := by
  obtain ⟨acc, h⟩ := acceptAll_eq ws s
  rw [h]

@[simp] theorem acceptAll_divisions (ws : List Write) (s : State) :
    (acceptAll ws s).divisions = s.divisions := by
  obtain ⟨acc, h⟩ := acceptAll_eq ws s
  rw [h]

@[simp] theorem acceptAll_host (ws : List Write) (s : State) :
    (acceptAll ws s).host = s.host := by
  obtain ⟨acc, h⟩ := acceptAll_eq ws s
  rw [h]

/-- Accepted writes keep the accumulator canonical (R27). -/
theorem acceptAll_canonical (ws : List Write) (s : State) (h : s.p.ACC.toNat < polyP) :
    (acceptAll ws s).p.ACC.toNat < polyP := by
  induction ws generalizing s with
  | nil => exact h
  | cons w ws ih =>
    rw [acceptAll_cons]
    apply ih
    rw [accepted_eq]
    dsimp
    rw [toNat_ofNat_polyAbsorb]
    exact foldl_absorbBlock_lt _ _ _ h

/-- Writes that feed whole blocks feed them as one sequence. -/
theorem acceptAll_aligned (ws : List Write) (s : State) (h : ∀ w ∈ ws, w.feed.length % 16 = 0) :
    acceptAll ws s = { s with
      p := ⟨BitVec.ofNat 130 (polyAbsorb s.p.ACC.toNat s.p.R (ws.flatMap Write.feed)),
        s.p.R, s.p.S, s.p.PHASE⟩
      sink := s.sink ++ ws.flatMap Write.bytes } := by
  induction ws generalizing s with
  | nil => simp
  | cons w ws ih =>
    rw [acceptAll_cons, ih _ (fun v hv => h v (by simp [hv])), accepted_eq]
    simp only [toNat_ofNat_polyAbsorb, List.flatMap_cons, List.append_assoc]
    rw [polyAbsorb_aligned _ _ _ _ (h w (by simp))]

/-- The accepted writes of AlignWrite, in any division: the padded data is in the sink and absorbed
(R170, R57). -/
theorem acceptAll_alignWrites (ns : List Nat) (x : List Byte) (s : State) :
    acceptAll (divide ns (alignWrites x)) s = { s with
      p := ⟨BitVec.ofNat 130 (polyAbsorb s.p.ACC.toNat s.p.R (pad16 x)), s.p.R, s.p.S, s.p.PHASE⟩
      sink := s.sink ++ pad16 x } := by
  rw [acceptAll_aligned, divide_bytes, divide_feed, alignWrites_bytes, alignWrites_feed]
  refine fun w hw => (divide_mem ns (alignWrites x) (fun v hv => ?_) w hw).2
  have hm := alignWrites_mem x v hv
  exact ⟨hm.2.2, hm.1 ▸ hm.2.1⟩

/-! ## drain -/

@[simp] theorem drain_nil (f : Finish) (s : State) : drain [] f s = s.notBusy.finishWith f := rfl

theorem drain_silent (w : Write) (ws : List Write) (f : Finish) (s : State)
    (h : s.sinkAnswers = []) : drain (w :: ws) f s = s.waitOn (w :: ws) f := by
  simp [drain, h]

theorem drain_stall (w : Write) (ws : List Write) (f : Finish) (s : State) (as : List SinkAnswer)
    (h : s.sinkAnswers = .stall :: as) :
    drain (w :: ws) f s = (s.withAnswers as).waitOn (w :: ws) f := by
  simp [drain, h]

theorem drain_accept (w : Write) (ws : List Write) (f : Finish) (s : State) (as : List SinkAnswer)
    (h : s.sinkAnswers = .accept :: as) :
    drain (w :: ws) f s = drain ws f ((s.withAnswers as).accepted w) := by
  simp [drain, h]

theorem drain_fail (w : Write) (ws : List Write) (f : Finish) (s : State) (e : SinkErr) (k : Nat)
    (as : List SinkAnswer) (h : s.sinkAnswers = .fail e k :: as) :
    drain (w :: ws) f s = ((s.withAnswers as).notBusy).sinkFailed w e k := by
  simp [drain, h]

/-- Accepted answers take the writes off the front, one by one. -/
theorem drain_accepts (pre ws : List Write) (f : Finish) (s : State) (as : List SinkAnswer)
    (h : s.sinkAnswers = List.replicate pre.length .accept ++ as) :
    drain (pre ++ ws) f s = drain ws f (acceptAll pre (s.withAnswers as)) := by
  induction pre generalizing s with
  | nil =>
    simp only [List.length_nil, List.replicate_zero, List.nil_append] at h
    simp [← h, State.withAnswers]
  | cons w pre ih =>
    rw [List.cons_append, drain_accept w (pre ++ ws) f s (List.replicate pre.length .accept ++ as)
      (by simpa [List.replicate_succ] using h), ih]
    · simp [accepted_eq, State.withAnswers]
    · simp [accepted_eq]

/-- A sink that accepts every write: the command ends (R173 to R176). -/
theorem drain_all_accepted (ws : List Write) (f : Finish) (s : State) (as : List SinkAnswer)
    (h : s.sinkAnswers = List.replicate ws.length .accept ++ as) :
    drain ws f s = ((acceptAll ws (s.withAnswers as)).notBusy).finishWith f := by
  simpa using drain_accepts ws [] f s as h

/-- Everything `drain` can do: all writes are accepted and the command ends; or it waits on a write;
or a write fails. -/
theorem drain_cases (ws : List Write) (f : Finish) (s : State) :
    (∃ as, s.sinkAnswers = List.replicate ws.length .accept ++ as ∧
      drain ws f s = ((acceptAll ws (s.withAnswers as)).notBusy).finishWith f) ∨
    (∃ pre w post as, ws = pre ++ w :: post ∧
      (s.sinkAnswers = List.replicate pre.length .accept ∧ as = [] ∨
        s.sinkAnswers = List.replicate pre.length .accept ++ .stall :: as) ∧
      drain ws f s = (acceptAll pre (s.withAnswers as)).waitOn (w :: post) f) ∨
    (∃ pre w post e k as, ws = pre ++ w :: post ∧
      s.sinkAnswers = List.replicate pre.length .accept ++ .fail e k :: as ∧
      drain ws f s = ((acceptAll pre (s.withAnswers as)).notBusy).sinkFailed w e k) := by
  induction ws generalizing s with
  | nil => exact .inl ⟨s.sinkAnswers, by simp, by simp [State.withAnswers]⟩
  | cons w ws ih =>
    match h : s.sinkAnswers with
    | [] =>
      exact .inr (.inl ⟨[], w, ws, [], rfl, .inl ⟨by simp, rfl⟩, by
        rw [drain_silent w ws f s h]; simp [State.withAnswers, ← h]⟩)
    | .stall :: as =>
      exact .inr (.inl ⟨[], w, ws, as, rfl, .inr (by simp), by
        rw [drain_stall w ws f s as h]; simp⟩)
    | .fail e k :: as =>
      exact .inr (.inr ⟨[], w, ws, e, k, as, rfl, by simp, by
        rw [drain_fail w ws f s e k as h]; simp⟩)
    | .accept :: as =>
      have c : ∀ bs, ((s.withAnswers as).accepted w).withAnswers bs
          = (s.withAnswers bs).accepted w := by intro bs; simp [accepted_eq, State.withAnswers]
      have hs : ((s.withAnswers as).accepted w).sinkAnswers = as := by simp [accepted_eq]
      rw [drain_accept w ws f s as h]
      rcases ih ((s.withAnswers as).accepted w) with
        ⟨bs, ha, hd⟩ | ⟨pre, v, post, bs, hw, ha, hd⟩ | ⟨pre, v, post, e, k, bs, hw, ha, hd⟩
      · refine .inl ⟨bs, ?_, ?_⟩
        · rw [hs] at ha; simp [List.replicate_succ, ha]
        · rw [hd, c]; rfl
      · refine .inr (.inl ⟨w :: pre, v, post, bs, by simp [hw], ?_, ?_⟩)
        · rw [hs] at ha
          rcases ha with ⟨ha, hb⟩ | ha
          · exact .inl ⟨by simp [List.replicate_succ, ha], hb⟩
          · exact .inr (by simp [List.replicate_succ, ha])
        · rw [hd, c]; rfl
      · refine .inr (.inr ⟨w :: pre, v, post, e, k, bs, by simp [hw], ?_, ?_⟩)
        · rw [hs] at ha; simp [List.replicate_succ, ha]
        · rw [hd, c]; rfl

/-- Everything a command's output can meet, said of the writes of its division (R55, R57): all are
accepted and the command ends; or the command waits with a start of them in the sink; or one fails. -/
theorem writeOut_cases (ws : List Write) (f : Finish) (s : State) :
    (∃ as, s.sinkAnswers = List.replicate (s.divided ws).length .accept ++ as ∧
      s.writeOut ws f
        = ((acceptAll (s.divided ws) (s.dropDivision.withAnswers as)).notBusy).finishWith f) ∨
    (∃ pre w post as, s.divided ws = pre ++ w :: post ∧
      (s.sinkAnswers = List.replicate pre.length .accept ∧ as = [] ∨
        s.sinkAnswers = List.replicate pre.length .accept ++ .stall :: as) ∧
      s.writeOut ws f = (acceptAll pre (s.dropDivision.withAnswers as)).waitOn (w :: post) f) ∨
    (∃ pre w post e k as, s.divided ws = pre ++ w :: post ∧
      s.sinkAnswers = List.replicate pre.length .accept ++ .fail e k :: as ∧
      s.writeOut ws f
        = ((acceptAll pre (s.dropDivision.withAnswers as)).notBusy).sinkFailed w e k) :=
  drain_cases (s.divided ws) f s.dropDivision

/-- The end of a command touches neither the sink nor the host's list. -/
@[simp] theorem finishWith_sink (f : Finish) (s : State) : (s.finishWith f).sink = s.sink := by
  cases f <;> rfl

@[simp] theorem finishWith_host (f : Finish) (s : State) : (s.finishWith f).host = s.host := by
  cases f <;> rfl

@[simp] theorem finishWith_divisions (f : Finish) (s : State) :
    (s.finishWith f).divisions = s.divisions := by
  cases f <;> rfl

/-- Whatever the sink answers, the writes of a command only add to it (R56). -/
theorem drain_sink (ws : List Write) (f : Finish) (s : State) : s.sink <+: (drain ws f s).sink := by
  rcases drain_cases ws f s with ⟨as, _, h⟩ | ⟨pre, w, post, as, _, _, h⟩ |
    ⟨pre, w, post, e, k, as, _, _, h⟩ <;> rw [h]
  · simp
  · simp
  · simp [State.sinkFailed, State.fail, State.void]

/-- Whatever the sink answers, the host's list, the divisions to come, the cipher words, CC.CTR0 and
the authenticator's key stay. -/
theorem drain_frame (ws : List Write) (f : Finish) (s : State) :
    (drain ws f s).host = s.host ∧ (drain ws f s).divisions = s.divisions ∧ (drain ws f s).cc.S = s.cc.S ∧
      (drain ws f s).cc.CTR0 = s.cc.CTR0 ∧ (drain ws f s).p.R = s.p.R ∧
      (drain ws f s).p.S = s.p.S := by
  rcases drain_cases ws f s with ⟨as, _, h⟩ | ⟨pre, w, post, as, _, _, h⟩ |
    ⟨pre, w, post, e, k, as, _, _, h⟩ <;> rw [h]
  · cases f <;> simp [State.finishWith]
  · simp
  · simp [State.sinkFailed, State.fail, State.void]

/-- The response a command's writes leave: none yet, OK, or SinkError (R212). -/
theorem drain_response (ws : List Write) (f : Finish) (s : State) :
    (drain ws f s).response = s.response ∨
      ∃ d, (drain ws f s).response = some ⟨.ok, d⟩ ∨
        (drain ws f s).response = some ⟨.sinkError, d⟩ := by
  rcases drain_cases ws f s with ⟨as, _, h⟩ | ⟨pre, w, post, as, _, _, h⟩ |
    ⟨pre, w, post, e, k, as, _, _, h⟩ <;> rw [h]
  · right; cases f <;> simp [State.finishWith]
  · left; simp
  · right; simp [State.sinkFailed, State.fail]

/-! What a command's output leaves, in whatever division (R57). -/

theorem writeOut_sink (ws : List Write) (f : Finish) (s : State) :
    s.sink <+: (s.writeOut ws f).sink := drain_sink (s.divided ws) f s.dropDivision

/-- One division is used, and the host's list, the cipher words, CC.CTR0 and the authenticator's key
stay. -/
theorem writeOut_frame (ws : List Write) (f : Finish) (s : State) :
    (s.writeOut ws f).host = s.host ∧ (s.writeOut ws f).divisions = s.divisions.tail ∧
      (s.writeOut ws f).cc.S = s.cc.S ∧ (s.writeOut ws f).cc.CTR0 = s.cc.CTR0 ∧
      (s.writeOut ws f).p.R = s.p.R ∧ (s.writeOut ws f).p.S = s.p.S :=
  drain_frame (s.divided ws) f s.dropDivision

theorem writeOut_response (ws : List Write) (f : Finish) (s : State) :
    (s.writeOut ws f).response = s.response ∨
      ∃ d, (s.writeOut ws f).response = some ⟨.ok, d⟩ ∨
        (s.writeOut ws f).response = some ⟨.sinkError, d⟩ :=
  drain_response (s.divided ws) f s.dropDivision

/-- A command whose output meets only accepting answers ends with its output in the sink. -/
theorem writeOut_all_accepted (ws : List Write) (f : Finish) (s : State) (as : List SinkAnswer)
    (h : s.sinkAnswers = List.replicate (s.divided ws).length .accept ++ as) :
    s.writeOut ws f
      = ((acceptAll (s.divided ws) (s.dropDivision.withAnswers as)).notBusy).finishWith f :=
  drain_all_accepted (s.divided ws) f s.dropDivision as h

end Sys2Proof.Machine
end

