-- ==== Sys2Proof/Tests/Slice0.lean ====
section
/-!
SUPPORT. The model's own tests. Expected values are from spec/95_test_vectors.md (the vector's name
stands in each docstring) and from the encodings of spec/30_encoding.md. Then, for every statement of
Certificates/Slice0/Obligations.lean with hypotheses, a witness that meets them, clause by clause.
-/

open Host Sys2Proof Sys2Proof.Machine

namespace Sys2Proof.Tests

/-! ## Helpers -/

/-- The `n` bytes of a number written in hex, the first byte leftmost. -/
def hex (n v : Nat) : List Byte := (encLE n v).reverse

/-- The bytes of a text. -/
def text (t : String) : List Byte := t.toList.map fun c => BitVec.ofNat 8 c.toNat

/-- The state an outcome goes on with. -/
def next (o : Outcome State Fault Refusal) : State :=
  match o with
  | .next s => s
  | _ => State.reset

/-- The response an outcome leaves on the port, if it goes on. -/
def answer (o : Outcome State Fault Refusal) : Option Response :=
  match o with
  | .next s => s.response
  | _ => none

/-- What the host reads of the decoder: the instruction, or none. -/
def decoded (w : Word) (p : List Byte) : Option Instr :=
  match decode ⟨w, p⟩ with
  | .ok i => some i
  | .error _ => none

/-- Why the decoder refuses, or none. -/
def refusal (w : Word) (p : List Byte) : Option Illegal :=
  match decode ⟨w, p⟩ with
  | .ok _ => none
  | .error e => some e

def K0 : List Byte := zeros 32
def N0 : List Byte := zeros 12
def K1 : List Byte := hex 32 0x808182838485868788898a8b8c8d8e8f909192939495969798999a9b9c9d9e9f
def N1 : List Byte := hex 12 0x070000004041424344454647
def PK : List Byte := hex 32 0x85d6be7857556d337f4452fe42d506a80103808afb0db2fd4abff6af4149f51b
def A1 : List Byte := hex 12 0x50515253c0c1c2c3c4c5c6c7
def A5 : List Byte := hex 5 0x0001020304
def P7 : List Byte := hex 7 0xa0a1a2a3a4a5a6

/-- The keystream block L1-1 (key K0, nonce N0, counter 0). -/
def block0 : List Byte :=
  hex 32 0x76b8e0ada0f13d90405d6ae55386bd28bdd219b8a08ded1aa836efcc8b770dc7
    ++ hex 32 0xda41597c5157488d7724e03fb8d84a376a43b8f41518a11cc387b669b2ee6586

/-- The keystream block V-BLK-4 (counter 0xFFFFFFFE). -/
def blockLast : List Byte :=
  hex 32 0x032cc123482c31711f94c941af5ab1f4155784332ed5348fe79aec5ead4c06c3
    ++ hex 32 0xf13c280d8cc49925e4a6a5922ec80e13a4cdfa840c70a1427a3cb699166991a5

/-- A constructed cipher context of K0 and N0 at a counter. -/
def ready (c : Word) : State := { State.reset with cc := ⟨initState K0 N0 c, c, .READY⟩ }

/-- An authenticator of PK with an accumulator (the numbers of L1-2). -/
def active (acc : BitVec 130) : State :=
  { State.reset with
    p := ⟨acc, 0x0806d5400e52447c036d555408bed685, 0x1bf54941aff6bf4afdb20dfb8a800301, .ACTIVE⟩ }

/-- A session of K1 and N1 (the numbers of PRG-3, after its step 1), at a counter, and the sink's
answers to come. -/
def session (c : Word) (acc : BitVec 130) (a : SessionUnit) (as : List SinkAnswer) : State :=
  { State.reset with
    cc := ⟨initState K1 N1 c, 1, .READY⟩
    p := ⟨acc, 0x0455e9a4057ab6080f47b42c052bac7b, 0xff53d53e7875932aebd9751073d6e10a, .ACTIVE⟩
    a := a
    sinkAnswers := as }

/-- The session right after AEAD_INIT. -/
def fresh (as : List SinkAnswer) : State := session 1 0 ⟨.OPEN, true, 0, 0⟩ as

/-- A session that waits on the sink with the write of V-A-2. -/
def waiting (as : List SinkAnswer) (hs : List HostEvent) : State :=
  { session 1 0 ⟨.OPEN, false, 12, 0⟩ as with
    busy := some ⟨[⟨pad16 A1, pad16 A1⟩], .aad⟩
    host := hs }

/-! ## Well-formedness: a term that each check refuses -/

theorem test_key_too_long : Instr.wf (.ccInit (zeros 256) N0 none) = false := by decide +kernel
theorem test_nonce_too_long : Instr.wf (.aeadInit K0 (zeros 256)) = false := by decide +kernel
theorem test_pInit_key_too_long : Instr.wf (.pInit (zeros 256)) = false := by decide +kernel
theorem test_tag_of_15_bytes : Instr.wf (.aeadDecrypt [] (zeros 15)) = false := by decide
theorem test_longest_key : Instr.wf (.pInit (zeros 255)) = true := by decide +kernel
theorem test_data_too_long : Instr.wf (.ccXor (zeros (2 ^ 64))) = false := by
  simp only [Instr.wf, fitsPayload, zeros, List.length_replicate]; decide
theorem test_transaction_too_long (w : Word) : Transaction.wf ⟨w, zeros (2 ^ 64)⟩ = false := by
  simp only [Transaction.wf, zeros, List.length_replicate]; decide

/-! ## Decoding: words written out from R71 and R79 -/

/-- CC.INIT with a counter: 0x10, KLEN 32, NLEN 12, CP 1 (PRG-6 step 1). -/
theorem test_decode_ccInit_ctr : decoded 0x010C2010 (zeros 44 ++ hex 4 0xfeffffff)
    = some (.ccInit K0 N0 (some 0xFFFFFFFE)) := by decide
/-- CC.INIT without a counter: CP 0 (L1-1). -/
theorem test_decode_ccInit : decoded 0b00000000_00001100_00100000_00010000#32 (K1 ++ N1)
    = some (.ccInit K1 N1 none) := by decide
theorem test_decode_ccBlock : decoded 0b00000000_00000000_00000000_00010001#32 [] = some .ccBlock := by
  decide
theorem test_decode_ccXor : decoded 0x00000012 [0x41] = some (.ccXor [0x41]) := by decide
theorem test_decode_ccXorb : decoded 0x00000013 [] = some (.ccXorb []) := by decide
theorem test_decode_ccReset : decoded 0x00000014 [] = some .ccReset := by decide
theorem test_decode_pInit : decoded 0b00000000_00000000_00100000_00100000#32 PK = some (.pInit PK) := by
  decide
theorem test_decode_pDerive : decoded 0x00000021 [] = some .pDerive := by decide
theorem test_decode_pUpdate : decoded 0x00000022 [1, 2] = some (.pUpdate [1, 2]) := by decide
theorem test_decode_pFinal : decoded 0x00000023 [] = some .pFinal := by decide
theorem test_decode_aeadInit : decoded 0b00000000_00001100_00100000_00110000#32 (K1 ++ N1)
    = some (.aeadInit K1 N1) := by decide
theorem test_decode_aeadAad : decoded 0x00000031 A1 = some (.aeadAad A1) := by decide
theorem test_decode_aeadUpdate : decoded 0x00000032 P7 = some (.aeadUpdate P7) := by decide
theorem test_decode_aeadFinal : decoded 0x00000033 [] = some .aeadFinal := by decide
theorem test_decode_aeadDecrypt : decoded 0x00000034 (P7 ++ zeros 16)
    = some (.aeadDecrypt P7 (zeros 16)) := by decide

/-- V-ILL-1: unassigned opcodes, a reserved bit, an unused field, a payload that is not taken. -/
theorem test_illegal : [refusal 0x00000000 [], refusal 0x00000015 [], refusal 0x02000011 [],
      refusal 0x00002011 [], refusal 0x00000011 [0]]
    = [some .unassignedOpcode, some .unassignedOpcode, some .fieldNotZero, some .fieldNotZero,
      some .badLength] := by decide
/-- V-INIT-3: payload lengths that do not fit KLEN, NLEN and CP, and a reserved bit. -/
theorem test_illegal_ccInit : [refusal 0x000C2010 (zeros 43), refusal 0x010C2010 (zeros 44),
      refusal 0x020C2010 (zeros 44)]
    = [some .badLength, some .badLength, some .fieldNotZero] := by decide
/-- V-P-10 and V-A-9: NLEN on P_INIT, P_INIT and AEAD_DECRYPT payloads one byte short. -/
theorem test_illegal_lengths : [refusal 0x000C2020 (zeros 32), refusal 0x00002020 (zeros 31),
      refusal 0x00000034 (zeros 15)]
    = [some .fieldNotZero, some .badLength, some .badLength] := by decide

/-- A word of the opcode table, run as the first instruction after reset: CC_INIT with empty key and
nonce fails its key check (R107); CC_BLOCK needs a context (R108). -/
theorem test_fetch_word :
    [answer (step (State.reset.withFetchWord 32 0x10)), answer (step (State.reset.withFetchWord 32 0x11))]
      = [some ⟨.invalidKeyLength, []⟩, some ⟨.sequenceError, []⟩] := by decide

/-! ## Functions -/

/-- V-QR-1. -/
theorem test_quarterRound :
    quarterRound #v[0x11111111, 0x01020304, 0x9b8d6f43, 0x01234567, 0, 0, 0, 0, 0, 0, 0, 0, 0, 0, 0, 0]
      0 1 2 3
    = #v[0xea2a92f4, 0xcb1cf8ce, 0x4581472e, 0x5881c4bb, 0, 0, 0, 0, 0, 0, 0, 0, 0, 0, 0, 0] := by
  decide +kernel

/-- V-BLK-2: the block of the key 00 to 1f, nonce 000000090000004a00000000, counter 1. -/
theorem test_chachaBlock :
    chachaBlock (initState
      (hex 32 0x000102030405060708090a0b0c0d0e0f101112131415161718191a1b1c1d1e1f)
      (hex 12 0x000000090000004a00000000) 1)
    = hex 32 0x10f1e7e4d13b5915500fdd1fa32071c4c7d1f4c733c068030422aa9ac3d46c4e
      ++ hex 32 0xd2826446079faa0914c2d705d98b02a2b5129cd1de164eb9cbd083e8a2503c4e := by
  decide +kernel

/-- V-P-7: the final reduction and the addition modulo 2^128. -/
theorem test_polyTag : polyTag 0x3fffffffffffffffffffffffffffffffa 0xffffffffffffffffffffffffffffffff
    = hex 16 0xf9ffffffffffffffffffffffffffffff := by decide +kernel

/-- V-P-5: the clamp, and a block of ones. -/
theorem test_clamp : keySplit (List.replicate 32 0xff)
    = (0x0ffffffc0ffffffc0ffffffc0fffffff, 0xffffffffffffffffffffffffffffffff) := by decide +kernel

/-! ## CC_* commands -/

/-- V-INIT-1: the words of the state and CC.CTR0. -/
theorem test_ccInit :
    (next (exec (.ccInit (hex 32 0x000102030405060708090a0b0c0d0e0f101112131415161718191a1b1c1d1e1f)
      (hex 12 0x000000090000004a00000000) (some 1)) State.reset)).cc
    = ⟨#v[0x61707865, 0x3320646e, 0x79622d32, 0x6b206574, 0x03020100, 0x07060504, 0x0b0a0908,
        0x0f0e0d0c, 0x13121110, 0x17161514, 0x1b1a1918, 0x1f1e1d1c, 1, 0x09000000, 0x4a000000, 0],
      1, .READY⟩ := by decide +kernel
/-- V-INIT-2: the key is checked first; an earlier context survives the error. -/
theorem test_ccInit_errors :
    exec (.ccInit (zeros 16) (zeros 8) none) (ready 0)
      = .next { ready 0 with response := some ⟨.invalidKeyLength, []⟩ } := by rfl
/-- V-BLK-4: the last block. -/
theorem test_ccBlock : answer (exec .ccBlock (ready 0xFFFFFFFE)) = some ⟨.ok, blockLast⟩ := by
  decide +kernel
/-- L1-6: no block at counter 0xFFFFFFFF. -/
theorem test_ccBlock_overflow :
    exec .ccBlock (ready 0xFFFFFFFF) = .next { ready 0xFFFFFFFF with
      cc := ⟨initState K0 N0 0xFFFFFFFF, 0xFFFFFFFF, .EMPTY⟩
      response := some ⟨.counterOverflow, []⟩ } := by rfl
/-- V-XOR-3: a block, then byte 0 of the next. -/
theorem test_ccXor : answer (exec (.ccXor (zeros 65)) (ready 0)) = some ⟨.ok, block0 ++ [0x9f]⟩ := by
  decide +kernel
/-- V-XOR-4: the whole request is checked before any output; the counter stays. -/
theorem test_ccXor_overflow :
    (next (exec (.ccXor (zeros 65)) (ready 0xFFFFFFFE))).response = some ⟨.counterOverflow, []⟩ ∧
      counterOf (next (exec (.ccXor (zeros 65)) (ready 0xFFFFFFFE))).cc.S = 0xFFFFFFFE := by decide
/-- V-XORB-2. -/
theorem test_ccXorb : answer (exec (.ccXorb (zeros 64)) (ready 0)) = some ⟨.ok, block0⟩ := by
  decide +kernel
/-- V-XORB-3: BufferSizeMismatch before CounterOverflow (R214). -/
theorem test_ccXorb_mismatch :
    answer (exec (.ccXorb (zeros 65)) (ready 0xFFFFFFFF)) = some ⟨.bufferSizeMismatch, []⟩ := by decide
/-- V-RESET-1: back to the initial value, which need not be 0. -/
theorem test_ccReset :
    counterOf (next (exec .ccReset
      { ready 1 with cc := ⟨initState K0 N0 2, 1, .READY⟩ })).cc.S = 1 := by decide

/-! ## P_* commands -/

/-- L1-2, after P.INIT: the numbers of PK. -/
theorem test_pInit : (next (exec (.pInit PK) State.reset)).p
    = ⟨0, 0x0806d5400e52447c036d555408bed685, 0x1bf54941aff6bf4afdb20dfb8a800301, .ACTIVE⟩ := by
  decide +kernel
/-- V-PD-1: the authenticator is keyed from block 0, which is consumed. -/
theorem test_pDerive : (next (exec .pDerive (ready 0))).p
    = ⟨0, 0x08bd8650056a5d40003df1a00de0b876, 0xc70d778bccef36a81aed8da0b819d2bd, .ACTIVE⟩ ∧
      counterOf (next (exec .pDerive (ready 0))).cc.S = 1 := by decide +kernel
/-- V-PD-2: at the counter limit the P unit keeps its context. -/
theorem test_pDerive_overflow :
    (next (exec .pDerive { active 0 with cc := (ready 0xFFFFFFFF).cc })).p = (active 0).p := by decide
/-- L1-2, after P.UPDATE: blocks of 16, 16 and 2 bytes. -/
theorem test_pUpdate :
    (next (exec (.pUpdate (text "Cryptographic Forum Research Group")) (active 0))).p.ACC
      = 0x28d31b7caff946c77c8844335369d03a7 := by decide +kernel
/-- PRG-2 step 3: the short tail alone, after the first 32 bytes. -/
theorem test_pUpdate_tail :
    (next (exec (.pUpdate (text "up")) (active 0x2d8adaf23b0337fa7cccfb4ea344b30de))).p.ACC
      = 0x28d31b7caff946c77c8844335369d03a7 := by decide +kernel
/-- L1-2: the tag. -/
theorem test_pFinal : answer (exec .pFinal (active 0x28d31b7caff946c77c8844335369d03a7))
    = some ⟨.ok, hex 16 0xa8061dc1305136c6c22b8baf0c0127a9⟩ := by decide +kernel
/-- V-P-9: no second P.FINAL. -/
theorem test_pFinal_twice :
    answer (exec .pFinal (next (exec .pFinal (active 0)))) = some ⟨.sequenceError, []⟩ := by
  decide +kernel

/-! ## AEAD_* commands -/

/-- PRG-3 step 1. -/
theorem test_aeadInit :
    (next (exec (.aeadInit K1 N1) State.reset)).cc
      = ⟨#v[0x61707865, 0x3320646e, 0x79622d32, 0x6b206574, 0x83828180, 0x87868584, 0x8b8a8988,
        0x8f8e8d8c, 0x93929190, 0x97969594, 0x9b9a9998, 0x9f9e9d9c, 1, 0x00000007, 0x43424140,
        0x47464544], 1, .READY⟩ ∧
    (next (exec (.aeadInit K1 N1) State.reset)).p
      = ⟨0, 0x0455e9a4057ab6080f47b42c052bac7b, 0xff53d53e7875932aebd9751073d6e10a, .ACTIVE⟩ ∧
    (next (exec (.aeadInit K1 N1) State.reset)).a = ⟨.OPEN, true, 0, 0⟩ := by decide +kernel
/-- V-A-12: a key of 31 bytes leaves the open session. -/
theorem test_aeadInit_error :
    exec (.aeadInit (zeros 31) N1) (fresh []) = .next { fresh [] with
      response := some ⟨.invalidKeyLength, []⟩ } := by rfl
/-- V-A-2 and PRG-3 step 2: the padding, the count, freshness and the accumulator. -/
theorem test_aeadAad :
    (next (exec (.aeadAad A1) (fresh [.accept]))).sink = hex 16 0x50515253c0c1c2c3c4c5c6c700000000 ∧
    (next (exec (.aeadAad A1) (fresh [.accept]))).a = ⟨.OPEN, false, 12, 0⟩ ∧
    (next (exec (.aeadAad A1) (fresh [.accept]))).p.ACC = 0x1bb22680babc3dcdc0a0c9a383695c4a3 := by
  decide +kernel
/-- V-A-14 with k = 3: SinkError with the descriptor, the first 3 bytes kept, the session ended. -/
theorem test_aeadAad_sinkError :
    (next (exec (.aeadAad A1) (fresh [.fail ⟨[0xEE]⟩ 3]))).response = some ⟨.sinkError, [0xEE]⟩ ∧
    (next (exec (.aeadAad A1) (fresh [.fail ⟨[0xEE]⟩ 3]))).sink = [0x50, 0x51, 0x52] ∧
    (next (exec (.aeadAad A1) (fresh [.fail ⟨[0xEE]⟩ 3]))).a.PHASE = .IDLE := by decide +kernel
/-- PRG-7 step 2: the ciphertext of P7, unpadded in the response and padded in the sink. -/
theorem test_aeadUpdate :
    answer (exec (.aeadUpdate P7) (fresh [.accept])) = some ⟨.ok, hex 7 0x3fda4bfea558e6⟩ ∧
    (next (exec (.aeadUpdate P7) (fresh [.accept]))).sink
      = hex 16 0x3fda4bfea558e6000000000000000000 := by decide +kernel
/-- V-A-4: an empty update writes nothing, takes no block and clears A.FRESH. -/
theorem test_aeadUpdate_empty :
    exec (.aeadUpdate []) (fresh []) = .next { session 1 0 ⟨.OPEN, false, 0, 0⟩ [] with
      response := some ⟨.ok, []⟩ } := by rfl
/-- PRG-3 step 4: the footer in the sink and the tag the source prints. -/
theorem test_aeadFinal :
    answer (exec .aeadFinal
      (session 3 0x3a0ca8e12eb289ffe3e49c4533704051d ⟨.OPEN, false, 12, 114⟩ [.accept]))
      = some ⟨.ok, hex 16 0x1ae10b594f09e26a7e902ecbd0600691⟩ ∧
    (next (exec .aeadFinal
      (session 3 0x3a0ca8e12eb289ffe3e49c4533704051d ⟨.OPEN, false, 12, 114⟩ [.accept]))).sink
      = hex 16 0x0c000000000000007200000000000000 := by decide +kernel
/-- V-A-1: the empty session. -/
theorem test_aeadFinal_empty : answer (exec .aeadFinal (fresh [.accept]))
    = some ⟨.ok, hex 16 0xa0784d7a4716f3feb4f64e7f4b39bf04⟩ := by decide +kernel
/-- L1-3, the stream of A5 and P7: the associated data and the plaintext come back. -/
theorem test_aeadDecrypt :
    answer (exec (.aeadDecrypt (hex 16 0x00010203040000000000000000000000
        ++ hex 16 0x3fda4bfea558e6000000000000000000 ++ hex 16 0x05000000000000000700000000000000)
        (hex 16 0x39978fd80f7ee90e251a5d3602184fde)) (fresh [.accept])) = some ⟨.ok, A5⟩ ∧
    (next (exec (.aeadDecrypt (hex 16 0x00010203040000000000000000000000
        ++ hex 16 0x3fda4bfea558e6000000000000000000 ++ hex 16 0x05000000000000000700000000000000)
        (hex 16 0x39978fd80f7ee90e251a5d3602184fde)) (fresh [.accept]))).sink = P7 := by
  decide +kernel
/-- V-A-7 and V-A-8: TagMismatch before FrameError, and FrameError on three authentic buffers. -/
theorem test_aeadDecrypt_errors :
    [answer (exec (.aeadDecrypt (zeros 8) (zeros 16)) (fresh [])),
      answer (exec (.aeadDecrypt [] (hex 16 0x0ae1d6731075d9eb2a9375783ed553ff)) (fresh [])),
      answer (exec (.aeadDecrypt (zeros 8) (hex 16 0x9444b07a1dd944f1a53fa17d6a899b0e)) (fresh [])),
      answer (exec (.aeadDecrypt (1 :: zeros 15) (hex 16 0x1b25797f73ca3a0ebdacc984ef221509))
        (fresh []))]
    = [some ⟨.tagMismatch, []⟩, some ⟨.frameError, []⟩, some ⟨.frameError, []⟩,
      some ⟨.frameError, []⟩] := by decide +kernel

/-! ## The port -/

/-- V-ILL-1, the last case: from reset, CC_BLOCK with one payload byte is IllegalCommand, not
SequenceError, because decode comes first. -/
theorem test_decode_comes_first :
    answer (step { State.reset with host := [.command ⟨0x00000011, [0]⟩] })
      = some ⟨.illegalCommand, []⟩ := by decide
/-- R55, R244: a stall leaves the command waiting with no response; the next answer ends it. -/
theorem test_stall :
    (next (exec (.aeadAad A1) (fresh [.stall]))).response = none ∧
    (next (step { next (exec (.aeadAad A1) (fresh [.stall])) with sinkAnswers := [.accept] })).sink
      = hex 16 0x50515253c0c1c2c3c4c5c6c700000000 := by decide +kernel

/-- R57: the writes of 17 bytes, which the pseudocode cuts at 16, cut at 5 and 20; a length 0 counts
as 1. The parts of a cut write feed nothing until its last byte. -/
theorem test_divide :
    divide [5, 15, 0] (alignWrites (zeros 16 ++ [7]))
      = [⟨zeros 5, []⟩, ⟨zeros 11 ++ 7 :: zeros 3, zeros 16⟩, ⟨[0], []⟩,
        ⟨zeros 11, 7 :: zeros 15⟩] := by decide +kernel
/-- R57, R55: cut after 3 bytes, the sink holds these while it stalls on the rest; the stream and the
accumulator then end as PRG-3 step 2. -/
theorem test_stall_inside_a_write :
    (next (exec (.aeadAad A1) { fresh [.accept, .stall] with divisions := [[3]] })).sink
      = [0x50, 0x51, 0x52] ∧
    (next (step { next (exec (.aeadAad A1) { fresh [.accept, .stall] with divisions := [[3]] }) with
      sinkAnswers := [.accept] })).sink = hex 16 0x50515253c0c1c2c3c4c5c6c700000000 ∧
    (next (step { next (exec (.aeadAad A1) { fresh [.accept, .stall] with divisions := [[3]] }) with
      sinkAnswers := [.accept] })).p.ACC = 0x1bb22680babc3dcdc0a0c9a383695c4a3 := by decide +kernel

/-! ## The assembler -/

/-- What a host has issued and seen after `n` steps: how many transactions are left, and the response
on the port. -/
def issued (n : Nat) (x : Option Issue) : Option (Nat × Option Response) :=
  x.bind fun x =>
    match issueFor n x with
    | .next y => some (y.left.length, y.state.response)
    | _ => none

/-- R88: a line with byte strings, colons and a hexadecimal counter. -/
theorem test_assemble_line :
    assembleLine "CC.INIT key=x\"\", nonce=x\"00:01 02\", ctr=0xFFFFFFFE"
      = some [⟨0x01030010, [0, 1, 2, 0xFE, 0xFF, 0xFF, 0xFF]⟩] := by decide +kernel
/-- R89: AEAD.OPEN expands to AEAD.INIT and AEAD.DECRYPT. -/
theorem test_expand :
    expand (.aeadOpen K1 N1 P7 (zeros 16)) = [.aeadInit K1 N1, .aeadDecrypt P7 (zeros 16)] := by decide

/-- R89: an expansion goes on where a stalled command is answered OK later: a session of A1 that the
sink holds up once, with AEAD.UPDATE and AEAD.FINAL then issued. -/
theorem test_issue_waits :
    [issued 2 (issue (.aeadSeal K1 N1 A1 []) { State.reset with sinkAnswers := [.stall, .accept] }),
      issued 3 (issue (.aeadSeal K1 N1 A1 []) { State.reset with sinkAnswers := [.stall, .accept] }),
      issued 4 (issue (.aeadSeal K1 N1 A1 []) { State.reset with sinkAnswers := [.stall, .accept] })]
      = [some (2, none), some (2, some ⟨.ok, []⟩), some (1, some ⟨.ok, []⟩)] := by decide +kernel
/-- R89: an expansion stops at the first status that is not OK: a key of 31 bytes. On a block that
waits with an earlier command, whose OK is not the expansion's, it issues its first command after. -/
theorem test_issue_stops :
    issued 1 (issue (.pMac (zeros 31) A1) State.reset) = some (0, some ⟨.invalidKeyLength, []⟩) ∧
      issued 1 (issue (.aeadOpen K1 N1 P7 (zeros 16)) (waiting [.accept] []))
        = some (2, some ⟨.ok, []⟩) ∧
      issued 1 (issue (.pMac (zeros 256) A1) State.reset) = none := by decide +kernel

/-! ## Witnesses: for each statement with hypotheses, values that meet them, clause by clause -/

/-- A well-formed instruction of each shape, at the ends of the length fields. -/
theorem witness_EncodedInstructionsDecode :
    Instr.wf (.ccInit (zeros 255) [] (some 0xFFFFFFFF)) = true ∧ Instr.wf (.pInit []) = true ∧
      Instr.wf (.aeadInit [] (zeros 255)) = true ∧ Instr.wf (.aeadDecrypt [] (zeros 16)) = true ∧
      Instr.wf .ccBlock = true ∧ Instr.wf (.aeadAad A1) = true := by decide +kernel

theorem witness_DecodedTransactionsEncode :
    Transaction.wf ⟨0x00010230, [1, 2, 3]⟩ = true ∧
      decode ⟨0x00010230, [1, 2, 3]⟩ = .ok (.aeadInit [1, 2] [3]) := ⟨by decide, rfl⟩

theorem witness_WordsOfTheOpcodeMap :
    (⟨.pInit, 0x00000020, 0xFFFF00FF⟩ : OpRow) ∈ opcodeMap ∧
      rowMatches 0x0000FF20 ⟨.pInit, 0x00000020, 0xFFFF00FF⟩ = true := by decide

/-- Both ways of being illegal: no row (V-ILL-1), and the wrong payload length (V-A-9). Then a reserved
bit, and an OPC at an end of each unassigned range. -/
theorem witness_IllegalCommandChangesNothing :
    (Transaction.wf ⟨0x02000011, []⟩ = true ∧ findOp 0x02000011 = none) ∧
      (Transaction.wf ⟨0x34, zeros 15⟩ = true ∧ findOp 0x34 = some .aeadDecrypt ∧
        lengthOK .aeadDecrypt (fieldKLEN 0x34) (fieldNLEN 0x34) (fieldCP 0x34)
          (zeros 15).length = false) ∧
      (fresh []).busy = none ∧
      (0x02000011 : Word).extractLsb' 25 7 ≠ 0 ∧ ((0x0F : Word).extractLsb' 0 8).toNat ≤ 0x0F ∧
      (0x15 ≤ ((0x1F : Word).extractLsb' 0 8).toNat ∧ ((0x1F : Word).extractLsb' 0 8).toNat ≤ 0x1F) ∧
      (0x24 ≤ ((0x24 : Word).extractLsb' 0 8).toNat ∧ ((0x24 : Word).extractLsb' 0 8).toNat ≤ 0x2F) ∧
      0x35 ≤ ((0x35 : Word).extractLsb' 0 8).toNat := by decide

theorem witness_StepRunsDecodedCommand :
    ({ ready 0 with host := [.command ⟨0x11, []⟩] } : State).busy = none ∧
      Transaction.wf ⟨0x11, []⟩ = true ∧ decode ⟨0x11, []⟩ = .ok .ccBlock :=
  ⟨rfl, by decide, rfl⟩

/-- RST between commands, and while a command waits. -/
theorem witness_RstAbandonsAndResets :
    ({ ready 0 with host := [.rst 0] } : State).host = .rst 0 :: [] ∧
      (waiting [] [.rst 3]).host = .rst 3 :: [] ∧
      (waiting [] [.rst 3]).busy = some ⟨[⟨pad16 A1, pad16 A1⟩], .aad⟩ := ⟨rfl, rfl, rfl⟩

theorem witness_CutCommandGivesNoResponse :
    ({ fresh [] with host := [.commandCut ⟨0x31, A1⟩ 16] } : State).busy = none ∧
      Transaction.wf ⟨0x31, A1⟩ = true := by decide

/-- A host with nothing to do, one with a command to present, and one with a command that RST will
cut, let the block work. -/
theorem lets_work (as : List SinkAnswer) (t : Transaction) (k : Nat) :
    (waiting as []).hostLetsWork ∧ (waiting as [.command t]).hostLetsWork ∧
      (waiting as [.commandCut t k]).hostLetsWork := by
  simp [State.hostLetsWork, waiting]

/-- Each clause: an idle host; no answer of the sink; a stall, with a command of the host to come. -/
theorem witness_WaitingChangesNothing :
    (State.reset.busy = none ∧ State.reset.host = []) ∧
      ((waiting [] []).busy = some ⟨[⟨pad16 A1, pad16 A1⟩], .aad⟩ ∧ (waiting [] []).hostLetsWork ∧
        (waiting [] []).sinkAnswers = []) ∧
      ((waiting [.stall] [.command ⟨0x33, []⟩]).hostLetsWork ∧
        (waiting [.stall] [.command ⟨0x33, []⟩]).sinkAnswers = .stall :: []) ∧
      ([⟨pad16 A1, pad16 A1⟩] : List Write) ≠ [] :=
  ⟨⟨rfl, rfl⟩, ⟨rfl, (lets_work _ ⟨0, []⟩ 0).1, rfl⟩, ⟨(lets_work _ _ 0).2.1, rfl⟩, by decide⟩

theorem witness_OverlappingCommandIsRefused :
    (waiting [] [.overlapping ⟨0x33, []⟩]).busy = some ⟨[⟨pad16 A1, pad16 A1⟩], .aad⟩ ∧
      (waiting [] [.overlapping ⟨0x33, []⟩]).host = .overlapping ⟨0x33, []⟩ :: [] := ⟨rfl, rfl⟩

/-- A payload that no transaction has makes the step fault. -/
theorem too_long_faults (t : Transaction) (h : t.wf = false) :
    step { State.reset with host := [.command t] } = .fault .payloadTooLong := by
  simp [step, portStep, State.reset, idleStep, runCommand, h]

/-- A transaction of 2^64 payload bytes. -/
theorem exists_too_long : ∃ t : Transaction, t.wf = false := by
  obtain ⟨p, hp⟩ : ∃ p : List Byte, p.length = 2 ^ 64 :=
    ⟨List.replicate (2 ^ 64) 0, List.length_replicate⟩
  exact ⟨⟨0x11, p⟩, by simp only [Transaction.wf, hp]; decide⟩

/-- A step that faults, and one that is refused. -/
theorem witness_OnlyTwoStops :
    (∃ t, step { State.reset with host := [.command t] } = .fault .payloadTooLong) ∧
      step (waiting [] [.overlapping ⟨0x33, []⟩]) = .refused .overlappingCommand :=
  ⟨exists_too_long.imp too_long_faults, rfl⟩

/-- A fresh session has the invariant. -/
theorem fresh_inv : (fresh []).Inv := by
  constructor <;> decide +kernel

/-- A state between commands, with a voided cipher context, has the invariant. -/
theorem voided_inv (c : Word) : ({ ready c with cc := ⟨initState K0 N0 c, c, .EMPTY⟩ } : State).Inv := by
  constructor <;> simp [ready, State.reset, polyP, clamp]

/-- A state in which a command waits on the sink has the invariant. -/
theorem waiting_inv : (waiting [.accept] []).Inv := by
  constructor <;> decide +kernel

/-- A step from a state with the invariant, while a command waits and between commands. -/
theorem witness_StepKeepsInvariant :
    (waiting [.accept] []).Inv ∧ (∃ t, step (waiting [.accept] []) = .next t) ∧
      (fresh []).Inv ∧ ∃ t, step { fresh [] with host := [.command ⟨0x33, []⟩] } = .next t :=
  ⟨waiting_inv, ⟨_, rfl⟩, fresh_inv, ⟨_, rfl⟩⟩

/-- Two states that differ in what a voided cipher context holds. -/
theorem witness_GatedFieldsAreNeverObserved :
    ({ ready 1 with cc := ⟨initState K0 N0 1, 1, .EMPTY⟩ } : State).Inv ∧
      ({ ready 2 with cc := ⟨initState K0 N0 2, 2, .EMPTY⟩ } : State).Inv ∧
      AgreeVisible { ready 1 with cc := ⟨initState K0 N0 1, 1, .EMPTY⟩ }
        { ready 2 with cc := ⟨initState K0 N0 2, 2, .EMPTY⟩ } ∧
      ({ ready 1 with cc := ⟨initState K0 N0 1, 1, .EMPTY⟩ } : State)
        ≠ { ready 2 with cc := ⟨initState K0 N0 2, 2, .EMPTY⟩ } := by
  refine ⟨voided_inv 1, voided_inv 2, ?_, by decide⟩
  constructor <;> decide

theorem witness_SinkIsAppendOnly :
    step (waiting [.accept] []) = .next (next (step (waiting [.accept] []))) := rfl

theorem witness_UpdateNeverOverflowsLength :
    (fresh []).Inv ∧ (fresh []).busy = none ∧ (fresh []).response = none ∧
      ∃ t, exec (.aeadUpdate P7) (fresh []) = .next t := ⟨fresh_inv, rfl, rfl, ⟨_, rfl⟩⟩

/-- A command, and a step in which a waiting command goes on. -/
theorem witness_KeyAndNonceWordsStay :
    ((∃ t, exec .ccBlock (ready 7) = .next t) ∧
      (∀ key nonce ctr, Instr.ccBlock ≠ .ccInit key nonce ctr) ∧
      ∀ key nonce, Instr.ccBlock ≠ .aeadInit key nonce) ∧
    ((waiting [.accept] []).busy ≠ none ∧ (∀ k rest, (waiting [.accept] []).host ≠ .rst k :: rest) ∧
      ∃ t, step (waiting [.accept] []) = .next t) :=
  ⟨⟨⟨_, rfl⟩, by simp, by simp⟩, by simp [waiting], by simp [waiting], ⟨_, rfl⟩⟩

theorem witness_CounterIsMonotonic :
    (∃ t, exec .pDerive (ready 7) = .next t) ∧
      (∀ key nonce ctr, Instr.pDerive ≠ .ccInit key nonce ctr) ∧
      (∀ key nonce, Instr.pDerive ≠ .aeadInit key nonce) ∧ Instr.pDerive ≠ .ccReset :=
  ⟨⟨_, rfl⟩, by simp, by simp, by simp⟩

theorem witness_StandAloneCommandsFrame :
    (∃ t, exec (.ccXor A1) (ready 7) = .next t) ∧ (∃ t, exec (.pUpdate A1) (active 0) = .next t) ∧
      ∃ t, exec .pDerive (ready 7) = .next t := ⟨⟨_, rfl⟩, ⟨_, rfl⟩, ⟨_, rfl⟩⟩

theorem witness_SessionCommandsFrame :
    (∃ t, exec (.aeadAad A1) (fresh []) = .next t) ∧ (∃ t, exec .aeadFinal (fresh []) = .next t) ∧
      (∃ t, exec (.aeadUpdate P7) (fresh []) = .next t) ∧
      ∃ t, exec (.aeadDecrypt [] (zeros 16)) (fresh []) = .next t :=
  ⟨⟨_, rfl⟩, ⟨_, rfl⟩, ⟨_, rfl⟩, ⟨_, rfl⟩⟩

theorem witness_SessionLocksTheUnits : (fresh []).a.PHASE = .OPEN := rfl

theorem witness_CommandsNeedAnInit :
    State.reset.cc.PHASE = .EMPTY ∧ State.reset.p.PHASE = .EMPTY ∧ State.reset.a.PHASE = .IDLE ∧
      (∀ key nonce ctr, Instr.aeadFinal ≠ .ccInit key nonce ctr) ∧
      (∀ key, Instr.aeadFinal ≠ .pInit key) ∧ ∀ key nonce, Instr.aeadFinal ≠ .aeadInit key nonce :=
  ⟨rfl, rfl, rfl, by simp, by simp, by simp⟩

theorem witness_ErrorResponsesAreEmpty :
    State.reset.response = none ∧
      exec .ccBlock State.reset
        = .next { State.reset with response := some ⟨.sequenceError, []⟩ } ∧
      Status.sequenceError ≠ .ok ∧ Status.sequenceError ≠ .sinkError := ⟨rfl, rfl, by decide, by decide⟩

/-- The greatest value of 4 bytes. -/
theorem witness_LittleEndianInverse : 0xFFFFFFFF < 256 ^ 4 := by decide

theorem witness_QuarterRoundSteps : [(0 : Fin 16), 5, 10, 15].Nodup := by decide

/-- The words of a state, and what the columns and the diagonals make of them. -/
theorem witness_KeystreamBlockWords :
    ∃ x c d : CipherState,
      c = quarterRound (quarterRound (quarterRound (quarterRound x
        0 4 8 12) 1 5 9 13) 2 6 10 14) 3 7 11 15 ∧
      d = quarterRound (quarterRound (quarterRound (quarterRound c
        0 5 10 15) 1 6 11 12) 2 7 8 13) 3 4 9 14 := ⟨initState K1 N1 0, _, _, rfl, rfl⟩

theorem witness_DisjointQuarterRoundsCommute : [(0 : Fin 16), 4, 8, 12, 1, 5, 9, 13].Nodup := by decide

/-- The last block that the counter allows, and the one below it. -/
theorem witness_KeystreamXorBytes :
    blocksAvail (counterOf (ready 0xFFFFFFFE).cc.S) (((zeros 64).length + 63) / 64) ∧
      blocksAvail (counterOf (ready 0xFFFFFFFF).cc.S) ((([] : List Byte).length + 63) / 64) := by
  decide

theorem witness_PolyAbsorbBlocks :
    (1 ≤ [0xFF].length ∧ [0xFF].length ≤ 16) ∧ (1 ≤ (zeros 16).length ∧ (zeros 16).length ≤ 16) ∧
      (zeros 16).length = 16 ∧ 2 ^ 130 - 6 < 2 ^ 130 - 5 := by decide

theorem witness_PolyChunking : (zeros 32).length % 16 = 0 := by decide

/-- Each clause of CC_INIT. -/
theorem witness_CcInitRule :
    (fresh []).a.PHASE = .OPEN ∧ State.reset.a.PHASE = .IDLE ∧ (zeros 31).length ≠ 32 ∧
      K0.length = 32 ∧ (zeros 8).length ≠ 12 ∧ N0.length = 12 := by decide

/-- Each clause of CC_BLOCK: no context, in a session, at the limit, one below it. -/
theorem witness_CcBlockRule :
    State.reset.cc.PHASE = .EMPTY ∧ (fresh []).a.PHASE = .OPEN ∧
      ((ready 0xFFFFFFFF).a.PHASE = .IDLE ∧ (ready 0xFFFFFFFF).cc.PHASE = .READY ∧
        (ready 0xFFFFFFFF).cc.S[12] = 0xFFFFFFFF) ∧
      ((ready 0xFFFFFFFE).a.PHASE = .IDLE ∧ (ready 0xFFFFFFFE).cc.PHASE = .READY ∧
        (ready 0xFFFFFFFE).cc.S[12] ≠ 0xFFFFFFFF) := by decide

/-- Each clause of CC_XOR: 65 bytes need two blocks, 64 bytes the last one, none at the limit. -/
theorem witness_CcXorRule :
    State.reset.cc.PHASE = .EMPTY ∧
      ((ready 0xFFFFFFFE).a.PHASE = .IDLE ∧ (ready 0xFFFFFFFE).cc.PHASE = .READY ∧
        (ready 0xFFFFFFFE).cc.S[12].toNat + ((zeros 65).length + 63) / 64 > 0xFFFFFFFF) ∧
      (ready 0xFFFFFFFE).cc.S[12].toNat + ((zeros 64).length + 63) / 64 ≤ 0xFFFFFFFF ∧
      (ready 0xFFFFFFFF).cc.S[12].toNat + (([] : List Byte).length + 63) / 64 ≤ 0xFFFFFFFF := by
  decide

/-- Each clause of CC_XORB. -/
theorem witness_CcXorbRule :
    State.reset.cc.PHASE = .EMPTY ∧
      ((ready 0xFFFFFFFF).a.PHASE = .IDLE ∧ (ready 0xFFFFFFFF).cc.PHASE = .READY ∧
        (zeros 65).length % 64 ≠ 0) ∧
      ((zeros 64).length % 64 = 0 ∧
        (ready 0xFFFFFFFF).cc.S[12].toNat + (zeros 64).length / 64 > 0xFFFFFFFF) ∧
      (ready 0xFFFFFFFE).cc.S[12].toNat + (zeros 64).length / 64 ≤ 0xFFFFFFFF := by decide

theorem witness_CcResetRule :
    State.reset.cc.PHASE = .EMPTY ∧ (ready 1).a.PHASE = .IDLE ∧ (ready 1).cc.PHASE = .READY := by decide

theorem witness_XorIsItsOwnInverse :
    (ready 0).a.PHASE = .IDLE ∧ (ready 0).cc.PHASE = .READY ∧ (ready 0).cc.S[12] = (ready 0).cc.CTR0 ∧
      (ready 0).cc.S[12].toNat + (A1.length + 63) / 64 ≤ 0xFFFFFFFF := by decide

theorem witness_XorChunksCompose :
    (ready 0xFFFFFFFD).a.PHASE = .IDLE ∧ (ready 0xFFFFFFFD).cc.PHASE = .READY ∧
      (zeros 64).length % 64 = 0 ∧
      (ready 0xFFFFFFFD).cc.S[12].toNat + ((zeros 64 ++ P7).length + 63) / 64 ≤ 0xFFFFFFFF := by
  decide

theorem witness_PInitRule :
    (fresh []).a.PHASE = .OPEN ∧ State.reset.a.PHASE = .IDLE ∧ (zeros 16).length ≠ 32 ∧
      PK.length = 32 := by decide

theorem witness_PDeriveRule :
    State.reset.cc.PHASE = .EMPTY ∧
      ((ready 0xFFFFFFFF).a.PHASE = .IDLE ∧ (ready 0xFFFFFFFF).cc.PHASE = .READY ∧
        (ready 0xFFFFFFFF).cc.S[12] = 0xFFFFFFFF) ∧ (ready 0).cc.S[12] ≠ 0xFFFFFFFF := by decide

theorem witness_PUpdateRule :
    State.reset.p.PHASE = .EMPTY ∧ (active 0).a.PHASE = .IDLE ∧ (active 0).p.PHASE = .ACTIVE := by decide

theorem witness_PFinalRule :
    State.reset.p.PHASE = .EMPTY ∧ (active 7).a.PHASE = .IDLE ∧ (active 7).p.PHASE = .ACTIVE := by decide

theorem witness_AeadInitRule :
    (zeros 31).length ≠ 32 ∧ K1.length = 32 ∧ (zeros 13).length ≠ 12 ∧ N1.length = 12 := by decide

/-- Each clause of AEAD_AAD, the count at its end. -/
theorem witness_AeadAadRule :
    State.reset.a.PHASE = .IDLE ∧ (fresh []).a.PHASE = .OPEN ∧
      ((session 1 0 ⟨.OPEN, false, 0xFFFFFFFFFFFFFFFF, 0⟩ []).a.AADLEN.toNat + [0x00].length
        > 2 ^ 64 - 1) ∧
      ((session 1 0 ⟨.OPEN, false, 0xFFFFFFFFFFFFFFFE, 0⟩ []).a.AADLEN.toNat + [0x00].length
        ≤ 2 ^ 64 - 1) ∧
      (session 1 0 ⟨.OPEN, false, 0xFFFFFFFFFFFFFFFE, 0⟩ [.accept]).sinkAccepts
        ((session 1 0 ⟨.OPEN, false, 0xFFFFFFFFFFFFFFFE, 0⟩ [.accept]).divided
          (alignWrites [0x00])).length [] ∧
      SinkFailsAt ((fresh [.accept, .fail ⟨[0xEE]⟩ 0]).divided (alignWrites (zeros 17)))
        (fresh [.accept, .fail ⟨[0xEE]⟩ 0]) [⟨zeros 16, zeros 16⟩] ⟨zeros 16, zeros 16⟩ ⟨[0xEE]⟩ 0 [] ∧
      SinkStallsAt ({ fresh [.accept, .stall] with divisions := [[3]] }.divided (alignWrites A1))
        { fresh [.accept, .stall] with divisions := [[3]] } [⟨[0x50, 0x51, 0x52], []⟩]
        [⟨(pad16 A1).drop 3, pad16 A1⟩] [] := by
  refine ⟨rfl, rfl, by decide, by decide, rfl, ⟨⟨[], by decide +kernel⟩, rfl⟩, by decide +kernel,
    by decide, .inr rfl⟩

/-- Each clause of AEAD_UPDATE, the counter at its end. -/
theorem witness_AeadUpdateRule :
    State.reset.a.PHASE = .IDLE ∧ (fresh []).a.PHASE = .OPEN ∧
      (session 0xFFFFFFFF 0 ⟨.OPEN, false, 0, 0⟩ []).cc.S[12].toNat + (P7.length + 63) / 64
        > 0xFFFFFFFF ∧
      (session 0xFFFFFFFE 0 ⟨.OPEN, false, 0, 0⟩ []).cc.S[12].toNat + (P7.length + 63) / 64
        ≤ 0xFFFFFFFF ∧
      (fresh []).a.PTLEN.toNat + P7.length ≤ 2 ^ 64 - 1 ∧
      ((session 1 0 ⟨.OPEN, false, 0, 0xFFFFFFFFFFFFFFFF⟩ []).cc.S[12].toNat + (P7.length + 63) / 64
          ≤ 0xFFFFFFFF ∧
        (session 1 0 ⟨.OPEN, false, 0, 0xFFFFFFFFFFFFFFFF⟩ []).a.PTLEN.toNat + P7.length
          > 2 ^ 64 - 1) ∧
      (fresh [.accept, .stall]).sinkAccepts ((fresh [.accept, .stall]).divided
        (alignWrites (keystreamXor (fresh [.accept, .stall]).cc.S P7).1)).length [.stall] ∧
      SinkFailsAt ((fresh [.fail ⟨[]⟩ 16]).divided
          (alignWrites (keystreamXor (fresh [.fail ⟨[]⟩ 16]).cc.S P7).1))
        (fresh [.fail ⟨[]⟩ 16]) [] ⟨hex 16 0x3fda4bfea558e6000000000000000000,
          hex 16 0x3fda4bfea558e6000000000000000000⟩ ⟨[]⟩ 16 [] ∧
      SinkStallsAt ((fresh []).divided (alignWrites (keystreamXor (fresh []).cc.S P7).1)) (fresh []) []
        [⟨hex 16 0x3fda4bfea558e6000000000000000000, hex 16 0x3fda4bfea558e6000000000000000000⟩]
        [] := by
  refine ⟨rfl, rfl, by decide, by decide, by decide, by decide, ?_, ⟨⟨[], by decide +kernel⟩, rfl⟩,
    by decide +kernel, by decide, .inl ⟨rfl, rfl⟩⟩
  simp only [State.sinkAccepts, fresh, session]
  decide +kernel

/-- The footer of an empty session as one write, accepted or failing; and cut in two, the sink silent
after the first half. -/
theorem witness_AeadFinalRule :
    State.reset.a.PHASE = .IDLE ∧ (fresh [.accept]).a.PHASE = .OPEN ∧ (fresh [.accept]).divisions = [] ∧
      (fresh [.accept]).sinkAccepts
        ((fresh [.accept]).divided (alignWrites (footer (fresh [.accept]).a))).length [] ∧
      SinkFailsAt ((fresh [.fail ⟨[]⟩ 7]).divided (alignWrites (footer (fresh [.fail ⟨[]⟩ 7]).a)))
        (fresh [.fail ⟨[]⟩ 7]) [] ⟨zeros 16, zeros 16⟩ ⟨[]⟩ 7 [] ∧
      SinkStallsAt
        ({ fresh [.accept] with divisions := [[8]] }.divided (alignWrites (footer (fresh [.accept]).a)))
        { fresh [.accept] with divisions := [[8]] } [⟨zeros 8, []⟩] [⟨zeros 8, zeros 16⟩] [] := by
  refine ⟨rfl, rfl, rfl, by simp only [State.sinkAccepts, fresh, session]; decide +kernel,
    ⟨⟨[], by decide +kernel⟩, rfl⟩, by decide +kernel, by decide, .inl ⟨rfl, rfl⟩⟩

/-- Each error clause of AEAD_DECRYPT; the tags are V-A-8's, and that of the last clause is the one
the state gives the buffer. -/
theorem witness_AeadDecryptRule_errors :
    State.reset.a.PHASE = .IDLE ∧ (session 1 0 ⟨.OPEN, false, 0, 0⟩ []).a.FRESH = false ∧
      ((fresh []).a.PHASE = .OPEN ∧ (fresh []).a.FRESH = true) ∧
      polyTag (polyAbsorb (fresh []).p.ACC.toNat (fresh []).p.R (zeros 8)) (fresh []).p.S ≠ zeros 16 ∧
      (polyTag (polyAbsorb (fresh []).p.ACC.toNat (fresh []).p.R (zeros 8)) (fresh []).p.S
          = hex 16 0x9444b07a1dd944f1a53fa17d6a899b0e ∧ (zeros 8).length < 16) ∧
      (polyTag (polyAbsorb (fresh []).p.ACC.toNat (fresh []).p.R (1 :: zeros 15)) (fresh []).p.S
          = hex 16 0x1b25797f73ca3a0ebdacc984ef221509 ∧ 16 ≤ (1 :: zeros 15).length ∧
        (1 :: zeros 15).length - 16
          < pad16len (leNat (slice (1 :: zeros 15) 0 8)) + leNat (slice (1 :: zeros 15) 8 8)) ∧
      (16 ≤ (zeros 24 ++ 1 :: zeros 7).length ∧
        pad16len (leNat (slice (zeros 24 ++ 1 :: zeros 7) 16 8))
            + leNat (slice (zeros 24 ++ 1 :: zeros 7) 24 8) ≤ (zeros 24 ++ 1 :: zeros 7).length - 16 ∧
        (session 0xFFFFFFFF 0 ⟨.OPEN, true, 0, 0⟩ []).cc.S[12].toNat
          + (leNat (slice (zeros 24 ++ 1 :: zeros 7) 24 8) + 63) / 64 > 0xFFFFFFFF) := by
  decide +kernel

/-- The stream of L1-3 (A5, P7), and a sink that accepts its one write, fails it, or accepts the first
2 bytes and stalls. -/
theorem witness_AeadDecryptRule_release :
    polyTag (polyAbsorb (fresh [.accept]).p.ACC.toNat (fresh [.accept]).p.R
      (hex 16 0x00010203040000000000000000000000 ++ hex 16 0x3fda4bfea558e6000000000000000000
        ++ hex 16 0x05000000000000000700000000000000)) (fresh [.accept]).p.S
      = hex 16 0x39978fd80f7ee90e251a5d3602184fde ∧
    leNat (slice (hex 16 0x05000000000000000700000000000000) 0 8) = 5 ∧
    leNat (slice (hex 16 0x05000000000000000700000000000000) 8 8) = 7 ∧ pad16len 5 + 7 ≤ 48 - 16 ∧
    (fresh [.accept]).cc.S[12].toNat + (7 + 63) / 64 ≤ 0xFFFFFFFF ∧
    (fresh [.accept]).sinkAccepts ((fresh [.accept]).divided [⟨P7, []⟩]).length [] ∧
    SinkFailsAt ((fresh [.fail ⟨[]⟩ 7]).divided [⟨P7, []⟩]) (fresh [.fail ⟨[]⟩ 7]) [] ⟨P7, []⟩ ⟨[]⟩ 7
      [] ∧
    SinkStallsAt ({ fresh [.accept, .stall] with divisions := [[2]] }.divided [⟨P7, []⟩])
      { fresh [.accept, .stall] with divisions := [[2]] } [⟨P7.take 2, []⟩] [⟨P7.drop 2, []⟩] [] := by
  refine ⟨by decide +kernel, by decide, by decide, by decide, by decide, rfl, ⟨⟨[], rfl⟩, rfl⟩,
    by decide +kernel, by decide +kernel, .inr rfl⟩

theorem witness_DecryptVerifiesFirst :
    (fresh [.accept]).response = none ∧
      answer (exec (.aeadDecrypt (zeros 16) (hex 16 0xa0784d7a4716f3feb4f64e7f4b39bf04))
        (fresh [.accept])) = some ⟨.ok, []⟩ := ⟨rfl, by decide +kernel⟩

theorem witness_SinkFailureEndsSession :
    SinkFailsAt [⟨zeros 16, zeros 16⟩, ⟨[1], []⟩] (fresh [.fail ⟨[0xEE]⟩ 3, .accept]) []
      ⟨zeros 16, zeros 16⟩ ⟨[0xEE]⟩ 3 [.accept] := ⟨⟨[⟨[1], []⟩], rfl⟩, rfl⟩

/-- A waiting command, and a stall after one accepted write. -/
theorem witness_StallOnlyDelays :
    ((waiting [.accept] []).busy = some ⟨[⟨pad16 A1, pad16 A1⟩], .aad⟩ ∧
      (waiting [.accept] []).hostLetsWork) ∧
    (waiting [.accept, .stall, .accept] []).hostLetsWork ∧
      (waiting [.accept, .stall, .accept] []).sinkAnswers
        = List.replicate [(⟨zeros 16, zeros 16⟩ : Write)].length .accept ++ .stall :: [.accept] :=
  ⟨⟨rfl, (lets_work _ ⟨0, []⟩ 0).1⟩, (lets_work _ ⟨0, []⟩ 0).1, rfl⟩

/-- The writes of 17 bytes; a division of their 32 bytes; a failure in the second write of one. -/
theorem witness_CuttingAWriteIsNotSeen :
    (∀ w ∈ alignWrites (zeros 17), w.bytes ≠ [] ∧ w.feed.length % 16 = 0) ∧
      ((∀ c ∈ [zeros 5, zeros 27], c ≠ []) ∧
        [zeros 5, zeros 27].flatten = (alignWrites (zeros 17)).flatMap Write.bytes) ∧
      SinkFailsAt (divide [5] (alignWrites (zeros 17))) (fresh [.accept, .fail ⟨[]⟩ 11])
        [⟨zeros 5, []⟩] ⟨zeros 11, zeros 16⟩ ⟨[]⟩ 11 [] := by
  refine ⟨by decide +kernel, by decide +kernel, ⟨[⟨zeros 16, zeros 16⟩], by decide +kernel⟩, rfl⟩

/-- The first chunk and the second fill the pad units, one answer for each of their bytes. -/
theorem witness_SessionChunksCompose :
    (fresh (List.replicate 80 .accept)).a.PHASE = .OPEN ∧
      (fresh (List.replicate 80 .accept)).sinkAnswers = List.replicate 80 .accept ∧
      ((zeros 16).length % 16 = 0 ∧ (pad16 (zeros 16)).length + (pad16 A5).length ≤ 80 ∧
        (fresh []).a.AADLEN.toNat + (zeros 16 ++ A5).length ≤ 2 ^ 64 - 1) ∧
      (zeros 64).length % 64 = 0 ∧ (pad16 (zeros 64)).length + (pad16 P7).length ≤ 80 ∧
      (fresh []).cc.S[12].toNat + ((zeros 64 ++ P7).length + 63) / 64 ≤ 0xFFFFFFFF ∧
      (fresh []).a.PTLEN.toNat + (zeros 64 ++ P7).length ≤ 2 ^ 64 - 1 :=
  ⟨rfl, rfl, by decide +kernel, by decide +kernel⟩

theorem witness_SealWritesTheStream :
    K1.length = 32 ∧ N1.length = 12 ∧ A5.length ≤ 2 ^ 64 - 1 ∧ P7.length ≤ 64 * (2 ^ 32 - 2) ∧
      ({ State.reset with sinkAnswers := List.replicate 48 .accept } : State).busy = none ∧
      (sealStream K1 N1 A5 P7).length ≤ 48 := by decide +kernel

theorem witness_OpenRecoversTheSealed :
    K1.length = 32 ∧ N1.length = 12 ∧ P7.length ≤ 64 * (2 ^ 32 - 2) ∧
      (sealStream K1 N1 A5 P7).length + 16 ≤ 2 ^ 64 - 1 ∧
      ({ State.reset with sinkAnswers := List.replicate 7 .accept } : State).busy = none ∧
      P7.length ≤ 7 := by decide +kernel

end Sys2Proof.Tests
end

section
/-!
The proof that every step keeps `State.Inv` (R34, with R25, R27, R28, R32, R33, R59). The invariant's
clauses on the cipher and the authenticator are properties of one unit each (`HasConstants`, `Valid`);
a state without a session needs only these (`inv_of_closed`); and a state in which a session's command
is writing has a predicate of its own (`State.Writing`), which accepted writes keep and every end of
`drain` turns back into the invariant.
-/

namespace Sys2Proof.Machine

open Host

/-! ### The cipher unit -/

/-- The invariant's clause `constants` (R24, R25), of the unit alone. -/
def CipherUnit.HasConstants (u : CipherUnit) : Prop :=
  u.PHASE = .READY →
    u.S[0] = 0x61707865 ∧ u.S[1] = 0x3320646e ∧ u.S[2] = 0x79622d32 ∧ u.S[3] = 0x6b206574

theorem CipherUnit.hasConstants_of_empty {u : CipherUnit} (h : u.PHASE = .EMPTY) :
    u.HasConstants := fun hr => absurd (h.symm.trans hr) (by decide)

theorem CipherUnit.hasConstants_initState (key nonce : List Byte) (c d : Word) (ph : CipherPhase) :
    CipherUnit.HasConstants ⟨initState key nonce c, d, ph⟩ := fun _ => ⟨rfl, rfl, rfl, rfl⟩

/-- Only the counter word is replaced, and that is not a constant. -/
theorem CipherUnit.HasConstants.withCounter {u : CipherUnit} (h : u.HasConstants) (c : Word) :
    CipherUnit.HasConstants { u with S := withCounter u.S c } := fun hr =>
  let ⟨h0, h1, h2, h3⟩ := h hr
  ⟨(withCounter_other u.S c 0 (by decide)).trans h0,
    (withCounter_other u.S c 1 (by decide)).trans h1,
    (withCounter_other u.S c 2 (by decide)).trans h2,
    (withCounter_other u.S c 3 (by decide)).trans h3⟩

/-! ### The authenticator unit -/

/-- The invariant's clauses `canonical` (R27) and `clamped` (R28), of the unit alone. -/
structure AuthUnit.Valid (u : AuthUnit) : Prop where
  canonical : u.ACC.toNat < polyP
  clamped : clamp u.R = u.R

@[simp] theorem clamp_clamp (r : BitVec 128) : clamp (clamp r) = clamp r := by
  simp [clamp, BitVec.and_assoc]

theorem clamp_zero : clamp 0 = 0 := by decide

/-- The phase is not read. -/
theorem AuthUnit.Valid.withPhase {u : AuthUnit} (h : u.Valid) (ph : AuthPhase) :
    AuthUnit.Valid { u with PHASE := ph } := ⟨h.canonical, h.clamped⟩

theorem AuthUnit.valid_keySplit (key : List Byte) (v : BitVec 128) (ph : AuthPhase) :
    AuthUnit.Valid ⟨0, (keySplit key).1, v, ph⟩ := ⟨polyP_pos, clamp_clamp _⟩

theorem absorb_valid {s : State} (h : s.p.Valid) (d : List Byte) : (s.absorb d).p.Valid where
  canonical := by
    rw [State.absorb_p, toNat_ofNat_polyAbsorb]
    exact foldl_absorbBlock_lt _ _ _ h.canonical
  clamped := h.clamped

theorem acceptAll_valid {s : State} (h : s.p.Valid) (ws : List Write) :
    (acceptAll ws s).p.Valid where
  canonical := acceptAll_canonical ws s h.canonical
  clamped := by rw [acceptAll_R]; exact h.clamped

/-! ### The counter and the blocks of the data -/

/-- The data fits the blocks it takes (R105). -/
theorem le_blocksFor (n : Nat) : n ≤ 64 * blocksFor n := by
  rw [blocksFor_eq]; omega

theorem blocksFor_mono {m n : Nat} (h : m ≤ n) : blocksFor m ≤ blocksFor n := by
  rw [blocksFor_eq, blocksFor_eq]; omega

theorem blocksAvail_mono {c : Word} {j k : Nat} (h : j ≤ k) (hk : blocksAvail c k) :
    blocksAvail c j :=
  le_trans (Nat.add_le_add_left h _) hk

/-- The segment is a slice of the length the footer gives, or shorter at the buffer's end. -/
theorem cipherSegment_length_le (buf : List Byte) : (cipherSegment buf).length ≤ footerPt buf := by
  rw [cipherSegment, slice_length]; exact min_le_left _ _

/-- Where the blocks are available, the counter does not wrap (R105, R106). -/
theorem keystreamXor_counter_toNat (s : CipherState) (d : List Byte)
    (h : blocksAvail (counterOf s) (blocksFor d.length)) :
    (keystreamXor s d).2.toNat = (counterOf s).toNat + blocksFor d.length := by
  rw [keystreamXor_counter, BitVec.toNat_add, BitVec.toNat_ofNat]
  simp only [blocksAvail, Config.counterMax] at h
  omega

/-! ### The invariant where no command waits -/

theorem State.Inv.hasConstants {s : State} (h : s.Inv) : s.cc.HasConstants := h.constants

theorem State.Inv.valid {s : State} (h : s.Inv) : s.p.Valid := ⟨h.canonical, h.clamped⟩

/-- Without a session there is no freshness (R33). -/
theorem State.Inv.stale_of_closed {s : State} (h : s.Inv) (ha : s.a.PHASE ≠ .OPEN) :
    s.a.FRESH = false := Bool.eq_false_iff.mpr fun ht => ha (h.freshOpen ht)

/-- A state without a session and without a waiting command owes the units' own clauses only. -/
theorem inv_of_closed {s : State} (hcc : s.cc.HasConstants) (hp : s.p.Valid)
    (ha : s.a.PHASE ≠ .OPEN) (hf : s.a.FRESH = false) (hb : s.busy = none) : s.Inv where
  session ho := absurd ho ha
  canonical := hp.canonical
  clamped := hp.clamped
  constants := hcc
  freshOpen ht := by simp [hf] at ht
  fresh ht := by simp [hf] at ht
  plaintext ho := absurd ho ha
  waiting x hx := by simp [hb] at hx

/-- EndSession makes every state with sound units one without a session (R171). -/
theorem endSession_inv {s : State} (hp : s.p.Valid) (hb : s.busy = none) : s.endSession.Inv :=
  inv_of_closed (CipherUnit.hasConstants_of_empty rfl) (hp.withPhase _) (by simp) rfl hb

/-- A response is kept off the port only while a command waits. -/
theorem State.Inv.respond {s : State} (h : s.Inv) (hb : s.busy = none) (e : Status) (d : List Byte) :
    (s.respond e d).Inv :=
  { h with waiting := fun x hx => by simp [hb] at hx }

theorem State.Inv.takeEvent {s : State} (h : s.Inv) (es : List HostEvent) : (s.takeEvent es).Inv :=
  { h with
    waiting := fun x hx =>
      let ⟨ho, _, hne, hw, hf⟩ := h.waiting x hx
      ⟨ho, rfl, hne, hw, hf⟩ }

theorem State.Inv.withAnswers {s : State} (h : s.Inv) (as : List SinkAnswer) :
    (s.withAnswers as).Inv := { h with }

/-- RST (R240): the units hold what they hold after reset, and nothing waits. -/
theorem rst_inv (s : State) (k : Nat) : (s.rst k).Inv :=
  inv_of_closed (CipherUnit.hasConstants_of_empty rfl) ⟨polyP_pos, clamp_zero⟩
    (show SessionPhase.IDLE ≠ .OPEN by decide) rfl rfl

/-- The state AEAD_INIT leaves: counter 1, accumulator 0, both counts 0 (R172). -/
theorem openSession_inv {s : State} (hb : s.busy = none) (key nonce otk : List Byte) :
    (((s.loadCipher (initState key nonce 1) 1).loadAuth otk).openSession).Inv :=
  have hp := AuthUnit.valid_keySplit otk (keySplit otk).2 .ACTIVE
  { session := fun _ => ⟨rfl, rfl⟩
    canonical := hp.canonical
    clamped := hp.clamped
    constants := CipherUnit.hasConstants_initState _ _ _ _ _
    freshOpen := fun _ => rfl
    fresh := fun _ _ => ⟨rfl, rfl, rfl, rfl⟩
    plaintext := fun _ => by simp [hb, pendingPlaintext]
    waiting := fun x hx => by simp [hb] at hx }

/-! ### A session's command that is writing -/

/-- The plaintext bytes a command counts when it ends (R174). -/
def Finish.plaintext : Finish → Nat
  | .update ct => ct.length
  | _ => 0

theorem pendingPlaintext_some (ws : List Write) (f : Finish) :
    pendingPlaintext (some ⟨ws, f⟩) = f.plaintext := by cases f <;> rfl

/-- What holds while a session's command offers its writes to the sink and will end as `f` says: what
the invariant says of such a state, whether or not the block has had to wait. -/
structure State.Writing (s : State) (f : Finish) : Prop where
  isOpen : s.a.PHASE = .OPEN
  ready : s.cc.PHASE = .READY
  active : s.p.PHASE = .ACTIVE
  hasConstants : s.cc.HasConstants
  valid : s.p.Valid
  noResponse : s.response = none
  taken : f.takesData = true → s.a.FRESH = false
  counter : 1 ≤ (counterOf s.cc.S).toNat
  plaintext : s.a.PTLEN.toNat + f.plaintext ≤ 64 * ((counterOf s.cc.S).toNat - 1)

/-- A waiting command is writing. -/
theorem State.Inv.writing {s : State} (h : s.Inv) {x : Transfer} (hx : s.busy = some x) :
    s.Writing x.finish := by
  obtain ⟨ho, hr, -, -, hf⟩ := h.waiting x hx
  obtain ⟨hready, hactive⟩ := h.session ho
  obtain ⟨hcount, hplain⟩ := h.plaintext ho
  rw [hx, pendingPlaintext_some] at hplain
  exact ⟨ho, hready, hactive, h.hasConstants, h.valid, hr, hf, hcount, hplain⟩

/-- Accepted writes change the accumulator and the sink only (R55). -/
theorem State.Writing.acceptAll {s : State} {f : Finish} (h : s.Writing f) (ws : List Write) :
    (acceptAll ws s).Writing f where
  isOpen := by simp [h.isOpen]
  ready := by simp [h.ready]
  active := by simp [h.active]
  hasConstants := by simpa using h.hasConstants
  valid := acceptAll_valid h.valid ws
  noResponse := by simp [h.noResponse]
  taken := by simpa using h.taken
  counter := by simpa using h.counter
  plaintext := by simpa using h.plaintext

theorem State.Writing.withAnswers {s : State} {f : Finish} (h : s.Writing f) (as : List SinkAnswer) :
    (s.withAnswers as).Writing f := { h with }

theorem State.Writing.waitOn_inv {s : State} {f : Finish} (h : s.Writing f) {ws : List Write}
    (hne : ws ≠ []) (hw : ∀ w ∈ ws, w.bytes ≠ []) : (s.waitOn ws f).Inv where
  session _ := ⟨h.ready, h.active⟩
  canonical := h.valid.canonical
  clamped := h.valid.clamped
  constants := h.hasConstants
  freshOpen _ := h.isOpen
  fresh _ hb := by simp at hb
  plaintext _ := ⟨h.counter, by
    rw [State.waitOn_busy, pendingPlaintext_some]; exact h.plaintext⟩
  waiting x hx := by
    obtain rfl : _ = x := Option.some.inj hx
    exact ⟨h.isOpen, h.noResponse, hne, hw, h.taken⟩

/-- A command that has taken the session's freshness leaves the session open. -/
theorem State.Writing.inv_of_stale {s : State} {f : Finish} (h : s.Writing f)
    (hf : s.a.FRESH = false) (hb : s.busy = none) : s.Inv where
  session _ := ⟨h.ready, h.active⟩
  canonical := h.valid.canonical
  clamped := h.valid.clamped
  constants := h.hasConstants
  freshOpen _ := h.isOpen
  fresh ht := by simp [hf] at ht
  plaintext _ := ⟨h.counter, by rw [hb]; exact le_trans (Nat.le_add_right _ _) h.plaintext⟩
  waiting x hx := by simp [hb] at hx

/-- The bytes of a finished AEAD_UPDATE move from the pending ones to A.PTLEN (R32, R174). -/
theorem State.Writing.countPt {s : State} {ct : List Byte} (h : s.Writing (.update ct)) :
    (s.countPt ct.length).Writing .aad :=
  { h with
    taken := h.taken
    plaintext := by
      have hp := h.plaintext
      have hc := (counterOf s.cc.S).isLt
      simp only [Finish.plaintext] at hp
      simp only [State.countPt_a, State.countPt_cc, Finish.plaintext, BitVec.toNat_add,
        BitVec.toNat_ofNat]
      omega }

/-- A counter that has gone up by `k` makes room for `k` blocks of plaintext (R32, R104). -/
theorem State.Writing.setCounter {s : State} {f g : Finish} (h : s.Writing f) {c : Word} {k : Nat}
    (hc : c.toNat = (counterOf s.cc.S).toNat + k) (ht : g.takesData = true → s.a.FRESH = false)
    (hk : g.plaintext ≤ 64 * k) : (s.setCounter c).Writing g :=
  have hcount := h.counter
  have hplain := h.plaintext
  { h with
    hasConstants := h.hasConstants.withCounter c
    taken := ht
    counter := by simp only [State.setCounter_cc, counterOf_withCounter]; omega
    plaintext := by
      simp only [State.setCounter_cc, State.setCounter_a, counterOf_withCounter]; omega }

/-- The end of a command after its last accepted write (R173 to R176). -/
theorem State.Writing.finishWith_inv {s : State} {f : Finish} (h : s.Writing f) :
    (s.notBusy.finishWith f).Inv := by
  have hn : s.notBusy.Writing f := { h with }
  cases f with
  | aad => exact (hn.inv_of_stale (hn.taken rfl) rfl).respond rfl _ _
  | update ct => exact (hn.countPt.inv_of_stale (hn.taken rfl) rfl).respond rfl _ _
  | final => exact (endSession_inv hn.valid rfl).respond rfl _ _
  | decrypt aad => exact (endSession_inv hn.valid rfl).respond rfl _ _

theorem State.Writing.sinkFailed_inv {s : State} {f : Finish} (h : s.Writing f) (w : Write)
    (e : SinkErr) (k : Nat) : (s.notBusy.sinkFailed w e k).Inv :=
  State.Inv.respond (s := (s.notBusy.appendSink (w.bytes.take k)).endSession)
    (endSession_inv h.valid rfl) rfl _ _

/-- Whatever the sink answers to the writes of a command, the invariant holds after it. -/
theorem State.Writing.drain_inv {s : State} {f : Finish} (h : s.Writing f) {ws : List Write}
    (hw : ∀ w ∈ ws, w.bytes ≠ []) : (drain ws f s).Inv := by
  rcases drain_cases ws f s with ⟨as, -, hd⟩ | ⟨pre, w, post, as, hws, -, hd⟩ |
    ⟨pre, w, post, e, k, as, -, -, hd⟩ <;> rw [hd]
  · exact ((h.withAnswers as).acceptAll ws).finishWith_inv
  · refine ((h.withAnswers as).acceptAll pre).waitOn_inv (by simp) fun v hv => hw v ?_
    rw [hws]; exact List.mem_append_right _ hv
  · exact ((h.withAnswers as).acceptAll pre).sinkFailed_inv w e k

/-- The same for a command that begins to write, in whatever division (R57). -/
theorem State.Writing.writeOut_inv {s : State} {f : Finish} (h : s.Writing f) {ws : List Write}
    (hw : ∀ w ∈ ws, w.bytes ≠ []) : (s.writeOut ws f).Inv :=
  State.Writing.drain_inv (s := s.dropDivision) { h with } (divide_ne_nil _ ws hw)

/-! ### The commands -/

/-- The outcome is a state with the invariant, if the machine goes on. -/
def KeepsInv (o : Outcome State Fault Refusal) : Prop := ∀ t, o = .next t → t.Inv

theorem keepsInv_next {t : State} (h : t.Inv) : KeepsInv (.next t) := fun _ hu =>
  Outcome.next.inj hu ▸ h

section
variable {s : State} (h : s.Inv) (hb : s.busy = none)
include h hb

/-- Taking an error keeps the invariant; only a command without a session voids the cipher context
alone (R213). -/
theorem raise_keepsInv (e : Status) (v : Voids) (hv : v = .cipher → s.a.PHASE ≠ .OPEN) :
    KeepsInv (raise e v s) := by
  refine keepsInv_next (State.Inv.respond ?_ ?_ e [])
  · cases v with
    | nothing => exact h
    | cipher =>
      exact inv_of_closed (CipherUnit.hasConstants_of_empty rfl) h.valid (hv rfl)
        (h.stale_of_closed (hv rfl)) hb
    | session => exact endSession_inv h.valid hb
  · cases v <;> exact hb

/-- A stand-alone command that succeeds leaves the session unit alone and the units sound. -/
theorem standAlone_keepsInv (ha : s.a.PHASE ≠ .OPEN) {t : State} (hta : t.a = s.a)
    (htb : t.busy = s.busy) (hcc : t.cc.HasConstants) (hp : t.p.Valid) : KeepsInv (.next t) :=
  keepsInv_next <| inv_of_closed hcc hp (hta ▸ ha) (hta ▸ h.stale_of_closed ha) (htb.trans hb)

/-- A check that a command makes: it raises its error, or the rest of the command follows (R214). -/
theorem check_keepsInv {c : Prop} [Decidable c] {e : Status} {v : Voids}
    {o : Outcome State Fault Refusal} (hv : v = .cipher → s.a.PHASE ≠ .OPEN)
    (ho : ¬ c → KeepsInv o) : KeepsInv (if c then raise e v s else o) := by
  split
  · exact raise_keepsInv h hb e v hv
  · rename_i hc
    exact ho hc

theorem execCcInit_keepsInv (key nonce : List Byte) (ctr : Option Word) :
    KeepsInv (execCcInit key nonce ctr s) :=
  check_keepsInv h hb nofun fun ha => check_keepsInv h hb nofun fun _ =>
    check_keepsInv h hb nofun fun _ =>
      standAlone_keepsInv h hb ha rfl rfl (CipherUnit.hasConstants_initState _ _ _ _ _) h.valid

theorem execCcBlock_keepsInv : KeepsInv (execCcBlock s) :=
  check_keepsInv h hb nofun fun hu =>
    have ha := (not_not.mp hu).1
    check_keepsInv h hb (fun _ => ha) fun _ =>
      standAlone_keepsInv h hb ha rfl rfl (h.hasConstants.withCounter _) h.valid

theorem xorData_keepsInv (ha : s.a.PHASE ≠ .OPEN) (data : List Byte) :
    KeepsInv (xorData data s) :=
  check_keepsInv h hb (fun _ => ha) fun _ =>
    standAlone_keepsInv h hb ha rfl rfl (h.hasConstants.withCounter _) h.valid

theorem execCcXor_keepsInv (data : List Byte) : KeepsInv (execCcXor data s) :=
  check_keepsInv h hb nofun fun hu => xorData_keepsInv h hb (not_not.mp hu).1 data

theorem execCcXorb_keepsInv (data : List Byte) : KeepsInv (execCcXorb data s) :=
  check_keepsInv h hb nofun fun hu =>
    have ha := (not_not.mp hu).1
    check_keepsInv h hb (fun _ => ha) fun _ => xorData_keepsInv h hb ha data

theorem execCcReset_keepsInv : KeepsInv (execCcReset s) :=
  check_keepsInv h hb nofun fun hu =>
    standAlone_keepsInv h hb (not_not.mp hu).1 rfl rfl (h.hasConstants.withCounter _) h.valid

theorem execPInit_keepsInv (key : List Byte) : KeepsInv (execPInit key s) :=
  check_keepsInv h hb nofun fun ha => check_keepsInv h hb nofun fun _ =>
    standAlone_keepsInv h hb ha rfl rfl h.hasConstants (AuthUnit.valid_keySplit _ _ _)

theorem execPDerive_keepsInv : KeepsInv (execPDerive s) :=
  check_keepsInv h hb nofun fun hu =>
    have ha := (not_not.mp hu).1
    check_keepsInv h hb (fun _ => ha) fun _ =>
      standAlone_keepsInv h hb ha rfl rfl (h.hasConstants.withCounter _)
        (AuthUnit.valid_keySplit _ _ _)

theorem execPUpdate_keepsInv (data : List Byte) : KeepsInv (execPUpdate data s) :=
  check_keepsInv h hb nofun fun hu =>
    standAlone_keepsInv h hb (not_not.mp hu).1 rfl rfl h.hasConstants (absorb_valid h.valid data)

theorem execPFinal_keepsInv : KeepsInv (execPFinal s) :=
  check_keepsInv h hb nofun fun hu =>
    standAlone_keepsInv h hb (not_not.mp hu).1 rfl rfl h.hasConstants (h.valid.withPhase _)

theorem execAeadInit_keepsInv (key nonce : List Byte) : KeepsInv (execAeadInit key nonce s) := by
  refine check_keepsInv h hb nofun fun _ => check_keepsInv h hb nofun fun _ => keepsInv_next ?_
  rw [withCounter_initState]
  exact (openSession_inv hb key nonce _).respond hb _ _

variable (hr : s.response = none)
include hr

/-- An open session between commands, before a command has taken anything. -/
theorem State.Inv.writing_of_open (ho : s.a.PHASE = .OPEN) : s.Writing .final := by
  obtain ⟨hready, hactive⟩ := h.session ho
  obtain ⟨hcount, hplain⟩ := h.plaintext ho
  rw [hb] at hplain
  exact ⟨ho, hready, hactive, h.hasConstants, h.valid, hr, nofun, hcount, hplain⟩

theorem execAeadAad_keepsInv (data : List Byte) : KeepsInv (execAeadAad data s) := by
  refine check_keepsInv h hb nofun fun ho => check_keepsInv h hb nofun fun _ => keepsInv_next ?_
  have hw := h.writing_of_open hb hr (not_not.mp ho)
  have ht : (s.clearFresh.countAad data.length).Writing .aad := { hw with taken := fun _ => rfl }
  exact ht.writeOut_inv fun w hm => (alignWrites_mem data w hm).2.2

theorem execAeadUpdate_keepsInv (data : List Byte) : KeepsInv (execAeadUpdate data s) := by
  refine check_keepsInv h hb nofun fun ho => check_keepsInv h hb nofun fun hk =>
    check_keepsInv h hb nofun fun _ => keepsInv_next ?_
  have hw : s.clearFresh.Writing .final :=
    { h.writing_of_open hb hr (not_not.mp ho) with taken := nofun }
  have ht : (s.clearFresh.setCounter (keystreamXor s.cc.S data).2).Writing
      (.update (keystreamXor s.cc.S data).1) :=
    hw.setCounter (keystreamXor_counter_toNat s.cc.S data (not_not.mp hk)) (fun _ => rfl)
      (by simpa [Finish.plaintext] using le_blocksFor data.length)
  exact ht.writeOut_inv fun w hm => (alignWrites_mem _ w hm).2.2

theorem execAeadFinal_keepsInv : KeepsInv (execAeadFinal s) :=
  check_keepsInv h hb nofun fun ho => keepsInv_next <|
    (h.writing_of_open hb hr (not_not.mp ho)).writeOut_inv fun w hm => (alignWrites_mem _ w hm).2.2

/-- The counter check is made with the length the footer gives, which the segment does not exceed
(R176). -/
theorem execAeadDecrypt_keepsInv (buf tag : List Byte) : KeepsInv (execAeadDecrypt buf tag s) := by
  refine check_keepsInv h hb nofun fun hu => check_keepsInv h hb nofun fun _ =>
    check_keepsInv h hb nofun fun _ => check_keepsInv h hb nofun fun _ =>
    check_keepsInv h hb nofun fun hk => keepsInv_next ?_
  have hc := keystreamXor_counter_toNat s.cc.S (cipherSegment buf)
    (blocksAvail_mono (blocksFor_mono (cipherSegment_length_le buf)) (not_not.mp hk))
  have ht : (s.setCounter (keystreamXor s.cc.S (cipherSegment buf)).2).Writing
      (.decrypt (buf.take (footerAad buf))) :=
    (h.writing_of_open hb hr (not_not.mp hu).1).setCounter hc nofun (Nat.zero_le _)
  refine ht.writeOut_inv fun w hm => ?_
  obtain ⟨rfl, hne⟩ := sinkWrite_mem _ _ w hm
  exact hne

/-- Every command keeps the invariant where the block is idle and the port empty. -/
theorem exec_keepsInv (i : Instr) : KeepsInv (exec i s) :=
  match i with
  | .ccInit key nonce ctr => execCcInit_keepsInv h hb key nonce ctr
  | .ccBlock => execCcBlock_keepsInv h hb
  | .ccXor data => execCcXor_keepsInv h hb data
  | .ccXorb data => execCcXorb_keepsInv h hb data
  | .ccReset => execCcReset_keepsInv h hb
  | .pInit key => execPInit_keepsInv h hb key
  | .pDerive => execPDerive_keepsInv h hb
  | .pUpdate data => execPUpdate_keepsInv h hb data
  | .pFinal => execPFinal_keepsInv h hb
  | .aeadInit key nonce => execAeadInit_keepsInv h hb key nonce
  | .aeadAad data => execAeadAad_keepsInv h hb hr data
  | .aeadUpdate data => execAeadUpdate_keepsInv h hb hr data
  | .aeadFinal => execAeadFinal_keepsInv h hb hr
  | .aeadDecrypt buf tag => execAeadDecrypt_keepsInv h hb hr buf tag

theorem runCommand_keepsInv (t : Transaction) : KeepsInv (runCommand t s) := by
  rcases runCommand_cases t s with ⟨-, hc⟩ | ⟨-, e, -, hc⟩ | ⟨-, i, -, hc⟩ <;> rw [hc]
  · exact nofun
  · exact raise_keepsInv h hb _ _ nofun
  · exact exec_keepsInv h hb hr i

end

/-! ### The step -/

/-- Settles O16, by the cases of `step_cases`: waiting, a command, a command cut by RST, RST, and the
sink's answer to a waiting command. -/
theorem stepKeepsInvariant : Obligations.StepKeepsInvariant := by
  intro s u h hs
  rcases step_cases s u hs with ⟨-, -, rfl⟩ | ⟨hb, t, rest, -, hc⟩ | ⟨-, t, k, rest, -, hc⟩ |
    ⟨k, rest, -, rfl⟩ | ⟨x, hx, rfl⟩
  · exact h
  · exact runCommand_keepsInv (h.takeEvent rest) hb rfl t u hc
  · obtain ⟨v, -, rfl⟩ := runCut_next t k (s.takeEvent rest) u hc
    exact (rst_inv v k).withAnswers _
  · exact rst_inv _ k
  · obtain ⟨-, -, -, hw, -⟩ := h.waiting x hx
    exact (h.writing hx).drain_inv hw

end Sys2Proof.Machine
end

section
/-!
The decoder's refusals (R76, R79, R80) and the status codes (R84). Every row of the opcode map fixes
OPC and the reserved bits, so a word with an operation has that operation's OPC and reserved bits 0
(`findOp_eq_some`); and the decoder refuses exactly the illegal commands (`decode_eq_error_iff`).
-/

namespace Sys2Proof

/-! ### Words without a row -/

/-- Every row's mask covers OPC and the reserved bits, its pattern has the operation's OPC, and the
pattern's reserved bits are 0 (R76, R79). -/
theorem opcodeMap_fixed_fields : ∀ r ∈ opcodeMap,
    (r.mask.extractLsb' 0 8 = BitVec.allOnes 8 ∧ r.pattern.extractLsb' 0 8 = opCode r.op) ∧
      r.mask.extractLsb' 25 7 = BitVec.allOnes 7 ∧ r.pattern.extractLsb' 25 7 = 0 := by decide

/-- A word that matches a row has the pattern's value in each field that the row's mask covers. -/
theorem extractLsb'_eq_of_rowMatches {w : Word} {r : OpRow} {i n : Nat} (h : rowMatches w r = true)
    (hm : r.mask.extractLsb' i n = BitVec.allOnes n) :
    w.extractLsb' i n = r.pattern.extractLsb' i n := by
  have hw : w &&& r.mask = r.pattern := eq_of_beq h
  rw [← hw, BitVec.extractLsb'_and, hm, BitVec.and_allOnes]

/-- A word with an operation has that operation's OPC, and its reserved bits are 0. -/
theorem findOp_eq_some {w : Word} {op : Op} (h : findOp w = some op) :
    fieldOPC w = opCode op ∧ w.extractLsb' 25 7 = 0 := by
  obtain ⟨r, hf, rfl⟩ := Option.map_eq_some_iff.mp h
  obtain ⟨⟨hmo, hpo⟩, hmr, hpr⟩ := opcodeMap_fixed_fields r (List.mem_of_find?_eq_some hf)
  have hr : rowMatches w r = true := List.find?_some hf
  exact ⟨(extractLsb'_eq_of_rowMatches hr hmo).trans hpo,
    (extractLsb'_eq_of_rowMatches hr hmr).trans hpr⟩

/-- Every opcode is in one of the three assigned ranges of R79. -/
theorem opCode_assigned (op : Op) :
    (0x10 ≤ (opCode op).toNat ∧ (opCode op).toNat ≤ 0x14) ∨
      (0x20 ≤ (opCode op).toNat ∧ (opCode op).toNat ≤ 0x23) ∨
      (0x30 ≤ (opCode op).toNat ∧ (opCode op).toNat ≤ 0x34) := by cases op <;> decide

theorem findOp_eq_none_of_reserved {w : Word} (h : w.extractLsb' 25 7 ≠ 0) : findOp w = none :=
  Option.eq_none_iff_forall_ne_some.mpr fun _ ho => h (findOp_eq_some ho).2

theorem findOp_eq_none_of_opcode {w : Word} (h : ∀ op, fieldOPC w ≠ opCode op) : findOp w = none :=
  Option.eq_none_iff_forall_ne_some.mpr fun op ho => h op (findOp_eq_some ho).1

/-! ### Illegal commands -/

/-- The decoder refuses a transaction exactly when its word has no row or its payload fails the row's
length condition (R80, R82). -/
theorem decode_eq_error_iff (t : Transaction) :
    (∃ e, decode t = .error e) ↔
      findOp t.word = none ∨
        ∃ op, findOp t.word = some op ∧
          lengthOK op (fieldKLEN t.word) (fieldNLEN t.word) (fieldCP t.word) t.payload.length
            = false := by
  unfold decode
  cases findOp t.word with
  | none => simp
  | some op =>
    cases hl : lengthOK op (fieldKLEN t.word) (fieldNLEN t.word) (fieldCP t.word)
      t.payload.length <;> simp [hl]

end Sys2Proof

namespace Sys2Proof.Machine

open Host

/-- What presenting an illegal command does (R80): the error, which voids nothing. -/
theorem runCommand_of_error {t : Transaction} {e : Illegal} (s : State) (hw : t.wf = true)
    (hd : decode t = .error e) : runCommand t s = raise .illegalCommand .nothing s := by
  simp [runCommand, hw, hd]

/-- A block that is not busy takes the command that the host presents (R58). -/
theorem step_command {s : State} {t : Transaction} {rest : List HostEvent} (hb : s.busy = none)
    (hh : s.host = .command t :: rest) : step s = runCommand t (s.takeEvent rest) := by
  simp [step, portStep, hb, idleStep, hh]

/-- Settles O5: the step is the error IllegalCommand because the decoder refuses the command, whatever
the state; and a word with a row has an assigned OPC and no reserved bit set. -/
theorem illegalCommandChangesNothing : Obligations.IllegalCommandChangesNothing := by
  refine ⟨fun s t rest hb hh hw hill => ?_, fun w hw => ?_⟩
  · obtain ⟨e, hd⟩ := (decode_eq_error_iff t).mpr hill
    calc step s
      _ = runCommand t (s.takeEvent rest) := step_command hb hh
      _ = raise .illegalCommand .nothing (s.takeEvent rest) := runCommand_of_error _ hw hd
      _ = .next { s with host := rest, response := some ⟨.illegalCommand, []⟩ } := rfl
  · rcases hw with hr | hop
    · exact findOp_eq_none_of_reserved hr
    · refine findOp_eq_none_of_opcode fun op ho => ?_
      have ha := opCode_assigned op
      rw [← ho, fieldOPC] at ha
      omega

/-! ### The status codes -/

/-- No status has a code above that of LengthOverflow, the last of R84's table. -/
theorem Status.code_le_lengthOverflow (st : Status) :
    st.code.toNat ≤ Status.lengthOverflow.code.toNat := by cases st <;> decide

/-- Settles O6: the listed codes are computed, and LengthOverflow's 0x0A is the greatest code. -/
theorem statusCodes : Obligations.StatusCodes := ⟨rfl, Status.code_le_lengthOverflow⟩

end Sys2Proof.Machine
end

section
/-!
The ChaCha20 functions of 40_chacha20.md word by word and byte by byte (R100 to R105). The quarter
round is read through the rules of `addXorRotate`; a keystream block is read through
`slice_flatMap_enc32`; and KeystreamXor is read through `keystreamByte`, the byte of the keystream at
a position of the data, from which the involution follows without an induction of its own.
-/

namespace Sys2Proof.Machine

/-! ### The initial state -/

/-- Settles O28: the sixteen words of the literal, one by one. -/
theorem initStateWords : Obligations.InitStateWords := by
  intro key nonce ctr
  refine ⟨rfl, rfl, rfl, rfl, fun i hi => ?_, rfl, fun i hi => ?_⟩
  · interval_cases i <;> rfl
  · interval_cases i <;> rfl

/-! ### The quarter round -/

/-- The rotation of R9 is the library's. -/
theorem rotl32_eq_rotateLeft (v : Word) (n : Nat) (h : n < 32) : rotl32 v n = v.rotateLeft n := by
  rw [BitVec.rotateLeft_def, Nat.mod_eq_of_lt h, rotl32]

section
variable (x : CipherState) {a d : Fin 16} (b : Fin 16) (n : Nat)

/-- The first line of the step: word a takes the sum (R101). -/
theorem addXorRotate_sum (h : a ≠ d) : (addXorRotate x a b d n)[a] = x[a] + x[b] := by
  have hv : d.val ≠ a.val := fun e => h (Fin.ext e.symm)
  simp [addXorRotate, hv]

/-- The second line: word d is XORed with the new word a and rotated (R101). -/
theorem addXorRotate_rotated (h : a ≠ d) (hn : n < 32) :
    (addXorRotate x a b d n)[d] = (x[d] ^^^ (x[a] + x[b])).rotateLeft n := by
  have hv : a.val ≠ d.val := fun e => h (Fin.ext e)
  simp [addXorRotate, hv, rotl32_eq_rotateLeft _ n hn]

theorem addXorRotate_other {j : Fin 16} (ha : j ≠ a) (hd : j ≠ d) :
    (addXorRotate x a b d n)[j] = x[j] := by
  have hva : a.val ≠ j.val := fun e => ha (Fin.ext e.symm)
  have hvd : d.val ≠ j.val := fun e => hd (Fin.ext e.symm)
  simp [addXorRotate, hva, hvd]

end

/-- Settles O29: the rules of `addXorRotate` read each word through the four of them, and none of the
four writes any other word. -/
theorem quarterRoundSteps : Obligations.QuarterRoundSteps := by
  intro x a b c d hdist a1 d1 c1 b1 a2 d2 c2 b2 ha1 hd1 hc1 hb1 ha2 hd2 hc2 hb2
  simp only [List.nodup_cons, List.mem_cons, List.not_mem_nil, or_false, not_or] at hdist
  obtain ⟨⟨hab, hac, had⟩, ⟨hbc, hbd⟩, hcd, -⟩ := hdist
  subst ha1 hd1 hc1 hb1 ha2 hd2 hc2 hb2
  have hba : b ≠ a := Ne.symm hab
  have hca : c ≠ a := Ne.symm hac
  have hcb : c ≠ b := Ne.symm hbc
  have hdb : d ≠ b := Ne.symm hbd
  have hdc : d ≠ c := Ne.symm hcd
  have hother : ∀ j : Fin 16, j ∉ [a, b, c, d] → (quarterRound x a b c d)[j] = x[j] := by
    intro j hj
    simp only [List.mem_cons, List.not_mem_nil, or_false, not_or] at hj
    obtain ⟨hja, hjb, hjc, hjd⟩ := hj
    rw [quarterRound, addXorRotate_other _ _ _ hjc hjb, addXorRotate_other _ _ _ hja hjd,
      addXorRotate_other _ _ _ hjc hjb, addXorRotate_other _ _ _ hja hjd]
  refine ⟨?_, ?_, ?_, ?_, hother⟩ <;>
    simp [quarterRound, addXorRotate_sum, addXorRotate_rotated, addXorRotate_other, hab, hac, had,
      hba, hbd, hca, hcb, hcd, hdb, hdc, -Fin.getElem_fin]

/-! ### The keystream block -/

/-- Words written one after the other, four bytes each: the i-th four bytes are word i (R10). -/
theorem slice_flatMap_enc32 (ws : List Word) (i : Nat) (h : i < ws.length) :
    slice (ws.flatMap enc32) (4 * i) 4 = enc32 ws[i] := by
  induction ws generalizing i with
  | nil => simp at h
  | cons w ws ih =>
    have hw : (enc32 w).length = 4 := encLE_length 4 _
    cases i with
    | zero => exact slice_append_left _ _ 4 hw
    | succ i =>
      have hd : (enc32 w ++ ws.flatMap enc32).drop (4 * (i + 1))
          = (ws.flatMap enc32).drop (4 * i) := by
        rw [Nat.mul_succ, Nat.add_comm, ← hw, ← List.drop_drop, List.drop_left]
      simpa [slice, hd] using ih i (by simpa using h)

/-- Settles O31: the rounds stand in the model in this order, and the block is the words of
`chachaWords` written one after the other. -/
theorem keystreamBlockWords : Obligations.KeystreamBlockWords := by
  refine ⟨fun x c d hc hd => ?_, fun s => ⟨chachaBlock_length s, fun i => ?_⟩⟩
  · subst hc hd; rfl
  · rw [chachaBlock, slice_flatMap_enc32 _ _ (by simp), enc32]
    simp [chachaWords]

/-! ### KeystreamXor -/

/-- The keystream byte for position i of the data: byte i mod 64 of the block at counter c + i / 64
(R105). -/
def keystreamByte (s : CipherState) (i : Nat) : Byte :=
  (chachaBlock (withCounter s (counterOf s + BitVec.ofNat 32 (i / 64)))).getD (i % 64) 0

theorem keystreamByte_of_lt (s : CipherState) {i : Nat} (h : i < 64) :
    keystreamByte s i = (chachaBlock s).getD i 0 := by
  simp [keystreamByte, Nat.div_eq_of_lt h, Nat.mod_eq_of_lt h]

/-- The keystream from the second block on is that of the state with the counter one up (R104). -/
theorem keystreamByte_add_block (s : CipherState) (i : Nat) :
    keystreamByte s (i + 64) = keystreamByte (withCounter s (counterOf s + 1)) i := by
  have hc : counterOf s + BitVec.ofNat 32 ((i + 64) / 64)
      = counterOf s + 1 + BitVec.ofNat 32 (i / 64) := by
    rw [Nat.add_div_right _ (by decide), Nat.add_comm, BitVec.ofNat_add, BitVec.add_assoc]; rfl
  rw [keystreamByte, hc, Nat.add_mod_right, keystreamByte, counterOf_withCounter,
    withCounter_withCounter]

/-- The loop of R105 on bytes: one block for the first 64 bytes of the data, then the rest. -/
theorem keystreamXor_step (s : CipherState) (d : List Byte) :
    (keystreamXor s d).1 = xorBytes (d.take 64) (chachaBlock s) ++
      (keystreamXor (withCounter s (counterOf s + 1)) (d.drop 64)).1 := by
  by_cases h : d.length ≤ 64
  · rw [keystreamXor_single s d h, List.take_of_length_le h, List.drop_of_length_le h,
      keystreamXor_nil, List.append_nil]
  · have ht : (d.take 64).length = 64 := by simp; omega
    have happ := keystreamXor_append s (d.take 64) (d.drop 64) (by rw [ht])
    rwa [List.take_append_drop, keystreamXor_single s _ ht.le, keystreamXor_counter, ht] at happ

theorem xorBytes_getElem? (x k : List Byte) {i : Nat} (h : i < k.length) :
    (xorBytes x k)[i]? = x[i]?.map (· ^^^ k.getD i 0) := by
  cases hx : x[i]? <;> simp [xorBytes, List.getElem?_zipWith, hx, h]

/-- KeystreamXor byte by byte, for data of any length. -/
theorem keystreamXor_getElem? (s : CipherState) (d : List Byte) (i : Nat) :
    (keystreamXor s d).1[i]? = d[i]?.map (· ^^^ keystreamByte s i) := by
  induction i using Nat.strong_induction_on generalizing s d with
  | _ i ih =>
    rcases Nat.lt_or_ge i d.length with hd | hd
    · have hx := xorBytes_length (d.take 64) (chachaBlock s)
      rw [chachaBlock_length, List.length_take] at hx
      rw [keystreamXor_step]
      rcases Nat.lt_or_ge i 64 with hi | hi
      · rw [List.getElem?_append_left (by omega), xorBytes_getElem? _ _ (by simpa using hi),
          List.getElem?_take_of_lt hi, keystreamByte_of_lt s hi]
      · obtain ⟨j, rfl⟩ := Nat.exists_eq_add_of_le' hi
        have hj : j + 64 - (xorBytes (d.take 64) (chachaBlock s)).length = j := by omega
        rw [List.getElem?_append_right (by omega), hj, ih j (by omega), List.getElem?_drop,
          Nat.add_comm 64 j, keystreamByte_add_block]
    · rw [List.getElem?_eq_none hd, List.getElem?_eq_none (by simpa using hd)]
      rfl

/-- KeystreamXor is its own inverse, since XOR with the keystream byte is (R105). -/
theorem keystreamXor_keystreamXor (s : CipherState) (d : List Byte) :
    (keystreamXor s (keystreamXor s d).1).1 = d := by
  refine List.ext_getElem? fun i => ?_
  simp [keystreamXor_getElem?, Function.comp_def]

/-- Settles O32, from the laws of KeystreamXor's length, counter, bytes and inverse. -/
theorem keystreamXorBytes : Obligations.KeystreamXorBytes := by
  intro s d hb
  refine ⟨keystreamXor_length s d, keystreamXor_counter_toNat s d hb, fun i hi => ?_,
    keystreamXor_keystreamXor s d⟩
  rw [keystreamXor_getElem?, List.getElem?_eq_getElem hi]; rfl

end Sys2Proof.Machine
end

section
/-!
The CC_* commands (R107 to R111). What a command answers is said once for each of its outcomes: an
error that changes nothing, an error that voids the cipher context, and a success that moves the
counter (`raise_nothing`, `raise_cipher`, `setCounter_respond`); each rule then only decides its
checks, in order, the first of which all commands but CC_INIT share (`phaseCheck_fails`,
`phaseCheck_passes`).
-/

namespace Sys2Proof.Machine

open Host

/-! ### The phase and counter conditions -/

theorem sessionPhase_ne_open_iff (ph : SessionPhase) : ph ≠ .OPEN ↔ ph = .IDLE := by
  cases ph <;> decide

/-- One block is there unless the counter is at its last value (R104, R106). -/
theorem blocksAvail_one_iff (c : Word) : blocksAvail c 1 ↔ c ≠ 0xFFFFFFFF := by
  rw [blocksAvail, Config.counterMax]
  bv_omega

/-- Where a block is there, the counter goes up without a wrap (R104). -/
theorem toNat_add_one_of_blocksAvail {c : Word} (h : blocksAvail c 1) :
    (c + 1).toNat = c.toNat + 1 := by
  rw [blocksAvail, Config.counterMax] at h
  bv_omega

/-! ### The outcomes of a command -/

/-- The state effect of an error that voids nothing (R213). -/
theorem raise_nothing (e : Status) (s : State) :
    raise e .nothing s = .next { s with response := some ⟨e, []⟩ } := rfl

/-- The state effect of an error that voids the cipher context (R213). -/
theorem raise_cipher (e : Status) (s : State) :
    raise e .cipher s = .next { s with
      cc := ⟨s.cc.S, s.cc.CTR0, .EMPTY⟩
      response := some ⟨e, []⟩ } := rfl

/-- The success of a command on a constructed cipher context: only the counter word and the response
change. -/
theorem setCounter_respond {s : State} (h : s.cc.PHASE = .READY) (c : Word) (d : List Byte) :
    (s.setCounter c).respond .ok d = { s with
      cc := ⟨s.cc.S.set 12 c, s.cc.CTR0, .READY⟩
      response := some ⟨.ok, d⟩ } := by
  rw [← h]; rfl

/-! ### The phase check of CC_BLOCK, CC_XOR, CC_XORB, CC_RESET and P_DERIVE -/

/-- In a session, or without a context, the command is refused and nothing changes (R213). -/
theorem phaseCheck_fails {s : State} (h : s.a.PHASE = .OPEN ∨ s.cc.PHASE = .EMPTY)
    (o : Outcome State Fault Refusal) :
    (if ¬ cipherUsable s then raise .sequenceError .nothing s else o)
      = .next { s with response := some ⟨.sequenceError, []⟩ } := by
  have hu : ¬ cipherUsable s := fun ⟨ha, hr⟩ => by
    rcases h with h | h
    · exact ha h
    · exact absurd (h.symm.trans hr) (by decide)
  rw [if_pos hu, raise_nothing]

/-- With a context and no session, the rest of the command follows. -/
theorem phaseCheck_passes {s : State} (ha : s.a.PHASE = .IDLE) (hr : s.cc.PHASE = .READY)
    (r o : Outcome State Fault Refusal) : (if ¬ cipherUsable s then r else o) = o :=
  if_neg (not_not.mpr ⟨(sessionPhase_ne_open_iff _).mpr ha, hr⟩)

/-! ### What CC_XOR and CC_XORB share -/

/-- Data of a whole number of blocks takes that many (R110). -/
theorem blocksFor_of_aligned {n : Nat} (h : n % 64 = 0) : blocksFor n = n / 64 := by
  rw [blocksFor_eq]; omega

section
variable {data : List Byte} {s : State} {n : Nat} (hn : blocksFor data.length = n)
include hn

/-- The counter check fails on the whole request (R106). -/
theorem xorData_of_overflow (h : s.cc.S[12].toNat + n > 0xFFFFFFFF) :
    xorData data s = .next { s with
      cc := ⟨s.cc.S, s.cc.CTR0, .EMPTY⟩
      response := some ⟨.counterOverflow, []⟩ } := by
  subst hn
  exact (if_pos (Nat.not_le.mpr h)).trans (raise_cipher _ _)

/-- The blocks are there: the keystream XOR is the response, and the counter moves past them
(R105). -/
theorem xorData_of_avail (hr : s.cc.PHASE = .READY) (h : s.cc.S[12].toNat + n ≤ 0xFFFFFFFF) :
    xorData data s = .next { s with
      cc := ⟨s.cc.S.set 12 (s.cc.S[12] + BitVec.ofNat 32 n), s.cc.CTR0, .READY⟩
      response := some ⟨.ok, (keystreamXor s.cc.S data).1⟩ } := by
  have hc : s.cc.S[12] + BitVec.ofNat 32 n = (keystreamXor s.cc.S data).2 := by
    rw [keystreamXor_counter, hn]; rfl
  subst hn
  rw [hc, ← setCounter_respond hr]
  exact if_neg (not_not.mpr h)

end

/-! ### The rules -/

/-- Settles O37: the three checks of the definition, in the rule's order. -/
theorem ccInitRule : Obligations.CcInitRule := by
  refine ⟨⟨by decide, by simp [lengthOK]⟩, fun key nonce ctr s => ?_⟩
  have hclosed : s.a.PHASE = .IDLE → s.a.PHASE ≠ .OPEN := (sessionPhase_ne_open_iff _).mpr
  refine ⟨fun ho => ?_, fun hi hk => ?_, fun hi hk hn => ?_, fun hi hk hn => ?_⟩
  · exact (if_pos ho).trans (raise_nothing _ _)
  · exact (if_neg (hclosed hi)).trans ((if_pos hk).trans (raise_nothing _ _))
  · exact (if_neg (hclosed hi)).trans
      ((if_neg (not_not.mpr hk)).trans ((if_pos hn).trans (raise_nothing _ _)))
  · exact (if_neg (hclosed hi)).trans
      ((if_neg (not_not.mpr hk)).trans (if_neg (not_not.mpr hn)))

/-- Settles O38: the counter check fails at the counter's last value only, and where it holds the
counter does not wrap. -/
theorem ccBlockRule : Obligations.CcBlockRule := by
  refine ⟨⟨by decide, by simp [lengthOK]⟩, fun s => ⟨fun hu => ?_, fun hi hr hc => ?_,
    fun hi hr hc => ?_⟩⟩
  · exact phaseCheck_fails hu _
  · have hb : ¬ blocksAvail (counterOf s.cc.S) 1 := fun hb => (blocksAvail_one_iff _).mp hb hc
    exact (phaseCheck_passes hi hr _ _).trans ((if_pos hb).trans (raise_cipher _ _))
  · have hb : blocksAvail (counterOf s.cc.S) 1 := (blocksAvail_one_iff _).mpr hc
    refine ⟨?_, toNat_add_one_of_blocksAvail hb⟩
    rw [← setCounter_respond hr]
    exact (phaseCheck_passes hi hr _ _).trans (if_neg (not_not.mpr hb))

/-- Settles O39: after the phase check CC_XOR is `xorData`. -/
theorem ccXorRule : Obligations.CcXorRule := by
  refine ⟨⟨by decide, by simp [lengthOK]⟩, fun data s => ⟨fun hu => ?_, fun hi hr hc => ?_,
    fun hi hr hc => ?_⟩⟩
  · exact phaseCheck_fails hu _
  · exact (phaseCheck_passes hi hr _ _).trans (xorData_of_overflow (blocksFor_eq _) hc)
  · exact (phaseCheck_passes hi hr _ _).trans (xorData_of_avail (blocksFor_eq _) hr hc)

/-- Settles O40: the size check comes between the phase check and `xorData`, and data of a whole
number of blocks takes N / 64 of them. -/
theorem ccXorbRule : Obligations.CcXorbRule := by
  refine ⟨⟨by decide, by simp [lengthOK]⟩, fun data s => ⟨fun hu => ?_, fun hi hr hm => ?_,
    fun hi hr hm hc => ?_, fun hi hr hm hc => ?_⟩⟩
  · exact phaseCheck_fails hu _
  · exact (phaseCheck_passes hi hr _ _).trans ((if_pos hm).trans (raise_cipher _ _))
  · exact (phaseCheck_passes hi hr _ _).trans
      ((if_neg (not_not.mpr hm)).trans (xorData_of_overflow (blocksFor_of_aligned hm) hc))
  · exact (phaseCheck_passes hi hr _ _).trans
      ((if_neg (not_not.mpr hm)).trans (xorData_of_avail (blocksFor_of_aligned hm) hr hc))

/-- Settles O41: the phase check, then `setCounter`. -/
theorem ccResetRule : Obligations.CcResetRule := by
  refine ⟨⟨by decide, by simp [lengthOK]⟩, fun s => ⟨fun hu => ?_, fun hi hr => ?_⟩⟩
  · exact phaseCheck_fails hu _
  · rw [← setCounter_respond hr]
    exact phaseCheck_passes hi hr _ _

end Sys2Proof.Machine
end

section
/-!
The Poly1305 functions of 41_poly1305.md: the clamp (R140), PolyAbsorb block by block and in chunks
(R142, R143, R150), and PolyTag (R144).
-/

namespace Sys2Proof.Machine

/-! ### The clamp -/

/-- The mask of R140, byte by byte. -/
theorem clampMask_byte (k : Fin 16) : clampMask.extractLsb' (8 * k.val) 8 =
    if k.val ∈ [3, 7, 11, 15] then 0x0F else if k.val ∈ [4, 8, 12] then 0xFC else 0xFF := by
  revert k; decide

/-- The clamped value is at most the mask. -/
theorem clamp_lt (r : BitVec 128) : (clamp r).toNat < 2 ^ 124 := by
  rw [clamp, BitVec.toNat_and]
  exact Nat.lt_of_le_of_lt Nat.and_le_right (by decide)

/-- Settles O33: AND acts on each byte alone, so the bytes of the mask say what becomes of r's. -/
theorem clampBytes : Obligations.ClampBytes := fun r => ⟨clamp_lt r, fun k => by
  rw [clamp, BitVec.extractLsb'_and, clampMask_byte]⟩

/-! ### PolyAbsorb -/

/-- Data of one block, whole or short, is absorbed by one turn of the loop (R143). -/
theorem polyAbsorb_single (acc : Nat) (r : BitVec 128) {c : List Byte} (h : 1 ≤ c.length)
    (h' : c.length ≤ 16) : polyAbsorb acc r c = absorbBlock r acc c := by
  rw [polyAbsorb, blocksOf_single Config.polyBlockLen c h h', List.foldl_cons, List.foldl_nil]

/-- The appended byte 1 stands just above the bytes of the block (R142). -/
theorem blockValue_lt (c : List Byte) : blockValue c < 2 ^ (8 * c.length + 1) := by
  have hc := leNat_lt c
  rw [show 256 = 2 ^ 8 from rfl, ← pow_mul] at hc
  rw [blockValue, pow_succ]
  omega

/-- A canonical accumulator stays canonical, whatever is absorbed (R27, R143). -/
theorem polyAbsorb_canonical {acc : Nat} (r : BitVec 128) (d : List Byte) (h : acc < polyP) :
    polyAbsorb acc r d < polyP := foldl_absorbBlock_lt r _ acc h

/-- Settles O34, from what PolyAbsorb does with no bytes, with one block and with an aligned start. -/
theorem polyAbsorbBlocks : Obligations.PolyAbsorbBlocks := by
  intro acc r
  refine ⟨polyAbsorb_nil acc r, fun c h h' => ⟨polyAbsorb_single acc r h h', ?_⟩,
    fun c d hc => polyAbsorb_aligned acc r c d ?_, fun d => polyAbsorb_canonical r d⟩
  · have hexp : 8 * c.length + 1 ≤ 129 := by omega
    exact (blockValue_lt c).trans_le (Nat.pow_le_pow_right (by decide) hexp)
  · rw [hc]; rfl

/-- Settles O35: an aligned start is absorbed before the rest; and two zero bytes with r = 1 give
2^8 + 2^8 when absorbed one by one and 2^16 when absorbed as one block. -/
theorem polyChunking : Obligations.PolyChunking :=
  ⟨fun acc r x y h => (polyAbsorb_aligned acc r x y h).symm, 0, 1, [0], [0], by decide, by decide⟩

/-! ### PolyTag -/

/-- Writing a value in n bytes keeps its low 8n bits (R10). -/
theorem leNat_encLE (n v : Nat) : leNat (encLE n v) = v % 256 ^ n := by
  induction n generalizing v with
  | zero => rw [pow_zero, Nat.mod_one]; rfl
  | succ n ih => rw [encLE, leNat, ih, pow_succ', Nat.mod_mul, BitVec.toNat_ofNat]

/-- Settles O36: the encoded value is below 2^128, so the 16 bytes hold all of it. -/
theorem polyTagValue : Obligations.PolyTagValue := fun acc s =>
  ⟨polyTag_length acc s, (leNat_encLE _ _).trans (Nat.mod_mod _ _)⟩

end Sys2Proof.Machine
end

section
/-!
The P_* commands (R146 to R149). As for the CC_* commands, each rule only decides its checks; the
check that P_UPDATE and P_FINAL share is `authCheck_fails` and `authCheck_passes`.
-/

namespace Sys2Proof.Machine

open Host

/-! ### The phase check of P_UPDATE and P_FINAL -/

section
variable {s : State}

/-- In a session, or without an authenticator, the command is refused and nothing changes (R213). -/
theorem authCheck_fails (h : s.a.PHASE = .OPEN ∨ s.p.PHASE = .EMPTY)
    (o : Outcome State Fault Refusal) :
    (if ¬ authUsable s then raise .sequenceError .nothing s else o)
      = .next { s with response := some ⟨.sequenceError, []⟩ } := by
  have hu : ¬ authUsable s := fun ⟨ha, hp⟩ => by
    rcases h with h | h
    · exact ha h
    · exact absurd (h.symm.trans hp) (by decide)
  exact (if_pos hu).trans (raise_nothing _ _)

/-- With an authenticator and no session, the rest of the command follows. -/
theorem authCheck_passes (ha : s.a.PHASE = .IDLE) (hp : s.p.PHASE = .ACTIVE)
    (r o : Outcome State Fault Refusal) : (if ¬ authUsable s then r else o) = o :=
  if_neg (not_not.mpr ⟨(sessionPhase_ne_open_iff _).mpr ha, hp⟩)

end

/-! ### The key of an authenticator -/

/-- A slice that lies within a start of the bytes is one of the bytes themselves. -/
theorem slice_slice_zero (b : List Byte) {o m n : Nat} (h : o + m ≤ n) :
    slice (slice b 0 n) o m = slice b o m := by
  simp only [slice, List.drop_zero, List.drop_take, List.take_take]
  rw [min_eq_left (by omega)]

/-- KeySplit reads the first 32 bytes only (R141). -/
theorem keySplit_slice (b : List Byte) : keySplit (slice b 0 Config.keyLen) = keySplit b := by
  have hr : slice (slice b 0 Config.keyLen) 0 16 = slice b 0 16 := slice_slice_zero b (by decide)
  have hs : slice (slice b 0 Config.keyLen) 16 16 = slice b 16 16 := slice_slice_zero b (by decide)
  simp only [keySplit, le128, hr, hs]

/-- An authenticator keyed from the first 32 bytes of `b` is one keyed from `b`. -/
theorem loadAuth_slice (s : State) (b : List Byte) :
    s.loadAuth (slice b 0 Config.keyLen) = s.loadAuth b := by
  rw [State.loadAuth, keySplit_slice]; rfl

/-! ### The accumulator -/

/-- Absorbing no bytes changes nothing (R143). -/
@[simp] theorem absorb_nil (s : State) : s.absorb [] = s := by simp [State.absorb]

/-! ### The rules -/

/-- Settles O44: the two checks of the definition, in the rule's order. -/
theorem pInitRule : Obligations.PInitRule := by
  refine ⟨⟨by decide, by simp [lengthOK]⟩, fun key s => ?_⟩
  have hclosed : s.a.PHASE = .IDLE → s.a.PHASE ≠ .OPEN := (sessionPhase_ne_open_iff _).mpr
  refine ⟨fun ho => ?_, fun hi hk => ?_, fun hi hk => ?_⟩
  · exact (if_pos ho).trans (raise_nothing _ _)
  · exact (if_neg (hclosed hi)).trans ((if_pos hk).trans (raise_nothing _ _))
  · exact (if_neg (hclosed hi)).trans (if_neg (not_not.mpr hk))

/-- Settles O45: the checks are those of CC_BLOCK; the answer moves the counter as CC_BLOCK's does,
and then loads the key, of which KeySplit reads the first 32 bytes of the block. -/
theorem pDeriveRule : Obligations.PDeriveRule := by
  refine ⟨⟨by decide, by simp [lengthOK]⟩, fun s => ⟨fun hu => ?_, fun hi hr hc => ?_,
    fun hi hr hc => ?_⟩⟩
  · exact phaseCheck_fails hu _
  · have hb : ¬ blocksAvail (counterOf s.cc.S) 1 := fun hb => (blocksAvail_one_iff _).mp hb hc
    exact (phaseCheck_passes hi hr _ _).trans ((if_pos hb).trans (raise_cipher _ _))
  · have hb : blocksAvail (counterOf s.cc.S) 1 := (blocksAvail_one_iff _).mpr hc
    calc exec .pDerive s
      _ = .next (((s.setCounter (s.cc.S[12] + 1)).loadAuth
            (slice (chachaBlock s.cc.S) 0 Config.keyLen)).respond .ok []) :=
        (phaseCheck_passes hi hr _ _).trans (if_neg (not_not.mpr hb))
      _ = .next (((s.setCounter (s.cc.S[12] + 1)).respond .ok []).loadAuth
            (chachaBlock s.cc.S)) := by rw [loadAuth_slice]; rfl
      _ = _ := by rw [setCounter_respond hr]; rfl

/-- Settles O46: after the phase check the data is absorbed, and the register holds the value. -/
theorem pUpdateRule : Obligations.PUpdateRule := by
  refine ⟨⟨by decide, by simp [lengthOK]⟩, fun data s => ⟨fun hu => ?_, fun hi hp => ⟨?_, ?_, ?_⟩⟩⟩
  · exact authCheck_fails hu _
  · rw [← hp]
    exact authCheck_passes hi hp _ _
  · exact polyAbsorb_fits _ _ _ s.p.ACC.isLt
  · calc exec (.pUpdate []) s
      _ = .next ((s.absorb []).respond .ok []) := authCheck_passes hi hp _ _
      _ = .next (s.respond .ok []) := by rw [absorb_nil]

/-- Settles O47: after the phase check the tag is the response; and P.PHASE EMPTY fails the phase
check of every later P_FINAL and P_UPDATE. -/
theorem pFinalRule : Obligations.PFinalRule := by
  refine ⟨⟨by decide, by simp [lengthOK]⟩, fun s => ⟨fun hu => ?_, fun hi hp => ?_⟩⟩
  · exact authCheck_fails hu _
  · exact ⟨_, authCheck_passes hi hp _ _, rfl, authCheck_fails (.inr rfl) _,
      fun _ => authCheck_fails (.inr rfl) _⟩

end Sys2Proof.Machine
end

section
/-!
The AEAD_* commands (R172 to R176). What a command's output leaves is said once for each of the sink's
answers (`writeOut_alignWrites`, `endedBySink_writeOut`, `waitsOnSink_writeOut`), and what a command
does after its checks is an equation of its own; each rule then only decides the checks, in order.
-/

namespace Sys2Proof.Machine

open Host

/-! ### The sink's answers to a command's output -/

/-- The state after a sequence of bytes has been written and absorbed, all writes accepted, the sink's
later answers being `rest`. -/
def State.wrote (s : State) (b : List Byte) (rest : List SinkAnswer) : State :=
  { s.absorb b with
    busy := none
    sink := s.sink ++ b
    sinkAnswers := rest
    divisions := s.divisions.tail }

/-- The accumulator register holds what has been written (R27, R170). -/
theorem wrote_acc (s : State) (b : List Byte) (rest : List SinkAnswer) :
    (s.wrote b rest).p.ACC.toNat = polyAbsorb s.p.ACC.toNat s.p.R b :=
  toNat_ofNat_polyAbsorb _ _ _

/-- A sink that accepts what AlignWrite writes, in whatever division (R57, R170). -/
theorem writeOut_alignWrites {x : List Byte} {s : State} {rest : List SinkAnswer}
    (h : s.sinkAccepts (s.divided (alignWrites x)).length rest) (f : Finish) :
    s.writeOut (alignWrites x) f = (s.wrote (pad16 x) rest).finishWith f := by
  rw [writeOut_all_accepted _ f s rest h, State.divided, acceptAll_alignWrites]
  rfl

/-- Accepted writes do not read the answers to come. -/
theorem withAnswers_acceptAll (ws : List Write) (s : State) (as : List SinkAnswer) :
    (acceptAll ws s).withAnswers as = acceptAll ws (s.withAnswers as) := by
  induction ws generalizing s with
  | nil => rfl
  | cons w ws ih => exact ih (s.accepted w)

/-- What a failed write leaves, whatever the command had yet to do (R55, R56, R212, R213). -/
theorem endedBySink_drain {ws pre : List Write} {w : Write} {s : State} {e : SinkErr} {k : Nat}
    {rest : List SinkAnswer} (h : SinkFailsAt ws s pre w e k rest) (f : Finish) :
    EndedBySink s (drain ws f s) pre w e k rest := by
  obtain ⟨⟨post, rfl⟩, hs⟩ := h
  rw [drain_accepts pre _ f s _ hs, drain_fail w post f _ e k rest (by simp)]
  simp [EndedBySink, State.sinkFailed, State.fail, State.void]

theorem endedBySink_writeOut {ws pre : List Write} {w : Write} {s : State} {e : SinkErr} {k : Nat}
    {rest : List SinkAnswer} (h : SinkFailsAt (s.divided ws) s pre w e k rest) (f : Finish) :
    EndedBySink s (s.writeOut ws f) pre w e k rest :=
  endedBySink_drain (s := s.dropDivision) h f

/-- A write that is not answered: the start before it is accepted, and the command waits with the rest
(R55, R59). -/
theorem writeOut_of_stalls {ws pre post : List Write} {s : State} {rest : List SinkAnswer}
    (h : SinkStallsAt (s.divided ws) s pre post rest) (f : Finish) :
    s.writeOut ws f = (acceptAll pre (s.dropDivision.withAnswers rest)).waitOn post f := by
  obtain ⟨hws, hne, hans⟩ := h
  obtain ⟨w, ws', rfl⟩ := List.exists_cons_of_ne_nil hne
  rw [State.writeOut, hws]
  rcases hans with ⟨hs, rfl⟩ | hs
  · rw [drain_accepts pre _ f s.dropDivision [] (by simpa using hs)]
    exact drain_silent w ws' f _ (by simp)
  · rw [drain_accepts pre _ f s.dropDivision _ hs, drain_stall w ws' f _ rest (by simp),
      withAnswers_acceptAll]
    rfl

theorem waitsOnSink_writeOut {ws pre post : List Write} {s : State} {rest : List SinkAnswer}
    (h : SinkStallsAt (s.divided ws) s pre post rest) (f : Finish) :
    WaitsOnSink s (s.writeOut ws f) pre post f rest := by
  rw [writeOut_of_stalls h]
  simp [WaitsOnSink]

/-- A command that waits has not touched the cipher and session units since it began to write. -/
theorem writeOut_units_of_stalls {ws pre post : List Write} {s : State} {rest : List SinkAnswer}
    (h : SinkStallsAt (s.divided ws) s pre post rest) (f : Finish) :
    (s.writeOut ws f).cc = s.cc ∧ (s.writeOut ws f).a = s.a := by
  rw [writeOut_of_stalls h]
  simp

/-! ### The checks -/

/-- The state effect of an error that ends the session (R171, R213). -/
theorem raise_session (e : Status) (s : State) :
    raise e .session s = .next { s with
      cc := ⟨s.cc.S, s.cc.CTR0, .EMPTY⟩
      p := ⟨s.p.ACC, s.p.R, s.p.S, .EMPTY⟩
      a := ⟨.IDLE, false, s.a.AADLEN, s.a.PTLEN⟩
      response := some ⟨e, []⟩ } := rfl

section
variable {s : State}

/-- With no session, the command is refused and nothing changes (R213). -/
theorem sessionCheck_fails (h : s.a.PHASE = .IDLE) (o : Outcome State Fault Refusal) :
    (if s.a.PHASE ≠ .OPEN then raise .sequenceError .nothing s else o)
      = .next { s with response := some ⟨.sequenceError, []⟩ } :=
  (if_pos ((sessionPhase_ne_open_iff _).mpr h)).trans (raise_nothing _ _)

/-- In a session, the rest of the command follows. -/
theorem sessionCheck_passes (h : s.a.PHASE = .OPEN) (r o : Outcome State Fault Refusal) :
    (if s.a.PHASE ≠ .OPEN then r else o) = o := if_neg (not_not.mpr h)

end

/-- Where the check holds, a count takes n more bytes without a wrap (R31, R32). -/
theorem toNat_add_ofNat_of_lengthFits {len : BitVec 64} {n : Nat} (h : lengthFits len n) :
    (len + BitVec.ofNat 64 n).toNat = len.toNat + n := by
  rw [lengthFits, Config.lengthMax] at h
  rw [BitVec.toNat_add, BitVec.toNat_ofNat]
  omega

/-! ### AEAD_INIT -/

/-- A key and a nonce of the right lengths open a session in every state (R172). -/
theorem exec_aeadInit {key nonce : List Byte} (hk : key.length = 32) (hn : nonce.length = 12)
    (s : State) :
    exec (.aeadInit key nonce) s = .next ((((s.loadCipher (sessionCipher key nonce) 1).loadAuth
      (oneTimeKey key nonce)).openSession).respond .ok []) :=
  (if_neg (not_not.mpr hk)).trans (if_neg (not_not.mpr hn))

/-- Settles O48: the two checks of the definition; the engine's state is block 0's with the counter
replaced, and KeySplit reads the first 32 bytes of the block. -/
theorem aeadInitRule : Obligations.AeadInitRule := by
  refine ⟨⟨by decide, by simp [lengthOK]⟩, fun key nonce s => ⟨fun hk => ?_, fun hk hn => ?_,
    fun hk hn => ?_⟩⟩
  · exact (if_pos hk).trans (raise_nothing _ _)
  · exact (if_neg (not_not.mpr hk)).trans ((if_pos hn).trans (raise_nothing _ _))
  · rw [exec_aeadInit hk hn, sessionCipher, withCounter_initState, oneTimeKey, loadAuth_slice]
    rfl

/-! ### AEAD_AAD -/

/-- The state in which AEAD_AAD begins to write: the session is not fresh and the data is counted
(R173). -/
def State.beginAad (s : State) (data : List Byte) : State := s.clearFresh.countAad data.length

/-- After the checks, the padded data is written (R173). -/
theorem exec_aeadAad {data : List Byte} {s : State} (ho : s.a.PHASE = .OPEN)
    (hf : lengthFits s.a.AADLEN data.length) :
    exec (.aeadAad data) s = .next ((s.beginAad data).writeOut (alignWrites data) .aad) :=
  (sessionCheck_passes ho _ _).trans (if_neg (not_not.mpr hf))

/-- Settles O49: the two checks, then the sink's answers to the padded data. -/
theorem aeadAadRule : Obligations.AeadAadRule := by
  refine ⟨⟨by decide, by simp [lengthOK]⟩, fun data s => ⟨fun hi => ?_, fun ho hf => ?_,
    fun rest ho hf hs => ⟨?_, toNat_add_ofNat_of_lengthFits hf, ?_⟩, fun pre w e k rest ho hf hs => ?_,
    fun pre post rest ho hf hs => ?_⟩⟩
  · exact sessionCheck_fails hi _
  · exact (sessionCheck_passes ho _ _).trans ((if_pos (Nat.not_le.mpr hf)).trans (raise_session _ _))
  · rw [exec_aeadAad ho hf, writeOut_alignWrites (s := s.beginAad data) hs, ← ho]
    rfl
  · exact polyAbsorb_fits _ _ _ s.p.ACC.isLt
  · exact ⟨_, exec_aeadAad ho hf, endedBySink_writeOut (s := s.beginAad data) hs _⟩
  · rw [← ho]
    exact ⟨_, exec_aeadAad ho hf, waitsOnSink_writeOut (s := s.beginAad data) hs _,
      writeOut_units_of_stalls (s := s.beginAad data) hs _⟩

/-! ### AEAD_UPDATE -/

/-- The state in which AEAD_UPDATE begins to write: the session is not fresh and the counter stands
after the data's blocks (R174). -/
def State.beginUpdate (s : State) (data : List Byte) : State :=
  s.clearFresh.setCounter (keystreamXor s.cc.S data).2

/-- After the checks, the padded ciphertext is written (R174). -/
theorem exec_aeadUpdate {data : List Byte} {s : State} (ho : s.a.PHASE = .OPEN)
    (hc : blocksAvail (counterOf s.cc.S) (blocksFor data.length))
    (hf : lengthFits s.a.PTLEN data.length) :
    exec (.aeadUpdate data) s
      = .next ((s.beginUpdate data).writeOut (alignWrites (keystreamXor s.cc.S data).1)
          (.update (keystreamXor s.cc.S data).1)) :=
  (sessionCheck_passes ho _ _).trans
    ((if_neg (not_not.mpr hc)).trans (if_neg (not_not.mpr hf)))

/-- Settles O50: the three checks, then the sink's answers to the padded ciphertext, which is as long
as the plaintext. -/
theorem aeadUpdateRule : Obligations.AeadUpdateRule := by
  refine ⟨⟨by decide, by simp [lengthOK]⟩, fun data s => ?_⟩
  have hctr : s.cc.S[12] + BitVec.ofNat 32 ((data.length + 63) / 64)
      = (keystreamXor s.cc.S data).2 := (keystreamXor_counter s.cc.S data).symm
  rw [hctr]
  refine ⟨fun hi => ?_, fun ho hc => ?_, fun ho hc hf => ?_,
    fun rest ho hc hf hs => ⟨?_, toNat_add_ofNat_of_lengthFits hf, ?_⟩,
    fun pre w e k rest ho hc hf hs => ?_, fun pre post rest ho hc hf hs => ?_⟩
  · exact sessionCheck_fails hi _
  · exact (sessionCheck_passes ho _ _).trans ((if_pos (Nat.not_le.mpr hc)).trans (raise_session _ _))
  · exact (sessionCheck_passes ho _ _).trans ((if_neg (not_not.mpr hc)).trans
      ((if_pos (Nat.not_le.mpr hf)).trans (raise_session _ _)))
  · rw [exec_aeadUpdate ho hc hf, writeOut_alignWrites (s := s.beginUpdate data) hs,
      State.finishWith, keystreamXor_length, ← ho]
    rfl
  · exact polyAbsorb_fits _ _ _ s.p.ACC.isLt
  · exact ⟨_, exec_aeadUpdate ho hc hf, endedBySink_writeOut (s := s.beginUpdate data) hs _⟩
  · rw [← ho]
    exact ⟨_, exec_aeadUpdate ho hc hf, waitsOnSink_writeOut (s := s.beginUpdate data) hs _,
      writeOut_units_of_stalls (s := s.beginUpdate data) hs _⟩

/-! ### AEAD_FINAL -/

theorem footer_eq (a : SessionUnit) :
    footer a = encLE 8 a.AADLEN.toNat ++ encLE 8 a.PTLEN.toNat := rfl

@[simp] theorem footer_length (a : SessionUnit) : (footer a).length = 16 := by
  simp [footer_eq]

/-- The footer is exactly 16 bytes: no padding (R175). -/
theorem pad16_footer (a : SessionUnit) : pad16 (footer a) = footer a :=
  pad16_of_aligned _ (by simp)

theorem exec_aeadFinal {s : State} (ho : s.a.PHASE = .OPEN) :
    exec .aeadFinal s = .next (s.writeOut (alignWrites (footer s.a)) .final) :=
  sessionCheck_passes ho _ _

/-- The tag after bytes have been written is the tag over them (R144, R175). -/
theorem wrote_tag (s : State) (b : List Byte) (rest : List SinkAnswer) :
    (s.wrote b rest).tag = polyTag (polyAbsorb s.p.ACC.toNat s.p.R b) s.p.S := by
  rw [← wrote_acc s b rest]
  rfl

/-- The end of AEAD_FINAL: the tag is formed over the bytes written, and the session is ended (R171,
R175). -/
theorem wrote_finishWith_final (s : State) (b : List Byte) (rest : List SinkAnswer) :
    (s.wrote b rest).finishWith .final = { s with
      cc := ⟨s.cc.S, s.cc.CTR0, .EMPTY⟩
      p := ⟨BitVec.ofNat 130 (polyAbsorb s.p.ACC.toNat s.p.R b), s.p.R, s.p.S, .EMPTY⟩
      a := ⟨.IDLE, false, s.a.AADLEN, s.a.PTLEN⟩
      busy := none
      response := some ⟨.ok, polyTag (polyAbsorb s.p.ACC.toNat s.p.R b) s.p.S⟩
      sink := s.sink ++ b
      sinkAnswers := rest
      divisions := s.divisions.tail } := by
  rw [State.finishWith, wrote_tag]
  rfl

/-- Settles O51: the phase check, then the sink's answers to the footer. -/
theorem aeadFinalRule : Obligations.AeadFinalRule := by
  refine ⟨⟨by decide, by simp [lengthOK]⟩, fun s => ⟨fun hi => ?_, fun rest ho hs => ?_, fun hd => ?_,
    fun pre w e k rest ho hs => ?_, fun pre post rest ho hs => ?_⟩⟩
  · exact sessionCheck_fails hi _
  · rw [exec_aeadFinal ho, writeOut_alignWrites hs, pad16_footer, wrote_finishWith_final, footer_eq]
  · rw [State.divided, hd]
    exact alignWrites_of_aligned _ (by simp) (List.ne_nil_of_length_pos (by simp))
  · exact ⟨_, exec_aeadFinal ho, endedBySink_writeOut hs _⟩
  · exact ⟨_, exec_aeadFinal ho, waitsOnSink_writeOut hs _, writeOut_units_of_stalls hs _⟩

/-! ### AEAD_DECRYPT -/

/-- Eight bytes fit the 64-bit value they encode (R10). -/
theorem toNat_le64 (b : List Byte) (o : Nat) : (le64 b o).toNat = leNat (slice b o 8) := by
  have hlen : (slice b o 8).length ≤ 8 := by rw [slice_length]; exact min_le_left _ _
  have hlt : leNat (slice b o 8) < 256 ^ 8 :=
    (leNat_lt _).trans_le (Nat.pow_le_pow_right (by decide) hlen)
  rw [le64, BitVec.toNat_ofNat]
  omega

/-- A buffer that holds its frame has the whole ciphertext segment (R176). -/
theorem cipherSegment_length {buf : List Byte}
    (h : pad16len (footerAad buf) + footerPt buf ≤ buf.length - Config.polyBlockLen) :
    (cipherSegment buf).length = footerPt buf := by
  rw [cipherSegment, slice_length]
  omega

section
variable {s : State}

/-- Without a fresh session, the command is refused and nothing changes (R176, R213). -/
theorem freshCheck_fails (h : s.a.PHASE = .IDLE ∨ s.a.FRESH = false)
    (o : Outcome State Fault Refusal) :
    (if ¬ sessionFresh s then raise .sequenceError .nothing s else o)
      = .next { s with response := some ⟨.sequenceError, []⟩ } := by
  have hu : ¬ sessionFresh s := fun ⟨ho, hf⟩ => by
    rcases h with h | h
    · exact absurd (h.symm.trans ho) (by decide)
    · exact absurd (h.symm.trans hf) (by decide)
  exact (if_pos hu).trans (raise_nothing _ _)

/-- In a fresh session, the rest of the command follows. -/
theorem freshCheck_passes (ho : s.a.PHASE = .OPEN) (hf : s.a.FRESH = true)
    (r o : Outcome State Fault Refusal) : (if ¬ sessionFresh s then r else o) = o :=
  if_neg (not_not.mpr ⟨ho, hf⟩)

end

/-- The plaintext of a buffer's ciphertext segment (R176). -/
def bufferText (s : State) (buf : List Byte) : List Byte :=
  (keystreamXor s.cc.S (cipherSegment buf)).1

/-- The state in which AEAD_DECRYPT begins to write: the counter stands after the segment's blocks
(R24, R104). -/
def State.beginDecrypt (s : State) (buf : List Byte) : State :=
  s.setCounter (keystreamXor s.cc.S (cipherSegment buf)).2

/-- After the checks, the plaintext is written (R176). -/
theorem exec_aeadDecrypt {buf tag : List Byte} {s : State} (ho : s.a.PHASE = .OPEN)
    (hf : s.a.FRESH = true) (ht : bufferTag s buf = tag) (hl : Config.polyBlockLen ≤ buf.length)
    (hb : pad16len (footerAad buf) + footerPt buf ≤ buf.length - Config.polyBlockLen)
    (hc : blocksAvail (counterOf s.cc.S) (blocksFor (footerPt buf))) :
    exec (.aeadDecrypt buf tag) s
      = .next ((s.beginDecrypt buf).writeOut (sinkWrite (bufferText s buf) [])
          (.decrypt (buf.take (footerAad buf)))) :=
  (freshCheck_passes ho hf _ _).trans ((if_neg (not_not.mpr ht)).trans
    ((if_neg (Nat.not_lt.mpr hl)).trans
      ((if_neg (Nat.not_lt.mpr hb)).trans (if_neg (not_not.mpr hc)))))

/-- The sink is asked only where there is plaintext (R55, R176). -/
theorem sinkWrite_bufferText (s : State) {buf : List Byte}
    (h : pad16len (footerAad buf) + footerPt buf ≤ buf.length - Config.polyBlockLen) :
    sinkWrite (bufferText s buf) []
      = if footerPt buf = 0 then [] else [⟨bufferText s buf, []⟩] := by
  have hm : bufferText s buf = [] ↔ footerPt buf = 0 := by
    rw [← List.length_eq_zero_iff, bufferText, keystreamXor_length, cipherSegment_length h]
  simp [sinkWrite, hm]

/-- Accepted writes that feed nothing only append to the sink (R176). -/
theorem acceptAll_of_unfed (ws : List Write) (s : State) (h : ∀ w ∈ ws, w.feed = []) :
    acceptAll ws s = s.appendSink (ws.flatMap Write.bytes) := by
  have hf : ws.flatMap Write.feed = [] := List.flatMap_eq_nil_iff.mpr h
  rw [acceptAll_aligned ws s fun w hw => by rw [h w hw]; rfl, hf]
  simp [State.appendSink]

/-- A division of writes that feed nothing feeds nothing. -/
theorem divide_unfed (ns : List Nat) {ws : List Write} (h : ∀ w ∈ ws, w.feed = []) :
    ∀ w ∈ divide ns ws, w.feed = [] := by
  rw [← List.flatMap_eq_nil_iff, divide_feed, List.flatMap_eq_nil_iff]
  exact h

theorem divided_sinkWrite_unfed (s : State) (b : List Byte) :
    ∀ w ∈ s.divided (sinkWrite b []), w.feed = [] :=
  divide_unfed _ fun w hw => by rw [(sinkWrite_mem b [] w hw).1]

/-- What AEAD_DECRYPT leaves where the sink accepts the plaintext: the plaintext in the sink, the
session ended (R176). -/
theorem writeOut_plaintext {s : State} {b : List Byte} {rest : List SinkAnswer}
    (h : s.sinkAccepts (s.divided (sinkWrite b [])).length rest) (aad : List Byte) :
    s.writeOut (sinkWrite b []) (.decrypt aad) = { s with
      cc := ⟨s.cc.S, s.cc.CTR0, .EMPTY⟩
      p := ⟨s.p.ACC, s.p.R, s.p.S, .EMPTY⟩
      a := ⟨.IDLE, false, s.a.AADLEN, s.a.PTLEN⟩
      busy := none
      response := some ⟨.ok, aad⟩
      sink := s.sink ++ b
      sinkAnswers := rest
      divisions := s.divisions.tail } := by
  rw [writeOut_all_accepted _ _ s rest h, acceptAll_of_unfed _ _ (divided_sinkWrite_unfed s b),
    State.divided, divide_bytes, sinkWrite_bytes]
  rfl

/-- Settles O52: the five checks, then the sink's answers to the plaintext, which is as long as the
footer says and of which nothing is absorbed. -/
theorem aeadDecryptRule : Obligations.AeadDecryptRule := by
  refine ⟨⟨by decide, fun _ _ _ _ => decide_eq_true_iff⟩, fun buf tag s aad pt haad hpt => ?_⟩
  obtain rfl : footerAad buf = aad := (toNat_le64 _ _).trans haad.symm
  obtain rfl : footerPt buf = pt := (toNat_le64 _ _).trans hpt.symm
  refine ⟨fun hu => ?_, fun ho hf e he => ?_, fun ho hf ht hl hb hc m ws hm hws => ?_⟩
  · exact freshCheck_fails hu _
  · refine (freshCheck_passes ho hf _ _).trans ?_
    rcases he with ⟨ht, rfl⟩ | ⟨ht, hl, rfl⟩ | ⟨ht, hl, hb, rfl⟩ | ⟨ht, hl, hb, hc, rfl⟩
    · exact (if_pos ht).trans (raise_session _ _)
    · exact (if_neg (not_not.mpr ht)).trans ((if_pos hl).trans (raise_session _ _))
    · exact (if_neg (not_not.mpr ht)).trans
        ((if_neg (Nat.not_lt.mpr hl)).trans ((if_pos hb).trans (raise_session _ _)))
    · exact (if_neg (not_not.mpr ht)).trans ((if_neg (Nat.not_lt.mpr hl)).trans
        ((if_neg (Nat.not_lt.mpr hb)).trans ((if_pos (Nat.not_le.mpr hc)).trans (raise_session _ _))))
  · obtain rfl : bufferText s buf = m := hm.symm
    rw [← sinkWrite_bufferText s hb] at hws
    subst hws
    have hx := exec_aeadDecrypt ho hf ht hl hb hc
    refine ⟨fun rest hs => ?_, fun pre w e k rest hs => ?_, fun pre post rest hs => ?_⟩
    · rw [writeOut_plaintext (s := s.beginDecrypt buf) hs] at hx
      exact ⟨_, hx, rfl, rfl, rfl, rfl, rfl, rfl, rfl, rfl, rfl⟩
    · exact ⟨_, hx, endedBySink_writeOut (s := s.beginDecrypt buf) hs _⟩
    · have hpre : ∀ v ∈ pre, v.feed = [] := fun v hv =>
        divided_sinkWrite_unfed s _ v (hs.1 ▸ List.mem_append_left _ hv)
      refine ⟨_, hx, waitsOnSink_writeOut (s := s.beginDecrypt buf) hs _, ?_,
        (writeOut_units_of_stalls (s := s.beginDecrypt buf) hs _).2⟩
      rw [writeOut_of_stalls (s := s.beginDecrypt buf) hs, acceptAll_of_unfed pre _ hpre]
      rfl

end Sys2Proof.Machine
end

section
/-!
The sealed session (R177, R178). A host that issues commands which are each answered OK at once issues
them all (`issueFor_allAnswerOk`); and `Streamed` says what has been written and absorbed since a session
was opened, which AEAD_AAD and AEAD_UPDATE extend by their padded bytes and AEAD_FINAL by the footer.
-/

namespace Sys2Proof.Machine

open Host Sys2Proof.Laws.EncodedOpcode

/-! ### The zero lengths -/

/-- One block of zero bytes is absorbed from accumulator 0 (R142, R143). -/
theorem polyAbsorb_zero_block (r : BitVec 128) :
    polyAbsorb 0 r (zeros 16) = (2 ^ 128 * r.toNat) % polyP := by
  rw [polyAbsorb_single 0 r (by simp) (by simp), absorbBlock, blockValue, leNat_zeros, zeros_length,
    Nat.zero_add, Nat.zero_add]

/-- Settles O60: nothing is padded to nothing, and the footer of two zero lengths is one zero block. -/
theorem emptySessionStream : Obligations.EmptySessionStream := by
  intro key nonce
  have hs : sealStream key nonce [] [] = zeros 16 := by
    simp [sealStream, sealText, encLE_zero, zeros]
  refine ⟨hs, ?_, fun pt => ?_, fun aad => ?_⟩
  · rw [sealTag, hs, polyAbsorb_zero_block, polyP]
  · simp [sealStream]
  · simp [sealStream, sealText]

/-! ### Issuing commands -/

/-- The assembler accepts the command and the decoder reads it back (R82, R88). -/
def Issuable (i : Instr) : Prop := assemble i = some (encode i) ∧
  (encode i).wf = true ∧ decode (encode i) = .ok i

/-- The command, presented on an idle block, is answered OK in the same step. -/
structure AnswersOk (i : Instr) (s t : State) : Prop where
  next : exec i (s.takeEvent s.host) = .next t
  idle : t.busy = none
  ok : t.answeredOk = true

/-- The commands, presented one after the other, are each answered OK at once. -/
def AllAnswerOk : List Instr → State → State → Prop
  | [], s, u => s = u
  | i :: is, s, u => ∃ t, AnswersOk i s t ∧ AllAnswerOk is t u

theorem step_present {i : Instr} {s : State} (hi : Issuable i) (hb : s.busy = none) :
    step (s.present (encode i)) = exec i (s.takeEvent s.host) := by
  obtain ⟨-, hw, hd⟩ := hi
  rw [step_command (s := s.present (encode i)) hb rfl]
  simp only [runCommand, hw, hd]
  rfl

/-- The host issues the next command, which is answered OK, and goes on to the others (R89). -/
theorem issueStep_answersOk {i : Instr} {s t : State} (hi : Issuable i) (hb : s.busy = none)
    (h : AnswersOk i s t) (ts : List Transaction) (b : Bool) :
    issueStep ⟨s, encode i :: ts, b⟩ = .next ⟨t, ts, true⟩ := by
  simp [issueStep, hb, step_present hi hb, h.next, Issue.after, Issue.observe, h.ok]

/-- A host that issues commands which are each answered OK issues them all (R89). -/
theorem issueFor_allAnswerOk {is : List Instr} (hi : ∀ i ∈ is, Issuable i) {s u : State}
    (hb : s.busy = none) (h : AllAnswerOk is s u) (b : Bool) :
    ∃ y, issueFor is.length ⟨s, is.map encode, b⟩ = .next y ∧ y.left = [] ∧ y.state = u := by
  induction is generalizing s b with
  | nil => exact ⟨_, rfl, rfl, h⟩
  | cons i is ih =>
    obtain ⟨t, ht, hu⟩ := h
    obtain ⟨y, hy, hend⟩ := ih (fun j hj => hi j (List.mem_cons_of_mem _ hj)) ht.idle hu true
    refine ⟨y, ?_, hend⟩
    simp only [List.map_cons, List.length_cons, issueFor,
      issueStep_answersOk (hi i List.mem_cons_self) hb ht]
    exact hy

theorem mapM_assemble {is : List Instr} (hi : ∀ i ∈ is, Issuable i) :
    is.mapM assemble = some (is.map encode) := by
  induction is with
  | nil => rfl
  | cons i is ih =>
    simp [List.mapM_cons, (hi i List.mem_cons_self).1,
      ih fun j hj => hi j (List.mem_cons_of_mem _ hj)]

theorem issue_of_issuable {p : Pseudo} (hi : ∀ i ∈ expand p, Issuable i) (s : State) :
    issue p s = some ⟨s, (expand p).map encode, false⟩ := by
  rw [issue, Pseudo.transactions, mapM_assemble hi]
  rfl

/-! ### The commands of AEAD.SEAL are issuable -/

/-- A well-formed command is issuable where its word has its row and its operands are read back; its
lengths are those the row asks for (R78). -/
theorem issuable_of_findOp {i : Instr} (hs : Statement i) (hw : i.wf = true)
    (ht : (encode i).wf = true) (hf : findOp (encode i).word = some (opOf i))
    (ho : operandsOf (opOf i) (fieldKLEN (encode i).word) (fieldNLEN (encode i).word)
      (fieldCP (encode i).word) (encode i).payload = i) : Issuable i := by
  obtain ⟨-, -, hl⟩ := hs hw
  exact ⟨if_pos hw, ht, by simp [decode, hf, hl, ho]⟩

/-- A word without operand lengths has its operation's row (R79). -/
theorem findOp_wordOf_zero (op : Op) : findOp (wordOf op 0 0 false) = some op := by
  cases op <;> decide

theorem findOp_wordOf_aeadInit : findOp (wordOf .aeadInit 32 12 false) = some .aeadInit := by
  decide

theorem issuable_aeadInit {key nonce : List Byte} (hk : key.length = 32) (hn : nonce.length = 12) :
    Issuable (.aeadInit key nonce) := by
  have hword : (encode (.aeadInit key nonce)).word = wordOf .aeadInit 32 12 false := by
    simp [encode, hk, hn]
  refine issuable_of_findOp (aeadInit key nonce) ?_ ?_ ?_ ?_
  · simp [Instr.wf, fitsLengthField, hk, hn, Config.argMax]
  · simp [encode, Transaction.wf, hk, hn, Config.lengthMax]
  · rw [hword]
    exact findOp_wordOf_aeadInit
  · rw [hword, fieldKLEN_wordOf _ _ _ _ (by decide), fieldNLEN_wordOf _ _ _ _ (by decide)]
    simp [operandsOf, opOf, encode, slice_append_left _ _ 32 hk, slice_append_right _ _ 32 12 hk hn]

theorem issuable_aeadAad {data : List Byte} (h : data.length ≤ 2 ^ 64 - 1) :
    Issuable (.aeadAad data) :=
  issuable_of_findOp (aeadAad data) (decide_eq_true h) (decide_eq_true h)
    (findOp_wordOf_zero _) rfl

theorem issuable_aeadUpdate {data : List Byte} (h : data.length ≤ 2 ^ 64 - 1) :
    Issuable (.aeadUpdate data) :=
  issuable_of_findOp (aeadUpdate data) (decide_eq_true h) (decide_eq_true h)
    (findOp_wordOf_zero _) rfl

theorem issuable_aeadFinal : Issuable .aeadFinal :=
  issuable_of_findOp aeadFinal rfl rfl (findOp_wordOf_zero _) rfl

/-! ### The end of AEAD_FINAL -/

theorem finishWith_final_response (s : State) :
    (s.finishWith .final).response = some ⟨.ok, s.tag⟩ := rfl

/-- AEAD_FINAL ends the session (R171, R175). -/
theorem finishWith_final_phases (s : State) :
    (s.finishWith .final).a.PHASE = .IDLE ∧ (s.finishWith .final).cc.PHASE = .EMPTY ∧
      (s.finishWith .final).p.PHASE = .EMPTY := ⟨rfl, rfl, rfl⟩

/-! ### What a session has written -/

/-- Since `s₀`, on an idle block and with `n` accepting answers, exactly `x` has been written, and it
has been absorbed from accumulator 0 under the multiplier and additive key `k`. -/
structure Streamed (s₀ : State) (n : Nat) (k : BitVec 128 × BitVec 128) (x : List Byte) (s : State) :
    Prop where
  idle : s.busy = none
  host : s.host = s₀.host
  mulKey : s.p.R = k.1
  addKey : s.p.S = k.2
  sink : s.sink = s₀.sink ++ x
  acc : s.p.ACC.toNat = polyAbsorb 0 k.1 x
  aligned : x.length % 16 = 0
  answers : ∃ m, s.sinkAnswers = List.replicate m .accept ∧ n ≤ m + x.length

/-- AlignWrite's output, in whatever division, has at most one write for each byte (R57). -/
theorem divided_alignWrites_length_le (x : List Byte) (s : State) :
    (s.divided (alignWrites x)).length ≤ (pad16 x).length := by
  have h := length_le_bytes _ fun w hw => (divided_alignWrites_mem x s w hw).1
  rwa [State.divided, divide_bytes, alignWrites_bytes] at h

section
variable {s₀ s : State} {n : Nat} {k : BitVec 128 × BitVec 128} {x : List Byte}

/-- AlignWrite extends what has been written by its padded bytes (R170). -/
theorem Streamed.writeOut (h : Streamed s₀ n k x s) {y : List Byte}
    (hn : x.length + (pad16 y).length ≤ n) (f : Finish) :
    ∃ rest, s.writeOut (alignWrites y) f = (s.wrote (pad16 y) rest).finishWith f ∧
      Streamed s₀ n k (x ++ pad16 y) (s.wrote (pad16 y) rest) := by
  obtain ⟨m, hm, hle⟩ := h.answers
  have hd := divided_alignWrites_length_le y s
  have hs : s.sinkAccepts (s.divided (alignWrites y)).length
      (List.replicate (m - (s.divided (alignWrites y)).length) .accept) := by
    rw [State.sinkAccepts, hm, List.replicate_append_replicate, Nat.add_sub_cancel' (by omega)]
  refine ⟨_, writeOut_alignWrites hs f, ?_⟩
  exact {
    idle := rfl
    host := h.host
    mulKey := h.mulKey
    addKey := h.addKey
    sink := by simp [State.wrote, h.sink]
    acc := by rw [wrote_acc, h.acc, h.mulKey, polyAbsorb_aligned _ _ _ _ h.aligned]
    aligned := by
      have hx := h.aligned
      have hp := pad16len_mod y.length
      rw [List.length_append, pad16_length]
      omega
    answers := ⟨_, rfl, by rw [List.length_append]; omega⟩ }

/-- An opened session has written nothing yet (R172). -/
theorem aeadInit_answersOk {key nonce : List Byte} (hk : key.length = 32) (hn : nonce.length = 12)
    (hb : s₀.busy = none) (ha : s₀.sinkAnswers = List.replicate n .accept) :
    ∃ t, AnswersOk (.aeadInit key nonce) s₀ t ∧
      Streamed s₀ n (keySplit (oneTimeKey key nonce)) [] t ∧ t.cc.S = sessionCipher key nonce ∧
      t.a = ⟨.OPEN, true, 0, 0⟩ :=
  ⟨_, ⟨exec_aeadInit hk hn _, hb, rfl⟩, {
    idle := hb
    host := rfl
    mulKey := rfl
    addKey := rfl
    sink := (List.append_nil _).symm
    acc := (polyAbsorb_nil 0 _).symm
    aligned := rfl
    answers := ⟨n, ha, Nat.le_refl n⟩ }, rfl, rfl⟩

/-- AEAD_AAD in a session writes the padded data and counts it (R173). -/
theorem Streamed.aeadAad_answersOk (h : Streamed s₀ n k x s) {data : List Byte}
    (ho : s.a.PHASE = .OPEN) (hf : lengthFits s.a.AADLEN data.length)
    (hn : x.length + (pad16 data).length ≤ n) :
    ∃ t, AnswersOk (.aeadAad data) s t ∧ Streamed s₀ n k (x ++ pad16 data) t ∧ t.cc = s.cc ∧
      t.a = ⟨.OPEN, false, s.a.AADLEN + BitVec.ofNat 64 data.length, s.a.PTLEN⟩ := by
  have hb : Streamed s₀ n k x ((s.takeEvent s.host).beginAad data) := { h with }
  obtain ⟨rest, hw, ht⟩ := hb.writeOut hn .aad
  refine ⟨_, ⟨(exec_aeadAad (s := s.takeEvent s.host) ho hf).trans (congrArg _ hw), rfl, rfl⟩,
    { ht with }, rfl, ?_⟩
  rw [← ho]
  rfl

/-- AEAD_UPDATE in a session writes the padded ciphertext and counts the plaintext (R174). -/
theorem Streamed.aeadUpdate_answersOk (h : Streamed s₀ n k x s) {data : List Byte}
    (ho : s.a.PHASE = .OPEN) (hc : blocksAvail (counterOf s.cc.S) (blocksFor data.length))
    (hf : lengthFits s.a.PTLEN data.length)
    (hn : x.length + (pad16 (keystreamXor s.cc.S data).1).length ≤ n) :
    ∃ t, AnswersOk (.aeadUpdate data) s t ∧
      Streamed s₀ n k (x ++ pad16 (keystreamXor s.cc.S data).1) t ∧
      t.a = ⟨.OPEN, false, s.a.AADLEN, s.a.PTLEN + BitVec.ofNat 64 data.length⟩ := by
  have hb : Streamed s₀ n k x ((s.takeEvent s.host).beginUpdate data) := { h with }
  obtain ⟨rest, hw, ht⟩ := hb.writeOut hn (.update (keystreamXor s.cc.S data).1)
  refine ⟨_, ⟨(exec_aeadUpdate (s := s.takeEvent s.host) ho hc hf).trans (congrArg _ hw), rfl, rfl⟩,
    { ht with }, ?_⟩
  rw [← ho, ← keystreamXor_length s.cc.S data]
  rfl

/-- AEAD_FINAL in a session writes the footer and returns the tag over all that has been written
(R175). -/
theorem Streamed.aeadFinal_answersOk (h : Streamed s₀ n k x s) (ho : s.a.PHASE = .OPEN)
    (hn : x.length + 16 ≤ n) :
    ∃ t, AnswersOk .aeadFinal s t ∧
      t.response = some ⟨.ok, polyTag (polyAbsorb 0 k.1 (x ++ footer s.a)) k.2⟩ ∧
      t.sink = s₀.sink ++ (x ++ footer s.a) ∧ t.a.PHASE = .IDLE ∧ t.cc.PHASE = .EMPTY ∧
      t.p.PHASE = .EMPTY ∧ t.host = s₀.host := by
  have hb : Streamed s₀ n k x (s.takeEvent s.host) := { h with }
  obtain ⟨rest, hw, ht⟩ := hb.writeOut (y := footer s.a) (by simpa [pad16_footer] using hn) .final
  rw [pad16_footer] at hw ht
  obtain ⟨hpa, hpcc, hpp⟩ := finishWith_final_phases ((s.takeEvent s.host).wrote (footer s.a) rest)
  refine ⟨_, ⟨(exec_aeadFinal (s := s.takeEvent s.host) ho).trans (congrArg _ hw), rfl, rfl⟩,
    ?_, (finishWith_sink _ _).trans ht.sink, hpa, hpcc, hpp, (finishWith_host _ _).trans ht.host⟩
  rw [finishWith_final_response, State.tag, ht.acc, ht.addKey]

end

/-! ### Sealing -/

/-- The plaintext of a session fits the blocks after block 0 (R106, R177). -/
theorem blocksAvail_session {key nonce : List Byte} {n : Nat} (h : n ≤ 64 * (2 ^ 32 - 2)) :
    blocksAvail (counterOf (sessionCipher key nonce)) (blocksFor n) := by
  rw [sessionCipher, counterOf_withCounter, blocksAvail, blocksFor_eq, Config.counterMax]
  change 1 + _ ≤ _
  omega

theorem lengthFits_zero {n : Nat} (h : n ≤ 2 ^ 64 - 1) : lengthFits 0 n := by
  simpa [lengthFits, Config.lengthMax] using h

/-- What the commands of a sealed session leave (R177). -/
theorem seal_allAnswerOk {key nonce aad pt : List Byte} {s : State} {n : Nat} (hk : key.length = 32)
    (hn : nonce.length = 12) (haad : aad.length ≤ 2 ^ 64 - 1) (hpt : pt.length ≤ 64 * (2 ^ 32 - 2))
    (hb : s.busy = none) (ha : s.sinkAnswers = List.replicate n .accept)
    (hle : (sealStream key nonce aad pt).length ≤ n) :
    ∃ u, AllAnswerOk (expand (.aeadSeal key nonce aad pt)) s u ∧
      u.response = some ⟨.ok, sealTag key nonce aad pt⟩ ∧
      u.sink = s.sink ++ sealStream key nonce aad pt ∧ u.busy = none ∧
      u.a.PHASE = .IDLE ∧ u.cc.PHASE = .EMPTY ∧ u.p.PHASE = .EMPTY ∧ u.host = s.host := by
  have hlen : (pad16 aad).length + (pad16 (sealText key nonce pt)).length + 16 ≤ n := by
    simpa only [sealStream, List.length_append, encLE_length, Nat.add_assoc] using hle
  obtain ⟨t₁, h₁, hx₁, hc₁, ha₁⟩ := aeadInit_answersOk hk hn hb ha
  have hf₁ : lengthFits t₁.a.AADLEN aad.length := ha₁ ▸ lengthFits_zero haad
  obtain ⟨t₂, h₂, hx₂, hc₂, ha₂⟩ :=
    hx₁.aeadAad_answersOk (by rw [ha₁]) hf₁ (by rw [List.length_nil]; omega)
  have hS : t₂.cc.S = sessionCipher key nonce := by rw [hc₂, hc₁]
  have hf₂ : lengthFits t₂.a.PTLEN pt.length := by
    rw [ha₂, ha₁]
    exact lengthFits_zero (by omega)
  obtain ⟨t₃, h₃, hx₃, ha₃⟩ :=
    hx₂.aeadUpdate_answersOk (by rw [ha₂]) (by rw [hS]; exact blocksAvail_session hpt) hf₂
      (by rw [hS, List.nil_append]; exact (Nat.le_add_right _ 16).trans hlen)
  rw [hS] at hx₃
  obtain ⟨u, h₄, hr, hs, hend⟩ :=
    hx₃.aeadFinal_answersOk (by rw [ha₃]) (by rw [List.nil_append, List.length_append]; exact hlen)
  have haadlen : t₃.a.AADLEN.toNat = aad.length := by
    rw [ha₃, ha₂]
    exact (toNat_add_ofNat_of_lengthFits hf₁).trans (by simp [ha₁])
  have hptlen : t₃.a.PTLEN.toNat = pt.length := by
    rw [ha₃]
    exact (toNat_add_ofNat_of_lengthFits hf₂).trans (by simp [ha₂, ha₁])
  have hout : [] ++ pad16 aad ++ pad16 (keystreamXor (sessionCipher key nonce) pt).1 ++ footer t₃.a
      = sealStream key nonce aad pt := by
    simp [sealStream, sealText, footer_eq, haadlen, hptlen]
  rw [hout] at hr hs
  exact ⟨u, ⟨t₁, h₁, t₂, h₂, t₃, h₃, u, h₄, rfl⟩, hr, hs, h₄.idle, hend⟩

/-- Settles O58: the four commands are issuable and are each answered OK at once; the stream's two data
segments are padded and its footer is 16 bytes. -/
theorem sealWritesTheStream : Obligations.SealWritesTheStream := by
  intro key nonce aad pt s n hk hn haad hpt hb ha hle
  have hmod : (sealStream key nonce aad pt).length % 16 = 0 := by
    have h₁ := pad16len_mod aad.length
    have h₂ := pad16len_mod (sealText key nonce pt).length
    simp only [sealStream, List.length_append, pad16_length, encLE_length]
    omega
  have hi : ∀ i ∈ expand (.aeadSeal key nonce aad pt), Issuable i := by
    simp only [expand, List.forall_mem_cons, List.not_mem_nil, false_implies, implies_true, and_true]
    exact ⟨issuable_aeadInit hk hn, issuable_aeadAad haad, issuable_aeadUpdate (by omega),
      issuable_aeadFinal⟩
  obtain ⟨u, hu, hend⟩ := seal_allAnswerOk hk hn haad hpt hb ha hle
  obtain ⟨y, hy, hl, rfl⟩ := issueFor_allAnswerOk hi hb hu false
  exact ⟨hmod, _, y, issue_of_issuable hi s, hy, hl, hend⟩

end Sys2Proof.Machine
end

section
/-!
A sink write that fails ends its command, whatever the command had still to do (R55, R56, R212, R213).
-/

namespace Sys2Proof.Machine

/-- Settles O54, by `endedBySink_drain`: `drain` takes the accepted writes off (`drain_accepts`) and stops
at the failed one (`drain_fail`), so neither the later writes nor the command's own end are reached. -/
theorem sinkFailureEndsSession : Obligations.SinkFailureEndsSession :=
  fun _ f _ _ _ _ _ _ h => endedBySink_drain h f

end Sys2Proof.Machine
end

section
/-!
The encoding (R71 to R82, R87, R88). A row of the opcode map says which of the fields KLEN, NLEN and
CP its opcode uses (`rowMatches_iff`), so the operation of a word can be read off its fields
(`findOp_eq_some_iff`); with the fields of `wordOf` that gives one direction of the round trip, and
a word being its five fields (`word_eq_iff`) the other.
-/

namespace Sys2Proof

open Machine Laws.EncodedOpcode

/-! ### The little-endian conversions -/

/-- The bytes of the value of a byte sequence are that sequence (R10). -/
theorem encLE_leNat (b : List Byte) : encLE b.length (leNat b) = b := by
  induction b with
  | nil => rfl
  | cons x xs ih =>
    have hx := x.isLt
    have hlow : BitVec.ofNat 8 (x.toNat + 256 * leNat xs) = x :=
      BitVec.eq_of_toNat_eq (by rw [BitVec.toNat_ofNat]; omega)
    have hhigh : (x.toNat + 256 * leNat xs) / 256 = leNat xs := by omega
    rw [List.length_cons, leNat, encLE, hlow, hhigh, ih]

/-- Settles O27: in n bytes a value below 256^n is kept whole. -/
theorem littleEndianInverse : Obligations.LittleEndianInverse :=
  ⟨fun n v h => ⟨(leNat_encLE n v).trans (Nat.mod_eq_of_lt h), encLE_length n v⟩, encLE_leNat⟩

/-- The word that four bytes encode is written as these bytes (R10). -/
theorem enc32_le32 (b : List Byte) (o : Nat) (h : (slice b o 4).length = 4) :
    enc32 (le32 b o) = slice b o 4 := by
  have hlt := leNat_lt (slice b o 4)
  rw [h] at hlt
  rw [enc32, le32, BitVec.toNat_ofNat, Nat.mod_eq_of_lt (by omega)]
  simpa only [h] using encLE_leNat (slice b o 4)

/-- Reading a written word gives the word back (R10). -/
theorem ofNat_leNat_enc32 (c : Word) : BitVec.ofNat 32 (leNat (enc32 c)) = c := by
  apply BitVec.eq_of_toNat_eq
  have hc := c.isLt
  rw [enc32, leNat_encLE, BitVec.toNat_ofNat]
  omega

/-! ### A word and its fields -/

/-- A word is its five fields: OPC, KLEN, NLEN, CP and the reserved bits (R71). -/
theorem word_eq_iff (v w : Word) : v = w ↔
    v.extractLsb' 0 8 = w.extractLsb' 0 8 ∧ v.extractLsb' 25 7 = w.extractLsb' 25 7 ∧
      v.extractLsb' 24 1 = w.extractLsb' 24 1 ∧ v.extractLsb' 16 8 = w.extractLsb' 16 8 ∧
        v.extractLsb' 8 8 = w.extractLsb' 8 8 := by
  refine ⟨fun h => by simp [h], fun ⟨h0, h25, h24, h16, h8⟩ => BitVec.eq_of_toNat_eq ?_⟩
  simp only [← BitVec.toNat_inj, BitVec.extractLsb'_toNat, Nat.shiftRight_eq_div_pow] at *
  omega

/-! ### The opcode map -/

/-- The opcode uses the CP bit (R75, R77). -/
def Op.usesCp : Op → Bool
  | .ccInit => true
  | _ => false

/-- The opcode uses the field NLEN (R74, R77). -/
def Op.usesNlen : Op → Bool
  | .ccInit | .aeadInit => true
  | _ => false

/-- The opcode uses the field KLEN (R73, R77). -/
def Op.usesKlen : Op → Bool
  | .ccInit | .aeadInit | .pInit => true
  | _ => false

/-- A row's mask covers the fields its opcode does not use, and its pattern is 0 outside OPC (R77,
R79). -/
theorem opcodeMap_operand_fields : ∀ r ∈ opcodeMap,
    (r.mask.extractLsb' 24 1 = (if r.op.usesCp then 0 else BitVec.allOnes 1) ∧
      r.pattern.extractLsb' 24 1 = 0) ∧
    (r.mask.extractLsb' 16 8 = (if r.op.usesNlen then 0 else BitVec.allOnes 8) ∧
      r.pattern.extractLsb' 16 8 = 0) ∧
    (r.mask.extractLsb' 8 8 = (if r.op.usesKlen then 0 else BitVec.allOnes 8) ∧
      r.pattern.extractLsb' 8 8 = 0) := by decide

/-- A field under the mask of a row is 0 where the row does not use it, and free where it does. -/
theorem and_fieldMask_eq_zero_iff {n : Nat} (x : BitVec n) (used : Bool) :
    x &&& (if used then 0 else BitVec.allOnes n) = 0 ↔ (used = false → x = 0) := by
  cases used <;> simp

/-- Which words a row of the map matches: those with its OPC whose reserved bits and unused fields
are 0 (R76, R77, R79). -/
theorem rowMatches_iff {w : Word} {r : OpRow} (hr : r ∈ opcodeMap) :
    rowMatches w r = true ↔ fieldOPC w = opCode r.op ∧ w.extractLsb' 25 7 = 0 ∧
      (r.op.usesCp = false → w.extractLsb' 24 1 = 0) ∧
      (r.op.usesNlen = false → w.extractLsb' 16 8 = 0) ∧
      (r.op.usesKlen = false → w.extractLsb' 8 8 = 0) := by
  obtain ⟨⟨hmo, hpo⟩, hmr, hpr⟩ := opcodeMap_fixed_fields r hr
  obtain ⟨⟨hmc, hpc⟩, ⟨hmn, hpn⟩, hmk, hpk⟩ := opcodeMap_operand_fields r hr
  rw [rowMatches, beq_iff_eq, word_eq_iff]
  simp only [BitVec.extractLsb'_and, hmo, hpo, hmr, hpr, hmc, hpc, hmn, hpn, hmk, hpk,
    BitVec.and_allOnes, and_fieldMask_eq_zero_iff, fieldOPC]

/-- No two rows have the same opcode (R79). -/
theorem opcodeMap_opCode_inj : ∀ q ∈ opcodeMap, ∀ r ∈ opcodeMap, opCode q.op = opCode r.op → q = r := by
  decide

/-- Every operation has a row (R79). -/
theorem exists_row (op : Op) : ∃ r ∈ opcodeMap, r.op = op := by cases op <;> decide

/-- Two rows that match the same word are the same, because both have the word's OPC (R79). -/
theorem row_eq_of_rowMatches {w : Word} {q r : OpRow} (hq : q ∈ opcodeMap) (hr : r ∈ opcodeMap)
    (hwq : rowMatches w q = true) (hwr : rowMatches w r = true) : q = r :=
  have hopq : fieldOPC w = opCode q.op := ((rowMatches_iff hq).mp hwq).1
  have hopr : fieldOPC w = opCode r.op := ((rowMatches_iff hr).mp hwr).1
  opcodeMap_opCode_inj q hq r hr (hopq.symm.trans hopr)

/-- The operation of a word is that of the row it matches. -/
theorem findOp_eq_some_iff_rowMatches {w : Word} {r : OpRow} (hr : r ∈ opcodeMap) :
    findOp w = some r.op ↔ rowMatches w r = true := by
  constructor
  · intro h
    obtain ⟨q, hq, he⟩ := Option.map_eq_some_iff.mp h
    obtain rfl := opcodeMap_opCode_inj q (List.mem_of_find?_eq_some hq) r hr (congrArg opCode he)
    exact List.find?_some hq
  · intro h
    obtain ⟨q, hq⟩ := Option.isSome_iff_exists.mp (List.find?_isSome.mpr ⟨r, hr, h⟩)
    obtain rfl := row_eq_of_rowMatches (List.mem_of_find?_eq_some hq) hr (List.find?_some hq) h
    simp [findOp, hq]

/-- The operation of a word, read off its fields (R76, R77, R79). -/
theorem findOp_eq_some_iff {w : Word} {op : Op} :
    findOp w = some op ↔ fieldOPC w = opCode op ∧ w.extractLsb' 25 7 = 0 ∧
      (op.usesCp = false → w.extractLsb' 24 1 = 0) ∧ (op.usesNlen = false → w.extractLsb' 16 8 = 0) ∧
      (op.usesKlen = false → w.extractLsb' 8 8 = 0) := by
  obtain ⟨r, hr, rfl⟩ := exists_row op
  rw [findOp_eq_some_iff_rowMatches hr, rowMatches_iff hr]

/-- The opcodes that use neither KLEN nor NLEN nor CP are assigned (R79). -/
theorem exists_opCode_eq : ∀ c ∈ ([0x11, 0x12, 0x13, 0x14, 0x21, 0x22, 0x23, 0x31, 0x32, 0x33, 0x34] :
    List (BitVec 8)), ∃ op, c = opCode op := by
  simp only [List.forall_mem_cons]
  exact ⟨⟨.ccBlock, rfl⟩, ⟨.ccXor, rfl⟩, ⟨.ccXorb, rfl⟩, ⟨.ccReset, rfl⟩, ⟨.pDerive, rfl⟩,
    ⟨.pUpdate, rfl⟩, ⟨.pFinal, rfl⟩, ⟨.aeadAad, rfl⟩, ⟨.aeadUpdate, rfl⟩, ⟨.aeadFinal, rfl⟩,
    ⟨.aeadDecrypt, rfl⟩, nofun⟩

/-- Settles O3: the rows are disjoint because each has its own OPC, and the operations fall into the
four groups by the fields they use. -/
theorem wordsOfTheOpcodeMap : Obligations.WordsOfTheOpcodeMap := by
  refine ⟨fun w q r hq hr => row_eq_of_rowMatches hq hr, fun w => ?_⟩
  have hops : (findOp w).isSome = true ↔ ∃ op, findOp w = some op := Option.isSome_iff_exists
  simp only [hops, findOp_eq_some_iff, fieldOPC]
  constructor
  · rintro ⟨op, hop, hres, hcp, hn, hk⟩
    refine ⟨hres, ?_⟩
    cases op <;> simp_all [opCode, Op.usesCp, Op.usesNlen, Op.usesKlen]
  · rintro ⟨hres, h | ⟨h, hcp⟩ | ⟨h, hcp, hn⟩ | ⟨h, hcp, hn, hk⟩⟩
    · exact ⟨.ccInit, h, hres, nofun, nofun, nofun⟩
    · exact ⟨.aeadInit, h, hres, fun _ => hcp, nofun, nofun⟩
    · exact ⟨.pInit, h, hres, fun _ => hcp, fun _ => hn, nofun⟩
    · obtain ⟨op, hop⟩ := exists_opCode_eq _ h
      exact ⟨op, hop, hres, fun _ => hcp, fun _ => hn, fun _ => hk⟩

/-! ### Encoding, then decoding -/

theorem extractLsb'_cp_eq_zero_iff (w : Word) : w.extractLsb' 24 1 = 0 ↔ fieldCP w = false := by
  rw [BitVec.eq_of_getLsbD_eq_iff]
  simp [fieldCP]

theorem extractLsb'_nlen_eq_zero_iff (w : Word) : w.extractLsb' 16 8 = 0 ↔ fieldNLEN w = 0 := by
  rw [← BitVec.toNat_inj]; rfl

theorem extractLsb'_klen_eq_zero_iff (w : Word) : w.extractLsb' 8 8 = 0 ↔ fieldKLEN w = 0 := by
  rw [← BitVec.toNat_inj]; rfl

/-- The operand fields are ones that a word of this operation can have: the lengths fit their
fields, and what the operation does not use is 0 (R73, R74, R77). -/
structure Op.Fields (op : Op) (k n : Nat) (c : Bool) : Prop where
  klen : k ≤ 255
  nlen : n ≤ 255
  unusedCp : op.usesCp = false → c = false
  unusedNlen : op.usesNlen = false → n = 0
  unusedKlen : op.usesKlen = false → k = 0

/-- A word written for an operation has that operation's row. -/
theorem findOp_wordOf {op : Op} {k n : Nat} {c : Bool} (h : op.Fields k n c) :
    findOp (wordOf op k n c) = some op := by
  rw [findOp_eq_some_iff, extractLsb'_cp_eq_zero_iff, extractLsb'_nlen_eq_zero_iff,
    extractLsb'_klen_eq_zero_iff, fieldCP_wordOf, fieldNLEN_wordOf _ _ _ _ h.nlen,
    fieldKLEN_wordOf _ _ _ _ h.klen]
  exact ⟨fieldOPC_wordOf _ _ _ _, reserved_wordOf _ _ _ _, h.unusedCp, h.unusedNlen, h.unusedKlen⟩

/-- A word that has a row is the one written from its fields: no bit of it is dropped (R71, R77). -/
theorem fields_of_findOp {w : Word} {op : Op} (h : findOp w = some op) :
    op.Fields (fieldKLEN w) (fieldNLEN w) (fieldCP w) ∧
      w = wordOf op (fieldKLEN w) (fieldNLEN w) (fieldCP w) := by
  rw [findOp_eq_some_iff, extractLsb'_cp_eq_zero_iff, extractLsb'_nlen_eq_zero_iff,
    extractLsb'_klen_eq_zero_iff] at h
  obtain ⟨hop, hres, hcp, hn, hk⟩ := h
  have hklen : fieldKLEN w ≤ 255 := Nat.le_of_lt_succ (w.extractLsb' 8 8).isLt
  have hnlen : fieldNLEN w ≤ 255 := Nat.le_of_lt_succ (w.extractLsb' 16 8).isLt
  refine ⟨⟨hklen, hnlen, hcp, hn, hk⟩, (word_eq_iff _ _).mpr ⟨?_, ?_, ?_, ?_, ?_⟩⟩
  · exact hop.trans (fieldOPC_wordOf _ _ _ _).symm
  · exact hres.trans (reserved_wordOf _ _ _ _).symm
  · have hbit := fieldCP_wordOf op (fieldKLEN w) (fieldNLEN w) (fieldCP w)
    rw [BitVec.eq_of_getLsbD_eq_iff]
    simpa [fieldCP] using hbit.symm
  · exact BitVec.eq_of_toNat_eq (fieldNLEN_wordOf op (fieldKLEN w) _ (fieldCP w) hnlen).symm
  · exact BitVec.eq_of_toNat_eq (fieldKLEN_wordOf op _ (fieldNLEN w) (fieldCP w) hklen).symm

/-- The decoder accepts exactly the transactions whose word has a row and whose payload meets the
row's length condition, and cuts the payload into the operands (R82). -/
theorem decode_eq_ok_iff {t : Transaction} {i : Instr} : decode t = .ok i ↔
    ∃ op, findOp t.word = some op ∧
      lengthOK op (fieldKLEN t.word) (fieldNLEN t.word) (fieldCP t.word) t.payload.length = true ∧
      operandsOf op (fieldKLEN t.word) (fieldNLEN t.word) (fieldCP t.word) t.payload = i := by
  unfold decode
  cases findOp t.word with
  | none => simp
  | some op =>
    cases hl : lengthOK op (fieldKLEN t.word) (fieldNLEN t.word) (fieldCP t.word)
      t.payload.length <;> simp [hl]

/-- The key length that an instruction announces in its word (R73). -/
def klenOf : Instr → Nat
  | .ccInit key _ _ | .pInit key | .aeadInit key _ => key.length
  | _ => 0

/-- The nonce length that it announces (R74). -/
def nlenOf : Instr → Nat
  | .ccInit _ nonce _ | .aeadInit _ nonce => nonce.length
  | _ => 0

/-- Whether it announces a counter (R75). -/
def cpOf : Instr → Bool
  | .ccInit _ _ ctr => ctr.isSome
  | _ => false

theorem encode_word (i : Instr) : (encode i).word = wordOf (opOf i) (klenOf i) (nlenOf i) (cpOf i) := by
  cases i with
  | ccInit key nonce ctr => cases ctr <;> rfl
  | _ => rfl

/-- What a well-formed instruction announces fits its word (R73, R74, R77). -/
theorem fields_of_wf {i : Instr} (h : i.wf = true) :
    (opOf i).Fields (klenOf i) (nlenOf i) (cpOf i) := by
  cases i with
  | ccInit key nonce ctr =>
    obtain ⟨hk, hn⟩ := Bool.and_eq_true_iff.mp h
    exact ⟨of_decide_eq_true hk, of_decide_eq_true hn, nofun, nofun, nofun⟩
  | aeadInit key nonce =>
    obtain ⟨hk, hn⟩ := Bool.and_eq_true_iff.mp h
    exact ⟨of_decide_eq_true hk, of_decide_eq_true hn, fun _ => rfl, nofun, nofun⟩
  | pInit key =>
    exact ⟨of_decide_eq_true h, Nat.zero_le _, fun _ => rfl, fun _ => rfl, nofun⟩
  | _ => exact ⟨Nat.zero_le _, Nat.zero_le _, fun _ => rfl, fun _ => rfl, fun _ => rfl⟩

/-- The word and the payload of every instruction have the operation's opcode and length (R78, R79).
-/
theorem encoded_statement (i : Instr) : Statement i :=
  match i with
  | .ccInit key nonce ctr => ccInit key nonce ctr
  | .ccBlock => ccBlock
  | .ccXor data => ccXor data
  | .ccXorb data => ccXorb data
  | .ccReset => ccReset
  | .pInit key => pInit key
  | .pDerive => pDerive
  | .pUpdate data => pUpdate data
  | .pFinal => pFinal
  | .aeadInit key nonce => aeadInit key nonce
  | .aeadAad data => aeadAad data
  | .aeadUpdate data => aeadUpdate data
  | .aeadFinal => aeadFinal
  | .aeadDecrypt buf tag => aeadDecrypt buf tag

theorem slice_zero_length (p : List Byte) : slice p 0 p.length = p := by simp [slice]

/-- The operands cut from an instruction's payload are the instruction's (R78, R87). -/
theorem operandsOf_encode {i : Instr} (h : i.wf = true) :
    operandsOf (opOf i) (klenOf i) (nlenOf i) (cpOf i) (encode i).payload = i := by
  cases i with
  | ccInit key nonce ctr =>
    cases ctr with
    | none =>
      simp [opOf, klenOf, nlenOf, cpOf, encode, operandsOf, slice_append_left,
        slice_append_right key nonce _ _ rfl rfl]
    | some c =>
      have hc : slice (key ++ nonce ++ enc32 c) (key.length + nonce.length) 4 = enc32 c :=
        slice_append_right _ _ _ _ (by simp) rfl
      have hk : slice (key ++ nonce ++ enc32 c) 0 key.length = key := by
        rw [List.append_assoc, slice_append_left _ _ _ rfl]
      simp only [opOf, klenOf, nlenOf, cpOf, encode, operandsOf, Option.isSome, if_true, le32, hc, hk,
        slice_append_middle key nonce _ _ _ rfl rfl, ofNat_leNat_enc32]
  | pInit key => exact congrArg Instr.pInit (slice_zero_length key)
  | aeadInit key nonce =>
    exact congrArg₂ Instr.aeadInit (slice_append_left _ _ _ rfl) (slice_append_right _ _ _ _ rfl rfl)
  | aeadDecrypt buf tag =>
    obtain ⟨ht, -⟩ := Bool.and_eq_true_iff.mp h
    have ht : tag.length = Config.tagLen := of_decide_eq_true ht
    have hb : (buf ++ tag).length - Config.tagLen = buf.length := by
      rw [List.length_append, ht, Nat.add_sub_cancel]
    simp only [opOf, encode, operandsOf, hb, slice_append_left _ _ _ rfl,
      slice_append_right _ _ _ _ rfl ht]
  | _ => rfl

/-- Settles O1: the word has the operation's row, the payload has the row's length, and cutting it
gives the operands back. -/
theorem encodedInstructionsDecode : Obligations.EncodedInstructionsDecode := by
  intro i h
  have hf := fields_of_wf h
  obtain ⟨-, -, hl⟩ := encoded_statement i h
  have ho := operandsOf_encode h
  rw [decode_eq_ok_iff]
  refine ⟨opOf i, ?_, hl, ?_⟩
  · rw [encode_word, findOp_wordOf hf]
  · rw [encode_word, fieldKLEN_wordOf _ _ _ _ hf.klen, fieldNLEN_wordOf _ _ _ _ hf.nlen,
      fieldCP_wordOf, ho]

/-! ### Decoding, then encoding -/

/-- Two slices that follow each other. -/
theorem slice_append_slice (p : List Byte) (m n : Nat) :
    slice p 0 m ++ slice p m n = slice p 0 (m + n) := by
  simp [slice, List.take_add]

/-- A key and a nonce that the payload holds are cut out whole. -/
theorem length_slices {p : List Byte} {k n : Nat} (h : k + n ≤ p.length) :
    (slice p 0 k).length = k ∧ (slice p k n).length = n := by
  rw [slice_length, slice_length]
  omega

/-- Nothing of a payload is dropped: what the operands encode to is the word and the payload they
were cut from (R78). -/
theorem encode_operandsOf {op : Op} {k n : Nat} {c : Bool} {p : List Byte} (h : op.Fields k n c)
    (hl : lengthOK op k n c p.length = true) :
    encode (operandsOf op k n c p) = ⟨wordOf op k n c, p⟩ := by
  obtain ⟨-, -, hcp, hn, hk⟩ := h
  have hall : ∀ j, p.length = j → slice p 0 j = p := fun j hj => hj ▸ slice_zero_length p
  cases op with
  | ccInit =>
    cases c with
    | false =>
      have hp : p.length = k + n := by simpa [lengthOK] using hl
      obtain ⟨hkey, hnonce⟩ := length_slices hp.ge
      simp [operandsOf, encode, hkey, hnonce, slice_append_slice, hall _ hp]
    | true =>
      have hp : p.length = k + n + 4 := by simpa [lengthOK, Nat.add_assoc] using hl
      obtain ⟨hkey, hnonce⟩ := length_slices ((Nat.le_add_right _ 4).trans hp.ge)
      obtain ⟨-, hctr⟩ := length_slices hp.ge
      simp [operandsOf, encode, hkey, hnonce, enc32_le32 _ _ hctr, slice_append_slice, hall _ hp]
  | aeadInit =>
    obtain rfl := hcp rfl
    have hp : p.length = k + n := by simpa [lengthOK] using hl
    obtain ⟨hkey, hnonce⟩ := length_slices hp.ge
    simp [operandsOf, encode, hkey, hnonce, slice_append_slice, hall _ hp]
  | pInit =>
    obtain ⟨rfl, rfl⟩ : n = 0 ∧ c = false := ⟨hn rfl, hcp rfl⟩
    have hp : p.length = k := by simpa [lengthOK] using hl
    simp [operandsOf, encode, hall _ hp, hp]
  | aeadDecrypt =>
    obtain ⟨rfl, rfl, rfl⟩ : k = 0 ∧ n = 0 ∧ c = false := ⟨hk rfl, hn rfl, hcp rfl⟩
    have hp : Config.tagLen ≤ p.length := of_decide_eq_true hl
    simp [operandsOf, encode, slice_append_slice, Nat.sub_add_cancel hp, slice_zero_length]
  | ccBlock | ccReset | pDerive | pFinal | aeadFinal =>
    obtain ⟨rfl, rfl, rfl⟩ : k = 0 ∧ n = 0 ∧ c = false := ⟨hk rfl, hn rfl, hcp rfl⟩
    obtain rfl : p = [] := List.length_eq_zero_iff.mp (by simpa [lengthOK] using hl)
    rfl
  | ccXor | ccXorb | pUpdate | aeadAad | aeadUpdate =>
    obtain ⟨rfl, rfl, rfl⟩ : k = 0 ∧ n = 0 ∧ c = false := ⟨hk rfl, hn rfl, hcp rfl⟩
    rfl

theorem slice_length_le (p : List Byte) (o n : Nat) : (slice p o n).length ≤ n := by
  rw [slice_length]; exact min_le_left _ _

/-- The operands of a decoded transaction can be encoded (R70, R73, R74, R78). -/
theorem operandsOf_wf {op : Op} {k n : Nat} {c : Bool} {p : List Byte} (h : op.Fields k n c)
    (hl : lengthOK op k n c p.length = true) (hp : p.length ≤ Config.lengthMax) :
    (operandsOf op k n c p).wf = true := by
  have hkey : fitsLengthField (slice p 0 k) = true :=
    decide_eq_true ((slice_length_le _ _ _).trans h.klen)
  have hnonce : fitsLengthField (slice p k n) = true :=
    decide_eq_true ((slice_length_le _ _ _).trans h.nlen)
  cases op with
  | ccInit | aeadInit => exact Bool.and_eq_true_iff.mpr ⟨hkey, hnonce⟩
  | pInit => exact hkey
  | aeadDecrypt =>
    have ht : Config.tagLen ≤ p.length := of_decide_eq_true hl
    refine Bool.and_eq_true_iff.mpr ⟨decide_eq_true ?_, decide_eq_true ?_⟩
    · rw [slice_length]; omega
    · rwa [slice_append_slice, Nat.sub_add_cancel ht, slice_zero_length]
  | ccXor | ccXorb | pUpdate | aeadAad | aeadUpdate => exact decide_eq_true hp
  | _ => rfl

/-- Settles O2: the word is the one written from its fields, and the payload is its operands put
together again. -/
theorem decodedTransactionsEncode : Obligations.DecodedTransactionsEncode := by
  intro t i ht hd
  obtain ⟨op, hop, hl, rfl⟩ := decode_eq_ok_iff.mp hd
  obtain ⟨hf, hw⟩ := fields_of_findOp hop
  refine ⟨operandsOf_wf hf hl (of_decide_eq_true ht), ?_⟩
  rw [encode_operandsOf hf hl, ← hw]

/-- Settles O4: each of the five transactions is the encoding of its instruction. -/
theorem specWordsDecode : Obligations.SpecWordsDecode :=
  have decoded : ∀ (t : Transaction) (i : Instr), i.wf = true → encode i = t → decode t = .ok i :=
    fun _ i hw he => he ▸ encodedInstructionsDecode i hw
  ⟨decoded _ _ (by decide) (by decide), decoded _ _ (by decide) (by decide),
    decoded _ _ (by decide) (by decide), decoded _ _ (by decide) (by decide),
    decoded _ _ (by decide) (by decide)⟩

end Sys2Proof
end

section
/-!
What a command does, said once for the fourteen commands (`Does`, `exec_does`): it answers at once,
with an error or with OK, or it offers its output to the sink. What every command keeps follows by
the cases of `Does`, with the frame of `State.writeOut` for the sink's part.
-/

namespace Sys2Proof.Machine

open Host

/-! ### The plan of a command -/

/-- What a command does after its checks: it answers, or it offers its output to the sink (R11,
R55). -/
inductive Plan where
  /-- The state before the response, and the response. -/
  | answer (t : State) (e : Status) (d : List Byte)
  /-- The state before the first write, the writes, and the end of the command. -/
  | write (t : State) (ws : List Write) (f : Finish)

/-- A plan carried out, the sink's answers to come being `as`. -/
def Plan.run (as : List SinkAnswer) : Plan → State
  | .answer t e d => (t.withAnswers as).respond e d
  | .write t ws f => (t.withAnswers as).writeOut ws f

/-- The errors other than SinkError, which only a write gives (R211, R212). -/
def Status.isError : Status → Prop
  | .ok | .sinkError => False
  | _ => True

/-- The context that an error of the command can void: nothing, the cipher context for the commands
that generate blocks outside a session, and the session for the AEAD commands (R213). -/
def errorVoids : Instr → Voids
  | .ccBlock | .ccXor _ | .ccXorb _ | .pDerive => .cipher
  | .aeadAad _ | .aeadUpdate _ | .aeadDecrypt _ _ => .session
  | _ => .nothing

/-- What each command can do: an error, or its own effect (R107 to R111, R146 to R149, R172 to
R176). -/
inductive Does : Instr → State → Plan → Prop where
  | error {i : Instr} {s : State} (e : Status) (v : Voids) (he : e.isError)
      (hv : v = .nothing ∨ v = errorVoids i) :
      Does i s (.answer (s.void v) e [])
  | ccInit {s : State} (key nonce : List Byte) (ctr : Option Word) :
      Does (.ccInit key nonce ctr) s
        (.answer (s.loadCipher (initState key nonce (ctr.getD 0)) (ctr.getD 0)) .ok [])
  | ccBlock {s : State} (hc : blocksAvail (counterOf s.cc.S) 1) :
      Does .ccBlock s (.answer (s.setCounter (counterOf s.cc.S + 1)) .ok (chachaBlock s.cc.S))
  | ccXor {s : State} {data : List Byte}
      (hc : blocksAvail (counterOf s.cc.S) (blocksFor data.length)) :
      Does (.ccXor data) s
        (.answer (s.setCounter (keystreamXor s.cc.S data).2) .ok (keystreamXor s.cc.S data).1)
  | ccXorb {s : State} {data : List Byte}
      (hc : blocksAvail (counterOf s.cc.S) (blocksFor data.length)) :
      Does (.ccXorb data) s
        (.answer (s.setCounter (keystreamXor s.cc.S data).2) .ok (keystreamXor s.cc.S data).1)
  | ccReset {s : State} : Does .ccReset s (.answer (s.setCounter s.cc.CTR0) .ok [])
  | pInit {s : State} (key : List Byte) : Does (.pInit key) s (.answer (s.loadAuth key) .ok [])
  | pDerive {s : State} (hc : blocksAvail (counterOf s.cc.S) 1) :
      Does .pDerive s (.answer ((s.setCounter (counterOf s.cc.S + 1)).loadAuth
        (slice (chachaBlock s.cc.S) 0 Config.keyLen)) .ok [])
  | pUpdate {s : State} (data : List Byte) : Does (.pUpdate data) s (.answer (s.absorb data) .ok [])
  | pFinal {s : State} : Does .pFinal s (.answer s.exhaustAuth .ok s.tag)
  | aeadInit {s : State} (key nonce : List Byte) :
      Does (.aeadInit key nonce) s (.answer (((s.loadCipher
        (withCounter (initState key nonce 0) 1) 1).loadAuth (oneTimeKey key nonce)).openSession) .ok [])
  | aeadAad {s : State} (data : List Byte) :
      Does (.aeadAad data) s (.write (s.beginAad data) (alignWrites data) .aad)
  | aeadUpdate {s : State} {data : List Byte}
      (hc : blocksAvail (counterOf s.cc.S) (blocksFor data.length)) :
      Does (.aeadUpdate data) s (.write (s.beginUpdate data)
        (alignWrites (keystreamXor s.cc.S data).1) (.update (keystreamXor s.cc.S data).1))
  | aeadFinal {s : State} : Does .aeadFinal s (.write s (alignWrites (footer s.a)) .final)
  | aeadDecrypt {s : State} {buf : List Byte} (tag : List Byte)
      (hc : blocksAvail (counterOf s.cc.S) (blocksFor (footerPt buf))) :
      Does (.aeadDecrypt buf tag) s (.write (s.beginDecrypt buf) (sinkWrite (bufferText s buf) [])
        (.decrypt (buf.take (footerAad buf))))

/-- The command's meaning `F` carries out one plan, whatever the sink will answer. -/
def Follows (i : Instr) (s : State) (F : State → Outcome State Fault Refusal) : Prop :=
  ∃ P, Does i s P ∧ ∀ as, F (s.withAnswers as) = .next (P.run as)

section
variable {i : Instr} {s : State}

/-- A check, which does not read the sink's answers: it raises its error, or the rest of the command
follows (R214). -/
theorem check_follows {c : State → Prop} [DecidablePred c] {e : Status} {v : Voids}
    {F : State → Outcome State Fault Refusal} (hv : v = .nothing ∨ v = errorVoids i)
    (hF : ¬ c s → Follows i s F) (he : e.isError := by trivial)
    (hc : ∀ as, c (s.withAnswers as) ↔ c s := by exact fun _ => Iff.rfl) :
    Follows i s fun t => if c t then raise e v t else F t := by
  by_cases h : c s
  · refine ⟨_, .error e v he hv, fun as => (if_pos ((hc as).mpr h)).trans ?_⟩
    cases v <;> rfl
  · obtain ⟨P, hP, hrun⟩ := hF h
    exact ⟨P, hP, fun as => (if_neg fun hn => h ((hc as).mp hn)).trans (hrun as)⟩

theorem execCcInit_follows (key nonce : List Byte) (ctr : Option Word) :
    Follows (.ccInit key nonce ctr) s (execCcInit key nonce ctr) :=
  check_follows (.inl rfl) fun _ => check_follows (.inl rfl) fun _ =>
    check_follows (.inl rfl) fun _ => ⟨_, .ccInit key nonce ctr, fun _ => rfl⟩

theorem execCcBlock_follows : Follows .ccBlock s execCcBlock :=
  check_follows (.inl rfl) fun _ => check_follows (.inr rfl) fun hc =>
    ⟨_, .ccBlock (not_not.mp hc), fun _ => rfl⟩

theorem execCcXor_follows (data : List Byte) : Follows (.ccXor data) s (execCcXor data) :=
  check_follows (.inl rfl) fun _ => check_follows (.inr rfl) fun hc =>
    ⟨_, .ccXor (not_not.mp hc), fun _ => rfl⟩

theorem execCcXorb_follows (data : List Byte) : Follows (.ccXorb data) s (execCcXorb data) :=
  check_follows (.inl rfl) fun _ => check_follows (.inr rfl) fun _ =>
    check_follows (.inr rfl) fun hc => ⟨_, .ccXorb (not_not.mp hc), fun _ => rfl⟩

theorem execCcReset_follows : Follows .ccReset s execCcReset :=
  check_follows (.inl rfl) fun _ => ⟨_, .ccReset, fun _ => rfl⟩

theorem execPInit_follows (key : List Byte) : Follows (.pInit key) s (execPInit key) :=
  check_follows (.inl rfl) fun _ => check_follows (.inl rfl) fun _ => ⟨_, .pInit key, fun _ => rfl⟩

theorem execPDerive_follows : Follows .pDerive s execPDerive :=
  check_follows (.inl rfl) fun _ => check_follows (.inr rfl) fun hc =>
    ⟨_, .pDerive (not_not.mp hc), fun _ => rfl⟩

theorem execPUpdate_follows (data : List Byte) : Follows (.pUpdate data) s (execPUpdate data) :=
  check_follows (.inl rfl) fun _ => ⟨_, .pUpdate data, fun _ => rfl⟩

theorem execPFinal_follows : Follows .pFinal s execPFinal :=
  check_follows (.inl rfl) fun _ => ⟨_, .pFinal, fun _ => rfl⟩

theorem execAeadInit_follows (key nonce : List Byte) :
    Follows (.aeadInit key nonce) s (execAeadInit key nonce) :=
  check_follows (.inl rfl) fun _ => check_follows (.inl rfl) fun _ =>
    ⟨_, .aeadInit key nonce, fun _ => rfl⟩

theorem execAeadAad_follows (data : List Byte) : Follows (.aeadAad data) s (execAeadAad data) :=
  check_follows (.inl rfl) fun _ => check_follows (.inr rfl) fun _ =>
    ⟨_, .aeadAad data, fun _ => rfl⟩

theorem execAeadUpdate_follows (data : List Byte) :
    Follows (.aeadUpdate data) s (execAeadUpdate data) :=
  check_follows (.inl rfl) fun _ => check_follows (.inr rfl) fun hc =>
    check_follows (.inr rfl) fun _ => ⟨_, .aeadUpdate (not_not.mp hc), fun _ => rfl⟩

theorem execAeadFinal_follows : Follows .aeadFinal s execAeadFinal :=
  check_follows (.inl rfl) fun _ => ⟨_, .aeadFinal, fun _ => rfl⟩

theorem execAeadDecrypt_follows (buf tag : List Byte) :
    Follows (.aeadDecrypt buf tag) s (execAeadDecrypt buf tag) :=
  check_follows (.inl rfl) fun _ => check_follows (.inr rfl) fun _ =>
    check_follows (.inr rfl) fun _ => check_follows (.inr rfl) fun _ =>
      check_follows (.inr rfl) fun hc => ⟨_, .aeadDecrypt tag (not_not.mp hc), fun _ => rfl⟩

end

/-- Every command carries out one of its plans, whatever the sink will answer. -/
theorem exec_follows (i : Instr) (s : State) : Follows i s (exec i) :=
  match i with
  | .ccInit key nonce ctr => execCcInit_follows key nonce ctr
  | .ccBlock => execCcBlock_follows
  | .ccXor data => execCcXor_follows data
  | .ccXorb data => execCcXorb_follows data
  | .ccReset => execCcReset_follows
  | .pInit key => execPInit_follows key
  | .pDerive => execPDerive_follows
  | .pUpdate data => execPUpdate_follows data
  | .pFinal => execPFinal_follows
  | .aeadInit key nonce => execAeadInit_follows key nonce
  | .aeadAad data => execAeadAad_follows data
  | .aeadUpdate data => execAeadUpdate_follows data
  | .aeadFinal => execAeadFinal_follows
  | .aeadDecrypt buf tag => execAeadDecrypt_follows buf tag

/-- The same with the answers that the sink has. -/
theorem exec_does (i : Instr) (s : State) :
    ∃ P, Does i s P ∧ exec i s = .next (P.run s.sinkAnswers) := by
  obtain ⟨P, hP, hrun⟩ := exec_follows i s
  exact ⟨P, hP, hrun s.sinkAnswers⟩

/-- The next state of a command is that of one of its plans. -/
theorem does_of_next {i : Instr} {s t : State} (h : exec i s = .next t) :
    ∃ P, Does i s P ∧ t = P.run s.sinkAnswers := by
  obtain ⟨P, hP, hrun⟩ := exec_does i s
  exact ⟨P, hP, Outcome.next.inj (h.symm.trans hrun)⟩

/-- Settles O13: every command carries out a plan. -/
theorem everyCommandGoesOn : Obligations.EveryCommandGoesOn := fun i s =>
  let ⟨_, _, hrun⟩ := exec_does i s
  ⟨_, hrun⟩

end Sys2Proof.Machine
end

section
/-!
What every command keeps and answers (R24 to R33, R83, R213, R243, R254): by the cases of `Does` for
the state in which a plan starts, and by `Plan.run_frame` for the rest of the command.
-/

namespace Sys2Proof.Machine

open Host

/-! ### The start of a plan -/

/-- The state after a command's own effect, before its response or its first write. -/
def Plan.start : Plan → State
  | .answer t _ _ => t
  | .write t _ _ => t

/-- No command's own effect touches the busy condition, the port, the sink or the host (R37, R55,
R83). -/
theorem Does.start_outside {i : Instr} {s : State} {P : Plan} (h : Does i s P) :
    P.start.busy = s.busy ∧ P.start.response = s.response ∧ P.start.sink = s.sink ∧
      P.start.sinkAnswers = s.sinkAnswers ∧ P.start.divisions = s.divisions ∧
      P.start.host = s.host := by
  cases h with
  | error e v _ _ => cases v <;> exact ⟨rfl, rfl, rfl, rfl, rfl, rfl⟩
  | _ => exact ⟨rfl, rfl, rfl, rfl, rfl, rfl⟩

/-- What follows a command's own effect leaves the words of CC.S, CC.CTR0, the authenticator's key
and the host's list, and uses at most one division. -/
theorem Plan.run_frame (P : Plan) (as : List SinkAnswer) :
    (P.run as).cc.S = P.start.cc.S ∧ (P.run as).cc.CTR0 = P.start.cc.CTR0 ∧
      (P.run as).p.R = P.start.p.R ∧ (P.run as).p.S = P.start.p.S ∧ (P.run as).host = P.start.host ∧
      ((P.run as).divisions = P.start.divisions ∨ (P.run as).divisions = P.start.divisions.tail) := by
  cases P with
  | answer t e d => exact ⟨rfl, rfl, rfl, rfl, rfl, .inl rfl⟩
  | write t ws f =>
    obtain ⟨hhost, hdiv, hS, hctr0, hR, hkey⟩ := writeOut_frame ws f (t.withAnswers as)
    exact ⟨hS, hctr0, hR, hkey, hhost, .inr hdiv⟩

/-- What follows a command's own effect only appends to the sink (R56). -/
theorem Plan.run_sink (P : Plan) (as : List SinkAnswer) : P.start.sink <+: (P.run as).sink := by
  cases P with
  | answer t e d => exact List.prefix_rfl
  | write t ws f => exact writeOut_sink ws f (t.withAnswers as)

/-! ### What an error voids -/

/-- No error writes a data field (R213). -/
theorem void_data (s : State) (v : Voids) :
    (s.void v).cc.S = s.cc.S ∧ (s.void v).cc.CTR0 = s.cc.CTR0 ∧ (s.void v).p.R = s.p.R ∧
      (s.void v).p.S = s.p.S := by
  cases v <;> exact ⟨rfl, rfl, rfl, rfl⟩

/-! ### The key words and the counter -/

/-- Only CC_INIT and AEAD_INIT write a word of CC.S other than the counter, or CC.CTR0 (R25, R26).
-/
theorem Does.start_key {i : Instr} {s : State} {P : Plan} (h : Does i s P)
    (hc : ∀ key nonce ctr, i ≠ .ccInit key nonce ctr) (ha : ∀ key nonce, i ≠ .aeadInit key nonce) :
    (∀ j : Fin 16, j ≠ 12 → P.start.cc.S[j] = s.cc.S[j]) ∧ P.start.cc.CTR0 = s.cc.CTR0 := by
  cases h with
  | error e v _ _ =>
    obtain ⟨hS, hctr0, -, -⟩ := void_data s v
    exact ⟨fun j _ => by rw [Plan.start, hS], hctr0⟩
  | ccInit key nonce ctr => exact absurd rfl (hc key nonce ctr)
  | aeadInit key nonce => exact absurd rfl (ha key nonce)
  | ccBlock _ | ccXor _ | ccXorb _ | ccReset | pDerive _ | aeadUpdate _ | aeadDecrypt _ _ =>
    exact ⟨fun j hj => withCounter_other _ _ j hj, rfl⟩
  | _ => exact ⟨fun _ _ => rfl, rfl⟩

/-- Settles O20: a command's own effect by `Does.start_key`, the rest of it, and a waiting command
that goes on, by the frame of `drain`. -/
theorem keyAndNonceWordsStay : Obligations.KeyAndNonceWordsStay := by
  refine ⟨fun i s t h hc ha => ?_, fun s t hb hrst h => ?_⟩
  · obtain ⟨P, hP, rfl⟩ := does_of_next h
    obtain ⟨hS, hctr0, -⟩ := P.run_frame s.sinkAnswers
    obtain ⟨hwords, hstart⟩ := hP.start_key hc ha
    exact ⟨fun j hj => by rw [hS, hwords j hj], hctr0.trans hstart⟩
  · rcases step_cases s t h with ⟨hn, -⟩ | ⟨hn, -⟩ | ⟨hn, -⟩ | ⟨k, rest, hh, -⟩ | ⟨x, -, rfl⟩
    · exact absurd hn hb
    · exact absurd hn hb
    · exact absurd hn hb
    · exact absurd hh (hrst k rest)
    · obtain ⟨-, -, hS, hctr0, -⟩ := drain_frame x.writes x.finish s
      exact ⟨hS, hctr0⟩

/-- Where the blocks are there, KeystreamXor does not move the counter back (R104, R106). -/
theorem le_keystreamXor_counter {s : CipherState} {d : List Byte}
    (h : blocksAvail (counterOf s) (blocksFor d.length)) :
    (counterOf s).toNat ≤ (keystreamXor s d).2.toNat :=
  keystreamXor_counter_toNat s d h ▸ Nat.le_add_right _ _

/-- Only the constructions and CC_RESET can move the counter back (R25). -/
theorem Does.start_counter {i : Instr} {s : State} {P : Plan} (h : Does i s P)
    (hc : ∀ key nonce ctr, i ≠ .ccInit key nonce ctr) (ha : ∀ key nonce, i ≠ .aeadInit key nonce)
    (hr : i ≠ .ccReset) : (counterOf s.cc.S).toNat ≤ (counterOf P.start.cc.S).toNat := by
  have moved : ∀ c : Word, (counterOf s.cc.S).toNat ≤ c.toNat →
      (counterOf s.cc.S).toNat ≤ (counterOf (withCounter s.cc.S c)).toNat := fun c h => by
    rwa [counterOf_withCounter]
  cases h with
  | error e v _ _ => rw [Plan.start, (void_data s v).1]
  | ccInit key nonce ctr => exact absurd rfl (hc key nonce ctr)
  | aeadInit key nonce => exact absurd rfl (ha key nonce)
  | ccReset => exact absurd rfl hr
  | ccBlock hb | pDerive hb =>
    exact moved _ (toNat_add_one_of_blocksAvail hb ▸ Nat.le_add_right _ _)
  | ccXor hb | ccXorb hb | aeadUpdate hb => exact moved _ (le_keystreamXor_counter hb)
  | aeadDecrypt tag hb =>
    exact moved _ (le_keystreamXor_counter
      (blocksAvail_mono (blocksFor_mono (cipherSegment_length_le _)) hb))
  | _ => exact Nat.le_refl _

/-- Settles O21: after a command's own effect no word of CC.S changes. -/
theorem counterIsMonotonic : Obligations.CounterIsMonotonic := by
  intro i s t h hc ha hr
  obtain ⟨P, hP, rfl⟩ := does_of_next h
  rw [(P.run_frame s.sinkAnswers).1]
  exact hP.start_counter hc ha hr

/-! ### Frames -/

/-- Settles O22: each command's plans, one by one; an error voids at most the cipher context. -/
theorem standAloneCommandsFrame : Obligations.StandAloneCommandsFrame := by
  refine fun s t => ⟨fun i hi h => ?_, fun i hi h => ?_, fun h => ?_⟩ <;>
    obtain ⟨P, hP, rfl⟩ := does_of_next h
  · rcases hi with ⟨key, nonce, ctr, rfl⟩ | rfl | ⟨data, rfl⟩ | ⟨data, rfl⟩ | rfl <;>
      cases hP with
      | error e v _ hv => rcases hv with rfl | rfl <;> exact ⟨rfl, rfl, rfl, rfl, rfl, rfl, rfl⟩
      | _ => exact ⟨rfl, rfl, rfl, rfl, rfl, rfl, rfl⟩
  · rcases hi with ⟨key, rfl⟩ | ⟨data, rfl⟩ | rfl <;>
      cases hP with
      | error e v _ hv => rcases hv with rfl | rfl <;> exact ⟨rfl, rfl, rfl, rfl, rfl, rfl, rfl⟩
      | _ => exact ⟨rfl, rfl, rfl, rfl, rfl, rfl, rfl⟩
  · obtain ⟨hwords, hctr0⟩ := hP.start_key nofun nofun
    cases hP with
    | error e v _ hv =>
      rcases hv with rfl | rfl <;> exact ⟨rfl, rfl, rfl, rfl, rfl, rfl, hctr0, hwords⟩
    | pDerive _ => exact ⟨rfl, rfl, rfl, rfl, rfl, rfl, hctr0, hwords⟩

/-- A session's command does not write the authenticator's key (R28, R29). -/
theorem Does.start_authKey {i : Instr} {s : State} {P : Plan} (h : Does i s P)
    (hi : (∃ data, i = .aeadAad data) ∨ (∃ data, i = .aeadUpdate data) ∨ i = .aeadFinal ∨
      ∃ buf tag, i = .aeadDecrypt buf tag) : P.start.p.R = s.p.R ∧ P.start.p.S = s.p.S := by
  rcases hi with ⟨data, rfl⟩ | ⟨data, rfl⟩ | rfl | ⟨buf, tag, rfl⟩ <;>
    cases h with
    | error e v _ _ =>
      obtain ⟨-, -, hR, hS⟩ := void_data s v
      exact ⟨hR, hS⟩
    | _ => exact ⟨rfl, rfl⟩

/-- Settles O23: the plan's start, then `Plan.run_frame`. -/
theorem sessionCommandsFrame : Obligations.SessionCommandsFrame := by
  intro i s t hi h
  obtain ⟨P, hP, rfl⟩ := does_of_next h
  obtain ⟨hS, hctr0, hR, hkey, hhost, hdiv⟩ := P.run_frame s.sinkAnswers
  obtain ⟨-, -, -, -, hdiv₀, hhost₀⟩ := hP.start_outside
  obtain ⟨hR₀, hkey₀⟩ := hP.start_authKey hi
  obtain ⟨hwords, hctr0₀⟩ : (∀ j : Fin 16, j ≠ 12 → P.start.cc.S[j] = s.cc.S[j]) ∧
      P.start.cc.CTR0 = s.cc.CTR0 := by
    refine hP.start_key ?_ ?_ <;>
      rcases hi with ⟨data, rfl⟩ | ⟨data, rfl⟩ | rfl | ⟨buf, tag, rfl⟩ <;> nofun
  rw [hdiv₀] at hdiv
  exact ⟨hhost.trans hhost₀, hdiv, hctr0.trans hctr0₀, hR.trans hR₀, hkey.trans hkey₀,
    fun j hj => by rw [hS, hwords j hj]⟩

/-! ### Responses -/

/-- A response that a command gives at once is OK or has no bytes (R83). -/
theorem Does.answer_data {i : Instr} {s t : State} {e : Status} {d : List Byte}
    (h : Does i s (.answer t e d)) : e = .ok ∨ d = [] := by
  cases h with
  | error e v _ _ => exact .inr rfl
  | _ => exact .inl rfl

/-- Settles O26: an answer is OK or empty, and the writes of a command give no response, OK or
SinkError. -/
theorem errorResponsesAreEmpty : Obligations.ErrorResponsesAreEmpty := by
  intro i s t r hs h hr hok hsink
  obtain ⟨P, hP, rfl⟩ := does_of_next h
  cases P with
  | answer u e d =>
    obtain rfl : ⟨e, d⟩ = r := Option.some.inj hr
    exact hP.answer_data.resolve_left hok
  | write u ws f =>
    have hu : u.response = none := hP.start_outside.2.1.trans hs
    rcases writeOut_response ws f (u.withAnswers s.sinkAnswers) with h0 | ⟨d, h0 | h0⟩ <;>
      have hr := h0.symm.trans hr
    · rw [State.withAnswers_response, hu] at hr
      cases hr
    · exact absurd (congrArg Response.status (Option.some.inj hr)).symm hok
    · exact absurd (congrArg Response.status (Option.some.inj hr)).symm hsink

/-- The session's plaintext and the data that fits the blocks left are far below 2^64 bytes (R32).
-/
theorem State.Inv.lengthFits_of_blocksAvail {s : State} (h : s.Inv) (ho : s.a.PHASE = .OPEN) {n : Nat}
    (hc : blocksAvail (counterOf s.cc.S) (blocksFor n)) : lengthFits s.a.PTLEN n := by
  obtain ⟨hctr, hplain⟩ := h.plaintext ho
  have hn := le_blocksFor n
  rw [blocksAvail, Config.counterMax] at hc
  rw [lengthFits, Config.lengthMax]
  omega

/-- Settles O19: where the counter check passes, the length check does too. -/
theorem updateNeverOverflowsLength : Obligations.UpdateNeverOverflowsLength := by
  intro data s t hinv _ hr h hover
  obtain ⟨hidle, hoverflow, -⟩ := aeadUpdateRule.2 data s
  by_cases ho : s.a.PHASE = .OPEN
  · by_cases hc : blocksAvail (counterOf s.cc.S) (blocksFor data.length)
    · rw [exec_aeadUpdate ho hc (hinv.lengthFits_of_blocksAvail ho hc)] at h
      obtain rfl := Outcome.next.inj h
      rcases writeOut_response (alignWrites (keystreamXor s.cc.S data).1)
        (.update (keystreamXor s.cc.S data).1) (s.beginUpdate data) with h0 | ⟨d, h0 | h0⟩ <;>
        have hover := h0.symm.trans hover
      · cases hr.symm.trans hover
      · cases hover
      · cases hover
    · rw [hoverflow ho (Nat.not_le.mp hc)] at h
      obtain rfl := Outcome.next.inj h
      cases hover
  · rw [hidle ((sessionPhase_ne_open_iff _).mp ho)] at h
    obtain rfl := Outcome.next.inj h
    cases hover

/-! ### Commands that a phase refuses -/

/-- Settles O24: the first check of each command fails. -/
theorem sessionLocksTheUnits : Obligations.SessionLocksTheUnits := by
  intro i s ho hi
  rcases hi with ⟨key, nonce, ctr, rfl⟩ | rfl | ⟨data, rfl⟩ | ⟨data, rfl⟩ | rfl | ⟨key, rfl⟩ | rfl |
    ⟨data, rfl⟩ | rfl
  · exact (if_pos ho).trans (raise_nothing _ _)
  · exact phaseCheck_fails (.inl ho) _
  · exact phaseCheck_fails (.inl ho) _
  · exact phaseCheck_fails (.inl ho) _
  · exact phaseCheck_fails (.inl ho) _
  · exact (if_pos ho).trans (raise_nothing _ _)
  · exact phaseCheck_fails (.inl ho) _
  · exact authCheck_fails (.inl ho) _
  · exact authCheck_fails (.inl ho) _

/-- Settles O25: the first check of each command fails. -/
theorem commandsNeedAnInit : Obligations.CommandsNeedAnInit := by
  intro i s hc hp ha hcc hpi hai
  cases i with
  | ccInit key nonce ctr => exact absurd rfl (hcc key nonce ctr)
  | pInit key => exact absurd rfl (hpi key)
  | aeadInit key nonce => exact absurd rfl (hai key nonce)
  | ccBlock | ccXor _ | ccXorb _ | ccReset | pDerive => exact phaseCheck_fails (.inr hc) _
  | pUpdate _ | pFinal => exact authCheck_fails (.inr hp) _
  | aeadAad _ | aeadUpdate _ | aeadFinal => exact sessionCheck_fails ha _
  | aeadDecrypt _ _ => exact freshCheck_fails (.inl ha) _

/-- Settles O53: a session that is not fresh and a tag that differs are both answered with an error
that leaves the sink and the busy condition. -/
theorem decryptVerifiesFirst : Obligations.DecryptVerifiesFirst := by
  intro buf tag s t _ h hseen
  by_contra ht
  have hrefused : ∃ (u : State) (e : Status), t = u.respond e [] ∧ u.sink = s.sink ∧
      u.busy = s.busy ∧ e ≠ .ok := by
    by_cases hf : sessionFresh s
    · have hx : exec (.aeadDecrypt buf tag) s = raise .tagMismatch .session s :=
        (if_neg (not_not.mpr hf)).trans (if_pos ht)
      exact ⟨s.endSession, _, Outcome.next.inj (h.symm.trans hx), rfl, rfl, by decide⟩
    · have hx : exec (.aeadDecrypt buf tag) s = raise .sequenceError .nothing s := if_pos hf
      exact ⟨s, _, Outcome.next.inj (h.symm.trans hx), rfl, rfl, by decide⟩
  obtain ⟨u, e, rfl, hsink, hbusy, he⟩ := hrefused
  rcases hseen with hs | hb | ⟨d, hd⟩
  · exact hs hsink
  · exact hb hbusy
  · exact he (congrArg Response.status (Option.some.inj hd))

end Sys2Proof.Machine
end

section
/-!
The port: what one step does for each action of the host (R58, R59, R240 to R244), when the machine
stops (R37, R70), and what RST and a stall leave of a command's output. Where the sink is silent a
plan leaves all its output pending, and where the sink accepts all of it is written
(`Plan.run_silent`, `Plan.run_accepting`).
-/

namespace Sys2Proof.Machine

open Host

/-! ### The step for each action of the host -/

section
variable {s : State}

/-- RST is taken in every state (R240, R241). -/
theorem step_rst {k : Nat} {rest : List HostEvent} (hh : s.host = .rst k :: rest) :
    step s = .next ((s.takeEvent rest).rst k) := by
  cases hb : s.busy <;> simp [step, portStep, hb, idleStep, busyStep, hh]

theorem step_overlapping {t : Transaction} {rest : List HostEvent} (hb : s.busy = none)
    (hh : s.host = .overlapping t :: rest) : step s = runCommand t (s.takeEvent rest) := by
  simp [step, portStep, hb, idleStep, hh]

theorem step_commandCut {t : Transaction} {k : Nat} {rest : List HostEvent} (hb : s.busy = none)
    (hh : s.host = .commandCut t k :: rest) : step s = runCut t k (s.takeEvent rest) := by
  simp [step, portStep, hb, idleStep, hh]

/-- A block that is not busy waits for the host (R225, R242). -/
theorem step_nothing (hb : s.busy = none) (hh : s.host = []) : step s = .next s := by
  simp [step, portStep, hb, idleStep, hh]

/-- A waiting command goes on, unless the host resets the block or presents a command (R55, R59). -/
theorem step_waiting {x : Transfer} (hb : s.busy = some x) (hh : s.hostLetsWork) :
    step s = .next (drain x.writes x.finish s) := by
  obtain ⟨hrst, hover⟩ := hh
  simp only [step, portStep, hb, busyStep]

/-- A command presented while another waits is refused (R37, U1). -/
theorem step_overlapping_busy {x : Transfer} {t : Transaction} {rest : List HostEvent}
    (hb : s.busy = some x) (hh : s.host = .overlapping t :: rest) :
    step s = .refused .overlappingCommand := by
  simp [step, portStep, hb, busyStep, hh]

end

/-- Settles O7: an idle block runs the presented command, and the decoder gives its instruction. -/
theorem stepRunsDecodedCommand : Obligations.StepRunsDecodedCommand := by
  intro s t rest i hb hh hw hd
  rw [step_command hb hh]
  simp only [runCommand, hw, hd]
  rfl

/-- Settles O8: the fields of the literal. -/
theorem resetLeavesFirstPhases : Obligations.ResetLeavesFirstPhases := ⟨rfl, rfl, rfl, rfl, rfl, rfl⟩

/-- Settles O15: after reset there is no session, and accumulator and multiplier are 0. -/
theorem invariantAfterReset : Obligations.InvariantAfterReset :=
  inv_of_closed (CipherUnit.hasConstants_of_empty rfl) ⟨polyP_pos, clamp_zero⟩
    (show SessionPhase.IDLE ≠ .OPEN by decide) rfl rfl

/-- Settles O9: what the sink gains is what the waiting command had left. -/
theorem rstAbandonsAndResets : Obligations.RstAbandonsAndResets := by
  intro s k rest hh
  refine ⟨_, step_rst hh, rfl, rfl, rfl, rfl, rfl, rfl, rfl, rfl, fun hb => ?_, fun x hb => ?_⟩
  · simp [State.rst, hb, pendingBytes]
  · simp [State.rst, hb, pendingBytes]

/-- Settles O12, by the step of a busy block to which a command is presented. -/
theorem overlappingCommandIsRefused : Obligations.OverlappingCommandIsRefused :=
  fun _ _ _ _ hb hh => step_overlapping_busy hb hh

/-! ### Waiting -/

/-- A command that waits on its writes is as it was, whatever it waited on before. -/
theorem drain_waitOn (ws vs : List Write) (f g : Finish) (s : State) :
    drain ws f (s.waitOn vs g) = drain ws f s := by
  induction ws generalizing s with
  | nil => rfl
  | cons w ws ih =>
    match h : s.sinkAnswers with
    | [] => rw [drain_silent _ _ _ _ h, drain_silent _ _ _ _ (by simpa using h)]; rfl
    | .stall :: as => rw [drain_stall _ _ _ _ as h, drain_stall _ _ _ _ as (by simpa using h)]; rfl
    | .fail e k :: as =>
      rw [drain_fail _ _ _ _ e k as h, drain_fail _ _ _ _ e k as (by simpa using h)]; rfl
    | .accept :: as =>
      rw [drain_accept _ _ _ _ as h, drain_accept _ _ _ _ as (by simpa using h)]
      exact ih ((s.withAnswers as).accepted w)

/-- A command that already waits on these writes goes on waiting as it is. -/
theorem waitOn_of_busy {s : State} {x : Transfer} (hb : s.busy = some x) :
    s.waitOn x.writes x.finish = s := by
  rw [State.waitOn, ← hb]

/-- Settles O11: the host's silence, and the first of the waiting command's writes meeting a silent
sink or a stall. -/
theorem waitingChangesNothing : Obligations.WaitingChangesNothing := by
  refine ⟨fun s hb hh => step_nothing hb hh, fun s x hb hne hh hs => ?_,
    fun s x as hb hne hh hs => ?_⟩ <;>
    obtain ⟨w, ws, hws⟩ := List.exists_cons_of_ne_nil hne
  · rw [step_waiting hb hh, hws, drain_silent _ _ _ _ hs, ← hws, waitOn_of_busy hb]
  · rw [step_waiting hb hh, hws, drain_stall _ _ _ _ as hs, ← hws]
    exact congrArg _ (waitOn_of_busy (s := s.withAnswers as) hb)

/-- Settles O55: the accepted writes come off first, with the stall or without it, and waiting does
not change what the rest does. -/
theorem stallOnlyDelays : Obligations.StallOnlyDelays := by
  refine ⟨fun x s hb hh => step_waiting hb hh, fun pre w ws f s as hh hs => ?_⟩
  have hstalled : drain (pre ++ w :: ws) f s
      = (acceptAll pre (s.withAnswers as)).waitOn (w :: ws) f := by
    rw [drain_accepts pre _ f s _ hs, drain_stall w ws f _ as (by simp), withAnswers_acceptAll]
    rfl
  have hgoes : drain (pre ++ w :: ws) f
      { s with sinkAnswers := List.replicate pre.length .accept ++ as }
        = drain (w :: ws) f (acceptAll pre (s.withAnswers as)) :=
    drain_accepts pre (w :: ws) f _ as rfl
  refine ⟨_, hstalled, rfl, by simp, by simp, by simp, ?_⟩
  rw [step_waiting rfl (by simpa [State.hostLetsWork] using hh), drain_waitOn, hgoes]

/-! ### The stops -/

/-- A command that the port carries is answered or goes on: the machine never stops in it (R70,
R210). -/
theorem runCommand_next {t : Transaction} (hw : t.wf = true) (s : State) :
    ∃ u, runCommand t s = .next u := by
  rcases runCommand_cases t s with ⟨hn, -⟩ | ⟨-, e, -, hc⟩ | ⟨-, i, -, hc⟩
  · simp [hw] at hn
  · exact ⟨_, hc⟩
  · obtain ⟨u, hu⟩ := everyCommandGoesOn i s
    exact ⟨u, hc.trans hu⟩

theorem runCommand_tooLong {t : Transaction} (hw : t.wf = false) (s : State) :
    runCommand t s = .fault .payloadTooLong := by
  simp [runCommand, hw]

/-- What a step is: it goes on, it faults on a payload that no transaction has, or it refuses an
overlapping command. -/
theorem step_goesOn_or_stops (s : State) :
    (∃ u, step s = .next u) ∨
    (step s = .fault .payloadTooLong ∧ s.busy = none ∧ ∃ t rest, t.wf = false ∧
      (s.host = .command t :: rest ∨ s.host = .overlapping t :: rest ∨
        ∃ k, s.host = .commandCut t k :: rest)) ∨
    (step s = .refused .overlappingCommand ∧ s.busy ≠ none ∧
      ∃ t rest, s.host = .overlapping t :: rest) := by
  have presented : ∀ (t : Transaction) (v : State), (∃ u, runCommand t v = .next u) ∨
      (runCommand t v = .fault .payloadTooLong ∧ t.wf = false) := fun t v => by
    cases hw : t.wf with
    | true => exact .inl (runCommand_next hw v)
    | false => exact .inr ⟨runCommand_tooLong hw v, rfl⟩
  cases hb : s.busy with
  | none =>
    cases hh : s.host with
    | nil => exact .inl ⟨s, step_nothing hb hh⟩
    | cons ev rest =>
      cases ev with
      | rst k => exact .inl ⟨_, step_rst hh⟩
      | command t =>
        rw [step_command hb hh]
        exact (presented t _).imp_right fun ⟨hf, hw⟩ => .inl ⟨hf, rfl, t, rest, hw, .inl rfl⟩
      | overlapping t =>
        rw [step_overlapping hb hh]
        exact (presented t _).imp_right fun ⟨hf, hw⟩ => .inl ⟨hf, rfl, t, rest, hw, .inr (.inl rfl)⟩
      | commandCut t k =>
        rw [step_commandCut hb hh, runCut]
        rcases presented t ((s.takeEvent rest).withAnswers []) with ⟨u, hu⟩ | ⟨hf, hw⟩
        · exact .inl ⟨_, by rw [hu]⟩
        · exact .inr (.inl ⟨by rw [hf], rfl, t, rest, hw, .inr (.inr ⟨k, rfl⟩)⟩)
  | some x =>
    by_cases hw : s.hostLetsWork
    · exact .inl ⟨_, step_waiting hb hw⟩
    · simp only [State.hostLetsWork, not_and_or, not_forall, not_not] at hw
      rcases hw with ⟨k, rest, hh⟩ | ⟨t, rest, hh⟩
      · exact .inl ⟨_, step_rst hh⟩
      · exact .inr (.inr ⟨step_overlapping_busy hb hh, by simp, t, rest, hh⟩)

/-- Settles O14, by the three cases of `step_goesOn_or_stops`. -/
theorem onlyTwoStops : Obligations.OnlyTwoStops := by
  refine ⟨fun s r h => ?_, fun s r h => ?_⟩ <;>
    rcases step_goesOn_or_stops s with ⟨u, hu⟩ | ⟨hu, hstop⟩ | ⟨hu, hstop⟩ <;>
    have hr := h.symm.trans hu
  · cases hr
  · exact ⟨Outcome.fault.inj hr, hstop⟩
  · cases hr
  · cases hr
  · cases hr
  · exact ⟨Outcome.refused.inj hr, hstop⟩

/-! ### A command's output -/

/-- The bytes a plan will write. -/
def Plan.output : Plan → List Byte
  | .answer _ _ _ => []
  | .write _ ws _ => ws.flatMap Write.bytes

/-- An empty write is not issued (R55). -/
theorem sinkWrite_ne_nil (b feed : List Byte) : ∀ w ∈ sinkWrite b feed, w.bytes ≠ [] := by
  intro w hw
  obtain ⟨rfl, hne⟩ := sinkWrite_mem b feed w hw
  exact hne

/-- No write of a plan is empty (R55). -/
def Plan.NoEmptyWrite : Plan → Prop
  | .answer _ _ _ => True
  | .write _ ws _ => ∀ w ∈ ws, w.bytes ≠ []

theorem Does.noEmptyWrite {i : Instr} {s : State} {P : Plan} (h : Does i s P) : P.NoEmptyWrite := by
  cases h with
  | aeadAad _ | aeadUpdate _ | aeadFinal => exact fun w hw => (alignWrites_mem _ w hw).2.2
  | aeadDecrypt _ _ => exact sinkWrite_ne_nil _ _
  | _ => trivial

@[simp] theorem finishWith_busy (f : Finish) (s : State) : (s.finishWith f).busy = s.busy := by
  cases f <;> rfl

/-- Where the sink is silent, all the output is still to be written. -/
theorem Plan.run_silent {P : Plan} (hb : P.start.busy = none) :
    (P.run []).sink = P.start.sink ∧ pendingBytes (P.run []).busy = P.output := by
  cases P with
  | answer t e d => exact ⟨rfl, congrArg pendingBytes hb⟩
  | write t ws f =>
    have hout : ((t.withAnswers []).divided ws).flatMap Write.bytes = ws.flatMap Write.bytes :=
      divide_bytes _ ws
    rw [Plan.run, Plan.output, State.writeOut, ← hout]
    cases (t.withAnswers []).divided ws with
    | nil => simp [pendingBytes, Plan.start]
    | cons w ws =>
      rw [drain_silent w ws f _ rfl]
      exact ⟨rfl, rfl⟩

/-- An accepting answer for each byte is one for each write of any division (R57). -/
theorem sinkAccepts_divided {s : State} {ws : List Write} {n : Nat} (hne : ∀ w ∈ ws, w.bytes ≠ [])
    (hs : s.sinkAnswers = List.replicate n .accept) (hn : (ws.flatMap Write.bytes).length ≤ n) :
    ∃ m, n ≤ m + (ws.flatMap Write.bytes).length ∧
      s.sinkAccepts (s.divided ws).length (List.replicate m .accept) := by
  have hlen := length_le_bytes (s.divided ws) (divide_ne_nil _ ws hne)
  have hout : (s.divided ws).flatMap Write.bytes = ws.flatMap Write.bytes := divide_bytes _ ws
  rw [hout] at hlen
  refine ⟨n - (s.divided ws).length, by omega, ?_⟩
  rw [State.sinkAccepts, hs, List.replicate_append_replicate, Nat.add_sub_cancel' (hlen.trans hn)]

/-- Where the sink has an accepting answer for each byte, all the output is written. -/
theorem Plan.run_accepting {P : Plan} (hb : P.start.busy = none) (hne : P.NoEmptyWrite) {n : Nat}
    (hn : P.output.length ≤ n) :
    (P.run (List.replicate n .accept)).busy = none ∧
      (P.run (List.replicate n .accept)).sink = P.start.sink ++ P.output := by
  cases P with
  | answer t e d => exact ⟨hb, (List.append_nil _).symm⟩
  | write t ws f =>
    obtain ⟨m, -, hacc⟩ :=
      sinkAccepts_divided (s := t.withAnswers (List.replicate n .accept)) hne rfl hn
    rw [Plan.run, writeOut_all_accepted ws f _ _ hacc, State.divided]
    simp [divide_bytes, Plan.start, Plan.output]

/-- A command that the port carries carries out a plan, whatever the sink will answer; an illegal
one is answered at once (R80). -/
theorem runCommand_follows {t : Transaction} (hw : t.wf = true) (s : State) :
    ∃ P : Plan, P.start.busy = s.busy ∧ P.start.sink = s.sink ∧ P.start.host = s.host ∧
      P.NoEmptyWrite ∧ ∀ as, runCommand t (s.withAnswers as) = .next (P.run as) := by
  cases hd : decode t with
  | error e =>
    exact ⟨.answer s .illegalCommand [], rfl, rfl, rfl, trivial, fun as => runCommand_of_error _ hw hd⟩
  | ok i =>
    obtain ⟨P, hP, hrun⟩ := exec_follows i s
    obtain ⟨hb, -, hs, -, -, hh⟩ := hP.start_outside
    refine ⟨P, hb, hs, hh, hP.noEmptyWrite, fun as => ?_⟩
    rw [← hrun as]
    simp [runCommand, hw, hd]

theorem rst_sink (s : State) (k : Nat) :
    (s.rst k).sink = s.sink ++ (pendingBytes s.busy).take k := rfl

/-- Settles O10: the cut command runs against a silent sink, so RST finds all its output pending;
and the same plan writes it all where the sink accepts. -/
theorem cutCommandGivesNoResponse : Obligations.CutCommandGivesNoResponse := by
  intro s t k rest hb hh hw
  obtain ⟨P, hbusy, hsink, hhost, hne, hrun⟩ := runCommand_follows hw (s.takeEvent rest)
  have hb₀ : P.start.busy = none := hbusy.trans hb
  obtain ⟨hsilent, hpending⟩ := P.run_silent hb₀
  obtain ⟨-, -, -, -, hh₀, -⟩ := P.run_frame []
  refine ⟨((P.run []).rst k).withAnswers s.sinkAnswers, ?_, rfl, rfl, rfl, rfl, rfl, rfl,
    hh₀.trans hhost, rfl, P.output, ?_, fun n hn => ?_⟩
  · rw [step_commandCut hb hh, runCut, hrun]
    rfl
  · rw [State.withAnswers_sink, rst_sink, hpending, hsilent, hsink, State.takeEvent_sink]
  · obtain ⟨hdone, hwritten⟩ := P.run_accepting hb₀ hne hn
    refine ⟨_, (step_command (s := { s with
        host := .command t :: rest, sinkAnswers := List.replicate n .accept }) hb rfl).trans
      (hrun (List.replicate n .accept)), hdone, ?_⟩
    rw [hwritten, hsink, State.takeEvent_sink]

/-- A presented transaction only appends to the sink (R56). -/
theorem runCommand_sink {t : Transaction} {s u : State} (h : runCommand t s = .next u) :
    s.sink <+: u.sink := by
  have hw : t.wf = true := by
    by_contra hn
    rw [runCommand_tooLong (Bool.eq_false_iff.mpr hn)] at h
    cases h
  obtain ⟨P, -, hsink, -, -, hrun⟩ := runCommand_follows hw s
  obtain rfl := Outcome.next.inj (h.symm.trans (hrun s.sinkAnswers))
  exact hsink ▸ P.run_sink _

/-- Settles O18, by the cases of `step_cases`. -/
theorem sinkIsAppendOnly : Obligations.SinkIsAppendOnly := by
  intro s u h
  rcases step_cases s u h with ⟨-, -, rfl⟩ | ⟨-, t, rest, -, hc⟩ | ⟨-, t, k, rest, -, hc⟩ |
    ⟨k, rest, -, rfl⟩ | ⟨x, -, rfl⟩
  · exact List.prefix_rfl
  · exact runCommand_sink (s := s.takeEvent rest) hc
  · obtain ⟨v, hv, rfl⟩ := runCut_next t k _ u hc
    exact (runCommand_sink hv).trans (List.prefix_append _ _)
  · exact List.prefix_append _ _
  · exact drain_sink _ _ _

end Sys2Proof.Machine
end

section
/-!
Data fields whose phase is at its first value are never observed (R35). In an open session no field
is gated, so two states that agree are the same (`AgreeVisible.eq_of_open`); this covers the AEAD
commands and every waiting command. Each other command tests a phase before it reads a unit, and
where the test passes the two states have the same unit.
-/

namespace Sys2Proof.Machine

open Host

/-! ### States that agree -/

theorem AgreeVisible.refl (s : State) : AgreeVisible s s :=
  ⟨rfl, fun _ => rfl, rfl, fun _ => rfl, rfl, fun _ => rfl, rfl, rfl, rfl, rfl, rfl, rfl⟩

theorem OutcomesAgree.refl (o : Outcome State Fault Refusal) : OutcomesAgree o o := by
  cases o with
  | next s => exact AgreeVisible.refl s
  | fault r => rfl
  | refused r => rfl

section
variable {s t : State} (h : AgreeVisible s t)
include h

/-- In an open session all units are in use, so nothing is hidden (R34, R35). -/
theorem AgreeVisible.eq_of_open (hs : s.Inv) (ho : s.a.PHASE = .OPEN) : s = t := by
  obtain ⟨hready, hactive⟩ := hs.session ho
  obtain ⟨-, hcc, -, hp, -, ha, hb, hr, hsink, hans, hdiv, hhost⟩ := h
  cases s
  cases t
  obtain rfl := hcc hready
  obtain rfl := hp hactive
  obtain rfl := ha ho
  obtain rfl := hb
  obtain rfl := hr
  obtain rfl := hsink
  obtain rfl := hans
  obtain rfl := hdiv
  obtain rfl := hhost
  rfl

theorem AgreeVisible.takeEvent (es : List HostEvent) : AgreeVisible (s.takeEvent es) (t.takeEvent es) :=
  { h with response := rfl, host := rfl }

theorem AgreeVisible.withAnswers (as : List SinkAnswer) :
    AgreeVisible (s.withAnswers as) (t.withAnswers as) :=
  { h with sinkAnswers := rfl }

theorem AgreeVisible.respond (e : Status) (d : List Byte) :
    AgreeVisible (s.respond e d) (t.respond e d) :=
  { h with response := rfl }

/-- An error sets phases to their first value at most, and writes no data field (R213). -/
theorem AgreeVisible.void (v : Voids) : AgreeVisible (s.void v) (t.void v) := by
  cases v with
  | nothing => exact h
  | cipher => exact { h with ccPhase := rfl, cc := nofun }
  | session =>
    exact { h with
      ccPhase := rfl, cc := nofun, pPhase := rfl, p := nofun, aPhase := rfl, a := nofun }

/-- RST leaves nothing of the units (R240). -/
theorem AgreeVisible.rst (k : Nat) : AgreeVisible (s.rst k) (t.rst k) :=
  { AgreeVisible.refl State.reset with
    sink := by rw [rst_sink, rst_sink, h.sink, h.busy]
    sinkAnswers := h.sinkAnswers
    divisions := h.divisions
    host := h.host }

/-! ### The parts of a command -/

theorem raise_agree (e : Status) (v : Voids) : OutcomesAgree (raise e v s) (raise e v t) :=
  (h.void v).respond e []

/-- A check that the two states pass or fail together. -/
theorem check_agree {c d : Prop} [Decidable c] [Decidable d] {e : Status} {v : Voids}
    {o q : Outcome State Fault Refusal} (hcd : c ↔ d) (hoq : ¬ c → OutcomesAgree o q) :
    OutcomesAgree (if c then raise e v s else o) (if d then raise e v t else q) := by
  by_cases hc : c
  · rw [if_pos hc, if_pos (hcd.mp hc)]
    exact raise_agree h e v
  · rw [if_neg hc, if_neg (mt hcd.mpr hc)]
    exact hoq hc

theorem not_cipherUsable_agree : ¬ cipherUsable s ↔ ¬ cipherUsable t := by
  rw [cipherUsable, cipherUsable, h.aPhase, h.ccPhase]

theorem not_authUsable_agree : ¬ authUsable s ↔ ¬ authUsable t := by
  rw [authUsable, authUsable, h.aPhase, h.pPhase]

/-- A command that gives the cipher unit the same value in both states. -/
theorem AgreeVisible.sameCipher {u : CipherUnit} :
    AgreeVisible { s with cc := u } { t with cc := u } :=
  { h with ccPhase := rfl, cc := fun _ => rfl }

/-- A command that gives the authenticator the same value in both states. -/
theorem AgreeVisible.sameAuth {u : AuthUnit} : AgreeVisible { s with p := u } { t with p := u } :=
  { h with pPhase := rfl, p := fun _ => rfl }

theorem AgreeVisible.setCounter (hcc : s.cc = t.cc) (c : Word) :
    AgreeVisible (s.setCounter c) (t.setCounter c) := by
  rw [State.setCounter, State.setCounter, hcc]
  exact h.sameCipher

theorem AgreeVisible.absorb (hp : s.p = t.p) (d : List Byte) :
    AgreeVisible (s.absorb d) (t.absorb d) := by
  rw [State.absorb, State.absorb, hp]
  exact h.sameAuth

theorem AgreeVisible.exhaustAuth : AgreeVisible s.exhaustAuth t.exhaustAuth :=
  { h with pPhase := rfl, p := nofun }

/-! ### The commands without a session -/

theorem execCcInit_agree (key nonce : List Byte) (ctr : Option Word) :
    OutcomesAgree (execCcInit key nonce ctr s) (execCcInit key nonce ctr t) :=
  check_agree h (by rw [h.aPhase]) fun _ => check_agree h Iff.rfl fun _ =>
    check_agree h Iff.rfl fun _ => h.sameCipher.respond _ _

theorem execCcBlock_agree : OutcomesAgree (execCcBlock s) (execCcBlock t) :=
  check_agree h (not_cipherUsable_agree h) fun hu => by
    have hcc := h.cc (not_not.mp hu).2
    rw [hcc]
    exact check_agree h Iff.rfl fun _ => (h.setCounter hcc _).respond _ _

theorem xorData_agree (hcc : s.cc = t.cc) (data : List Byte) :
    OutcomesAgree (xorData data s) (xorData data t) := by
  rw [xorData, xorData, hcc]
  exact check_agree h Iff.rfl fun _ => (h.setCounter hcc _).respond _ _

theorem execCcXor_agree (data : List Byte) :
    OutcomesAgree (execCcXor data s) (execCcXor data t) :=
  check_agree h (not_cipherUsable_agree h) fun hu => xorData_agree h (h.cc (not_not.mp hu).2) data

theorem execCcXorb_agree (data : List Byte) :
    OutcomesAgree (execCcXorb data s) (execCcXorb data t) :=
  check_agree h (not_cipherUsable_agree h) fun hu => check_agree h Iff.rfl fun _ =>
    xorData_agree h (h.cc (not_not.mp hu).2) data

theorem execCcReset_agree : OutcomesAgree (execCcReset s) (execCcReset t) :=
  check_agree h (not_cipherUsable_agree h) fun hu => by
    have hcc := h.cc (not_not.mp hu).2
    rw [hcc]
    exact (h.setCounter hcc _).respond _ _

theorem execPInit_agree (key : List Byte) : OutcomesAgree (execPInit key s) (execPInit key t) :=
  check_agree h (by rw [h.aPhase]) fun _ => check_agree h Iff.rfl fun _ => h.sameAuth.respond _ _

theorem execPDerive_agree : OutcomesAgree (execPDerive s) (execPDerive t) :=
  check_agree h (not_cipherUsable_agree h) fun hu => by
    have hcc := h.cc (not_not.mp hu).2
    rw [hcc]
    exact check_agree h Iff.rfl fun _ => (h.setCounter hcc _).sameAuth.respond _ _

theorem execPUpdate_agree (data : List Byte) :
    OutcomesAgree (execPUpdate data s) (execPUpdate data t) :=
  check_agree h (not_authUsable_agree h) fun hu =>
    (h.absorb (h.p (not_not.mp hu).2) data).respond _ _

theorem execPFinal_agree : OutcomesAgree (execPFinal s) (execPFinal t) :=
  check_agree h (not_authUsable_agree h) fun hu => by
    rw [State.tag, State.tag, h.p (not_not.mp hu).2]
    exact h.exhaustAuth.respond _ _

/-- AEAD_INIT reads nothing of the state (R172). -/
theorem execAeadInit_agree (key nonce : List Byte) :
    OutcomesAgree (execAeadInit key nonce s) (execAeadInit key nonce t) :=
  check_agree h Iff.rfl fun _ => check_agree h Iff.rfl fun _ =>
    { h with
      ccPhase := rfl, cc := fun _ => rfl, pPhase := rfl, p := fun _ => rfl, aPhase := rfl,
      a := fun _ => rfl, response := rfl }

/-- A session's command is refused in both states where no session is open. -/
theorem sequenceError_agree {c d : Prop} [Decidable c] [Decidable d]
    {o q : Outcome State Fault Refusal} (hc : c) (hd : d) :
    OutcomesAgree (if c then raise .sequenceError .nothing s else o)
      (if d then raise .sequenceError .nothing t else q) :=
  check_agree h (iff_of_true hc hd) fun hn => absurd hc hn

/-! ### Every command -/

theorem exec_agree (hs : s.Inv) (i : Instr) : OutcomesAgree (exec i s) (exec i t) := by
  by_cases ho : s.a.PHASE = .OPEN
  · rw [h.eq_of_open hs ho]
    exact OutcomesAgree.refl _
  · have ht : t.a.PHASE ≠ .OPEN := h.aPhase ▸ ho
    exact match i with
      | .ccInit key nonce ctr => execCcInit_agree h key nonce ctr
      | .ccBlock => execCcBlock_agree h
      | .ccXor data => execCcXor_agree h data
      | .ccXorb data => execCcXorb_agree h data
      | .ccReset => execCcReset_agree h
      | .pInit key => execPInit_agree h key
      | .pDerive => execPDerive_agree h
      | .pUpdate data => execPUpdate_agree h data
      | .pFinal => execPFinal_agree h
      | .aeadInit key nonce => execAeadInit_agree h key nonce
      | .aeadAad _ => sequenceError_agree h ho ht
      | .aeadUpdate _ => sequenceError_agree h ho ht
      | .aeadFinal => sequenceError_agree h ho ht
      | .aeadDecrypt _ _ => sequenceError_agree h (mt And.left ho) (mt And.left ht)

theorem runCommand_agree (hs : s.Inv) (x : Transaction) :
    OutcomesAgree (runCommand x s) (runCommand x t) := by
  cases hw : x.wf with
  | false =>
    rw [runCommand_tooLong hw, runCommand_tooLong hw]
    rfl
  | true =>
    cases hd : decode x with
    | error e =>
      rw [runCommand_of_error s hw hd, runCommand_of_error t hw hd]
      exact raise_agree h _ _
    | ok i =>
      simp only [runCommand, hw, hd]
      exact exec_agree h hs i

theorem runCut_agree (hs : s.Inv) (x : Transaction) (k : Nat) :
    OutcomesAgree (runCut x k s) (runCut x k t) := by
  cases hw : x.wf with
  | false =>
    rw [runCut, runCut, runCommand_tooLong hw, runCommand_tooLong hw]
    rfl
  | true =>
    obtain ⟨u, hu⟩ := runCommand_next hw (s.withAnswers [])
    obtain ⟨v, hv⟩ := runCommand_next hw (t.withAnswers [])
    have huv := runCommand_agree (h.withAnswers []) (hs.withAnswers []) x
    rw [hu, hv] at huv
    rw [runCut, runCut, hu, hv, h.sinkAnswers]
    exact (AgreeVisible.rst huv k).withAnswers _

end

/-- Settles O17: a waiting command has an open session, and on an idle block the same action of the
host meets states that agree. -/
theorem gatedFieldsAreNeverObserved : Obligations.GatedFieldsAreNeverObserved := by
  intro s t hs _ h
  cases hb : s.busy with
  | some x =>
    rw [h.eq_of_open hs (hs.waiting x hb).1]
    exact OutcomesAgree.refl _
  | none =>
    have hbt : t.busy = none := h.busy.symm.trans hb
    cases hh : s.host with
    | nil =>
      rw [step_nothing hb hh, step_nothing hbt (h.host.symm.trans hh)]
      exact h
    | cons ev rest =>
      have hht : t.host = ev :: rest := h.host.symm.trans hh
      have htaken := h.takeEvent rest
      have hinv := hs.takeEvent rest
      cases ev with
      | command x =>
        rw [step_command hb hh, step_command hbt hht]
        exact runCommand_agree htaken hinv x
      | overlapping x =>
        rw [step_overlapping hb hh, step_overlapping hbt hht]
        exact runCommand_agree htaken hinv x
      | rst k =>
        rw [step_rst hh, step_rst hht]
        exact htaken.rst k
      | commandCut x k =>
        rw [step_commandCut hb hh, step_commandCut hbt hht]
        exact runCut_agree htaken hinv x k

end Sys2Proof.Machine
end

section
/-!
Quarter rounds on disjoint words (R102), and CC_XOR as a function of the data: it is its own inverse
over CC_RESET, and takes its data in chunks (R105, R112, R248).
-/

namespace Sys2Proof.Machine

open Host

/-! ### Quarter rounds on disjoint words -/

section
variable {a b c d : Fin 16} (hn : [a, b, c, d].Nodup)
include hn

/-- A quarter round leaves the other twelve words (R101). -/
theorem quarterRound_other (x : CipherState) {j : Fin 16} (hj : j ∉ [a, b, c, d]) :
    (quarterRound x a b c d)[j] = x[j] := by
  obtain ⟨-, -, -, -, hother⟩ :=
    quarterRoundSteps x a b c d hn _ _ _ _ _ _ _ _ rfl rfl rfl rfl rfl rfl rfl rfl
  exact hother j hj

/-- A quarter round reads its own four words only (R101). -/
theorem quarterRound_congr {x y : CipherState} (h : ∀ j ∈ [a, b, c, d], x[j] = y[j]) {j : Fin 16}
    (hj : j ∈ [a, b, c, d]) : (quarterRound x a b c d)[j] = (quarterRound y a b c d)[j] := by
  obtain ⟨hxa, hxb, hxc, hxd, -⟩ :=
    quarterRoundSteps x a b c d hn _ _ _ _ _ _ _ _ rfl rfl rfl rfl rfl rfl rfl rfl
  obtain ⟨hya, hyb, hyc, hyd, -⟩ :=
    quarterRoundSteps y a b c d hn _ _ _ _ _ _ _ _ rfl rfl rfl rfl rfl rfl rfl rfl
  have ha : x[a] = y[a] := h a (by simp)
  have hb : x[b] = y[b] := h b (by simp)
  have hc : x[c] = y[c] := h c (by simp)
  have hd : x[d] = y[d] := h d (by simp)
  rw [ha, hb, hc, hd] at hxa hxb hxc hxd
  simp only [List.mem_cons, List.not_mem_nil, or_false] at hj
  rcases hj with rfl | rfl | rfl | rfl
  · exact hxa.trans hya.symm
  · exact hxb.trans hyb.symm
  · exact hxc.trans hyc.symm
  · exact hxd.trans hyd.symm

end

/-- Settles O30, word by word: a word of the first four is written by the first round only, which
reads none of the other four; and so for the second. -/
theorem disjointQuarterRoundsCommute : Obligations.DisjointQuarterRoundsCommute := by
  intro x a b c d a' b' c' d' hdist
  obtain ⟨hn, hn', hdisj⟩ := List.nodup_append.mp
    (show ([a, b, c, d] ++ [a', b', c', d']).Nodup from hdist)
  refine Vector.ext fun i hi => ?_
  let j : Fin 16 := ⟨i, hi⟩
  change (quarterRound (quarterRound x a b c d) a' b' c' d')[j]
    = (quarterRound (quarterRound x a' b' c' d') a b c d)[j]
  by_cases hj : j ∈ [a, b, c, d]
  · have hj' : j ∉ [a', b', c', d'] := fun hm => hdisj j hj j hm rfl
    rw [quarterRound_other hn' _ hj']
    exact quarterRound_congr hn
      (fun l hl => (quarterRound_other hn' x fun hm => hdisj l hl l hm rfl).symm) hj
  · rw [quarterRound_other hn _ hj]
    by_cases hj' : j ∈ [a', b', c', d']
    · exact quarterRound_congr hn'
        (fun l hl => quarterRound_other hn x fun hm => hdisj l hm l hl rfl) hj'
    · rw [quarterRound_other hn' _ hj', quarterRound_other hn' _ hj', quarterRound_other hn _ hj]

/-! ### CC_XOR -/

/-- The state after a CC_XOR whose blocks are there (R105, R109). -/
def State.xored (s : State) (data : List Byte) : State :=
  (s.setCounter (keystreamXor s.cc.S data).2).respond .ok (keystreamXor s.cc.S data).1

theorem exec_ccXor {data : List Byte} {s : State} (ha : s.a.PHASE = .IDLE) (hr : s.cc.PHASE = .READY)
    (hc : blocksAvail (counterOf s.cc.S) (blocksFor data.length)) :
    exec (.ccXor data) s = .next (s.xored data) :=
  (phaseCheck_passes ha hr _ _).trans (if_neg (not_not.mpr hc))

/-- CC_RESET after a CC_XOR that began at CC.CTR0 gives the cipher state back (R111). -/
theorem exec_ccReset_xored {s : State} (m : List Byte) (ha : s.a.PHASE = .IDLE)
    (hr : s.cc.PHASE = .READY) (hc : s.cc.S[12] = s.cc.CTR0) :
    exec .ccReset (s.xored m) = .next (s.respond .ok []) := by
  have hcc : withCounter (withCounter s.cc.S (keystreamXor s.cc.S m).2) s.cc.CTR0 = s.cc.S := by
    rw [withCounter_withCounter, ← hc]
    exact withCounter_counterOf s.cc.S
  calc exec .ccReset (s.xored m)
    _ = .next (((s.xored m).setCounter s.cc.CTR0).respond .ok []) := phaseCheck_passes ha hr _ _
    _ = .next ({ s with cc := { s.cc with
          S := withCounter (withCounter s.cc.S (keystreamXor s.cc.S m).2) s.cc.CTR0 } }.respond .ok
            []) := rfl
    _ = .next (s.respond .ok []) := by rw [hcc]

/-- Settles O42: the second CC_XOR starts from the cipher state of the first, and KeystreamXor is
its own inverse. -/
theorem xorIsItsOwnInverse : Obligations.XorIsItsOwnInverse := by
  intro m s ha hr hc hb
  let x := (keystreamXor s.cc.S m).1
  have hx : blocksAvail (counterOf s.cc.S) (blocksFor x.length) := by
    rw [keystreamXor_length]
    exact hb
  refine ⟨s.xored m, s.respond .ok [], (s.respond .ok []).xored x, x, exec_ccXor ha hr hb, rfl,
    exec_ccReset_xored m ha hr hc, exec_ccXor ha hr hx, ?_⟩
  exact congrArg (fun d => some (⟨.ok, d⟩ : Response)) (keystreamXor_keystreamXor s.cc.S m)

/-- The blocks of two chunks, the first aligned, are the blocks of the whole (R105). -/
theorem blocksFor_append {m n : Nat} (h : m % 64 = 0) :
    blocksFor (m + n) = blocksFor m + blocksFor n := by
  simp only [blocksFor_eq]
  omega

/-- The counter after two chunks, the first aligned, is that after the whole (R105). -/
theorem keystreamXor_append_counter (s : CipherState) {x : List Byte} (y : List Byte)
    (h : x.length % 64 = 0) :
    (keystreamXor (withCounter s (keystreamXor s x).2) y).2 = (keystreamXor s (x ++ y)).2 := by
  rw [keystreamXor_counter, counterOf_withCounter, keystreamXor_counter, keystreamXor_counter,
    List.length_append, blocksFor_append h, BitVec.ofNat_add, BitVec.add_assoc]

/-- Where the blocks of the whole are there, those of the first chunk are, and after it those of the
second (R106). -/
theorem blocksAvail_append {s : CipherState} {x y : List Byte} (h : x.length % 64 = 0)
    (hb : blocksAvail (counterOf s) (blocksFor (x ++ y).length)) :
    blocksAvail (counterOf s) (blocksFor x.length) ∧
      blocksAvail (keystreamXor s x).2 (blocksFor y.length) := by
  rw [List.length_append, blocksFor_append h] at hb
  have hx : blocksAvail (counterOf s) (blocksFor x.length) := blocksAvail_mono (Nat.le_add_right _ _) hb
  refine ⟨hx, ?_⟩
  rw [blocksAvail, keystreamXor_counter_toNat s x hx, Nat.add_assoc]
  exact hb

/-- Settles O43, from what KeystreamXor does with an aligned start of the data. -/
theorem xorChunksCompose : Obligations.XorChunksCompose := by
  intro x y s ha hr hx hb
  obtain ⟨hbx, hby⟩ := blocksAvail_append hx hb
  have hby : blocksAvail (counterOf (s.xored x).cc.S) (blocksFor y.length) := by
    rwa [State.xored, State.respond_cc, State.setCounter_cc, counterOf_withCounter]
  refine ⟨s.xored x, (s.xored x).xored y, s.xored (x ++ y), _, _, exec_ccXor ha hr hbx, rfl,
    exec_ccXor ha hr hby, rfl, exec_ccXor ha hr hb, ?_, ?_⟩
  · exact congrArg (fun d => some (⟨.ok, d⟩ : Response)) (keystreamXor_append s.cc.S x y hx)
  · simp only [State.xored, State.respond_cc, State.setCounter_cc, withCounter_withCounter,
      keystreamXor_append_counter s.cc.S y hx]

end Sys2Proof.Machine
end

section
/-!
The division of a command's output into writes is not seen (R57), and what sessions do in chunks
(R180, R247).
-/

namespace Sys2Proof.Machine

open Host

/-! ### Every division is one of the model's -/

/-- What is split off is the start of the bytes. -/
theorem splitWrites_fst_bytes (n : Nat) (ws : List Write) :
    (splitWrites n ws).1.bytes = (ws.flatMap Write.bytes).take n := by
  have h := congrArg (List.take (splitWrites n ws).1.bytes.length) (splitWrites_bytes n ws)
  rw [List.take_left, splitWrites_length] at h
  rw [h, List.take_eq_take_iff]
  omega

/-- What is left has the other bytes. -/
theorem splitWrites_snd_bytes (n : Nat) (ws : List Write) :
    (splitWrites n ws).2.flatMap Write.bytes = (ws.flatMap Write.bytes).drop n := by
  have h := splitWrites_bytes n ws
  rw [splitWrites_fst_bytes] at h
  exact List.append_cancel_left (h.trans (List.take_append_drop n _).symm)

/-- Non-empty parts of the output, in order, are the writes of the division by their lengths (R57).
-/
theorem divide_lengths {L : List (List Byte)} {ws : List Write} (hL : ∀ c ∈ L, c ≠ [])
    (hws : ∀ w ∈ ws, w.bytes ≠ []) (h : L.flatten = ws.flatMap Write.bytes) :
    (divide (L.map List.length) ws).map Write.bytes = L := by
  induction L generalizing ws with
  | nil =>
    have hlen := length_le_bytes ws hws
    rw [← h] at hlen
    obtain rfl : ws = [] := List.length_eq_zero_iff.mp (Nat.le_zero.mp hlen)
    rfl
  | cons c L ih =>
    have hc := List.length_pos_of_ne_nil (hL c List.mem_cons_self)
    cases ws with
    | nil => simp [hL c List.mem_cons_self] at h
    | cons w ws =>
      have hmax : max c.length 1 = c.length := max_eq_left hc
      have hfst : (splitWrites c.length (w :: ws)).1.bytes = c := by
        rw [splitWrites_fst_bytes, ← h, List.flatten_cons, List.take_left]
      have hsnd : L.flatten = (splitWrites c.length (w :: ws)).2.flatMap Write.bytes := by
        rw [splitWrites_snd_bytes, ← h, List.flatten_cons, List.drop_left]
      simp only [List.map_cons, divide, hmax, hfst]
      rw [ih (fun d hd => hL d (List.mem_cons_of_mem _ hd)) (splitWrites_ne_nil _ _ hws) hsnd]

/-! ### The same end, whatever the division -/

/-- A sink that accepts every write of a division gets the same bytes, and the command ends as if
its output were not divided anew (R57). -/
theorem drain_divide {ws : List Write} (hws : ∀ w ∈ ws, w.feed.length % 16 = 0) (ns : List Nat)
    (f : Finish) (s : State) (as : List SinkAnswer) :
    drain (divide ns ws) f
        { s with sinkAnswers := List.replicate (divide ns ws).length .accept ++ as }
      = drain ws f { s with sinkAnswers := List.replicate ws.length .accept ++ as } := by
  rw [drain_all_accepted _ f _ as rfl, drain_all_accepted ws f _ as rfl,
    acceptAll_aligned _ _ (divide_aligned ns ws hws), acceptAll_aligned _ _ hws, divide_bytes,
    divide_feed]
  rfl

/-! ### The same failure, whatever the division -/

/-- Every start of the output ends in some write of the command, or at its end. -/
theorem exists_write_at {ws : List Write} (hne : ws ≠ []) {b c : List Byte}
    (h : b ++ c = ws.flatMap Write.bytes) :
    ∃ pre w post k, ws = pre ++ w :: post ∧ pre.flatMap Write.bytes ++ w.bytes.take k = b := by
  induction ws generalizing b with
  | nil => exact absurd rfl hne
  | cons w ws ih =>
    rw [List.flatMap_cons] at h
    rcases List.append_eq_append_iff.mp h with ⟨d, hw, -⟩ | ⟨d, rfl, hd⟩
    · exact ⟨[], w, ws, b.length, rfl, by simp [hw]⟩
    · cases ws with
      | nil =>
        have hd : d = [] := (List.append_eq_nil_iff.mp hd.symm).1
        exact ⟨[], w, [], w.bytes.length, rfl, by simp [hd]⟩
      | cons v vs =>
        obtain ⟨pre, u, post, k, hws, hb⟩ := ih (List.cons_ne_nil v vs) hd.symm
        exact ⟨w :: pre, u, post, k, by rw [hws]; rfl, by rw [List.flatMap_cons, List.append_assoc, hb]⟩

/-- Two failures after the same bytes, with the same descriptor, cannot be told apart. -/
theorem agreeVisible_of_endedBySink {s t u v : State} {pre pre' : List Write} {w w' : Write}
    {e : SinkErr} {k k' : Nat} {rest : List SinkAnswer} (hu : EndedBySink s u pre w e k rest)
    (hv : EndedBySink t v pre' w' e k' rest) (hsink : s.sink = t.sink) (hhost : s.host = t.host)
    (hdiv : u.divisions = v.divisions)
    (hb : pre.flatMap Write.bytes ++ w.bytes.take k
      = pre'.flatMap Write.bytes ++ w'.bytes.take k') : AgreeVisible u v := by
  obtain ⟨hr, hs, hans, hbusy, hh, hcc, hp, ha, -⟩ := hu
  obtain ⟨hr', hs', hans', hbusy', hh', hcc', hp', ha', -⟩ := hv
  exact {
    ccPhase := hcc.trans hcc'.symm
    cc := fun hx => by simp [hcc] at hx
    pPhase := hp.trans hp'.symm
    p := fun hx => by simp [hp] at hx
    aPhase := ha.trans ha'.symm
    a := fun hx => by simp [ha] at hx
    busy := hbusy.trans hbusy'.symm
    response := hr.trans hr'.symm
    sink := by rw [hs, hs', List.append_assoc, List.append_assoc, hb, hsink]
    sinkAnswers := hans.trans hans'.symm
    divisions := hdiv
    host := hh.trans (hhost.trans hh'.symm) }

/-- Settles O56: a division has the same bytes and feeds the same blocks, and a failure after some
bytes is one of the write in which these bytes end. -/
theorem cuttingAWriteIsNotSeen : Obligations.CuttingAWriteIsNotSeen := by
  intro ws f s hws
  have hne : ∀ w ∈ ws, w.bytes ≠ [] := fun w hw => (hws w hw).1
  refine ⟨fun L hL h => ⟨_, divide_lengths hL hne h⟩, fun ns => ⟨⟨divide_bytes ns ws,
    divide_ne_nil ns ws hne⟩, fun as => drain_divide (fun w hw => (hws w hw).2) ns f s as,
    fun pre w e k rest hfail => ?_⟩⟩
  have ⟨⟨post, hdiv⟩, _⟩ := hfail
  have hnil : ws ≠ [] := by
    rintro rfl
    rw [divide_nil] at hdiv
    simp at hdiv
  have hstart : pre.flatMap Write.bytes ++ w.bytes.take k ++
      (w.bytes.drop k ++ post.flatMap Write.bytes) = ws.flatMap Write.bytes := by
    rw [← divide_bytes ns ws, hdiv]
    simp [← List.append_assoc (w.bytes.take k)]
  obtain ⟨pre', w', post', k', hws', hb⟩ := exists_write_at hnil hstart
  let s' : State := { s with sinkAnswers := List.replicate pre'.length .accept ++ .fail e k' :: rest }
  have hfail' : SinkFailsAt ws s' pre' w' e k' rest := ⟨⟨post', hws'⟩, rfl⟩
  obtain ⟨-, hd, -⟩ := drain_frame (divide ns ws) f s
  obtain ⟨-, hd', -⟩ := drain_frame ws f s'
  exact ⟨pre', w', k', hfail', hb, agreeVisible_of_endedBySink (endedBySink_drain hfail f)
    (endedBySink_drain hfail' f) rfl rfl (hd.trans hd'.symm) hb.symm⟩

/-! ### Chunks of a session -/

/-- An accepting answer for each padded byte is one for each write of AlignWrite (R57, R170). -/
theorem sinkAccepts_alignWrites {s : State} {n : Nat} {x : List Byte}
    (hs : s.sinkAnswers = List.replicate n .accept) (hn : (pad16 x).length ≤ n) :
    ∃ m, n ≤ m + (pad16 x).length ∧
      s.sinkAccepts (s.divided (alignWrites x)).length (List.replicate m .accept) := by
  rw [← alignWrites_bytes] at hn ⊢
  exact sinkAccepts_divided (fun w hw => (alignWrites_mem x w hw).2.2) hs hn

/-- Absorbing reads the authenticator only. -/
theorem absorb_p_congr {s t : State} (h : s.p = t.p) (d : List Byte) :
    (s.absorb d).p = (t.absorb d).p := by rw [State.absorb_p, State.absorb_p, h]

/-- Bytes absorbed after an aligned start extend it (R150). -/
theorem absorb_append (s : State) {x : List Byte} (y : List Byte) (h : x.length % 16 = 0) :
    ((s.absorb x).absorb y).p = (s.absorb (x ++ y)).p := by
  simp only [State.absorb_p, toNat_ofNat_polyAbsorb]
  rw [polyAbsorb_aligned _ _ _ _ h]

/-- Two counts are one count of the sum (R31, R32). -/
theorem add_ofNat_add_ofNat (c : BitVec 64) (m n : Nat) :
    c + BitVec.ofNat 64 m + BitVec.ofNat 64 n = c + BitVec.ofNat 64 (m + n) := by
  rw [BitVec.ofNat_add, BitVec.add_assoc]

/-- The state after an AEAD_AAD that the sink accepts (R173). -/
def State.aadDone (s : State) (x : List Byte) (rest : List SinkAnswer) : State :=
  ((s.beginAad x).wrote (pad16 x) rest).finishWith .aad

/-- The state after an AEAD_UPDATE that the sink accepts (R174). -/
def State.updateDone (s : State) (x : List Byte) (rest : List SinkAnswer) : State :=
  ((s.beginUpdate x).wrote (pad16 (keystreamXor s.cc.S x).1) rest).finishWith
    (.update (keystreamXor s.cc.S x).1)

section
variable (s : State) (x : List Byte) (rest : List SinkAnswer)

theorem aadDone_p : (s.aadDone x rest).p = (s.absorb (pad16 x)).p := rfl

theorem aadDone_a : (s.aadDone x rest).a
    = ⟨s.a.PHASE, false, s.a.AADLEN + BitVec.ofNat 64 x.length, s.a.PTLEN⟩ := rfl

theorem aadDone_sink : (s.aadDone x rest).sink = s.sink ++ pad16 x := rfl

theorem updateDone_cc : (s.updateDone x rest).cc
    = { s.cc with S := withCounter s.cc.S (keystreamXor s.cc.S x).2 } := rfl

theorem updateDone_p : (s.updateDone x rest).p
    = (s.absorb (pad16 (keystreamXor s.cc.S x).1)).p := rfl

theorem updateDone_a : (s.updateDone x rest).a
    = ⟨s.a.PHASE, false, s.a.AADLEN, s.a.PTLEN + BitVec.ofNat 64 x.length⟩ := by
  rw [← keystreamXor_length s.cc.S x]
  rfl

theorem updateDone_sink : (s.updateDone x rest).sink
    = s.sink ++ pad16 (keystreamXor s.cc.S x).1 := rfl

end

/-- The units and the sink after two AEAD_AADs, the first aligned (R180). -/
theorem aadDone_aadDone {s : State} {x : List Byte} (y : List Byte) (h : x.length % 16 = 0)
    (r₁ r₂ r : List SinkAnswer) :
    let u := (s.aadDone x r₁).aadDone y r₂
    let v := s.aadDone (x ++ y) r
    u.cc = v.cc ∧ u.p = v.p ∧ u.a = v.a ∧ u.sink = v.sink ∧ u.response = v.response := by
  refine ⟨rfl, ?_, ?_, ?_, rfl⟩
  · rw [aadDone_p, absorb_p_congr (aadDone_p s x r₁), aadDone_p, pad16_append x y h,
      pad16_of_aligned x h, absorb_append s _ h]
  · simp only [aadDone_a, add_ofNat_add_ofNat, List.length_append]
  · rw [aadDone_sink, aadDone_sink, aadDone_sink, pad16_append x y h, pad16_of_aligned x h,
      List.append_assoc]

/-- The units and the sink after two AEAD_UPDATEs, the first aligned (R180). -/
theorem updateDone_updateDone {s : State} {x : List Byte} (y : List Byte) (h : x.length % 64 = 0)
    (r₁ r₂ r : List SinkAnswer) :
    let u := (s.updateDone x r₁).updateDone y r₂
    let v := s.updateDone (x ++ y) r
    u.cc = v.cc ∧ u.p = v.p ∧ u.a = v.a ∧ u.sink = v.sink := by
  have h16 : (keystreamXor s.cc.S x).1.length % 16 = 0 := by rw [keystreamXor_length]; omega
  have hout : pad16 (keystreamXor s.cc.S (x ++ y)).1 = (keystreamXor s.cc.S x).1 ++
      pad16 (keystreamXor (withCounter s.cc.S (keystreamXor s.cc.S x).2) y).1 := by
    rw [keystreamXor_append _ _ _ h, pad16_append _ _ h16]
  refine ⟨?_, ?_, ?_, ?_⟩
  · simp only [updateDone_cc, withCounter_withCounter, keystreamXor_append_counter _ y h]
  · rw [updateDone_p, absorb_p_congr (updateDone_p s x r₁), updateDone_p, updateDone_cc, hout,
      pad16_of_aligned _ h16, absorb_append s _ h16]
  · simp only [updateDone_a, add_ofNat_add_ofNat, List.length_append]
  · rw [updateDone_sink, updateDone_sink, updateDone_sink, updateDone_cc, hout,
      pad16_of_aligned _ h16, List.append_assoc]

section
variable {x : List Byte} {s : State} {n : Nat} (ho : s.a.PHASE = .OPEN)
  (hs : s.sinkAnswers = List.replicate n .accept) (hn : (pad16 x).length ≤ n)
include ho hs hn

theorem exec_aeadAad_accepted (hf : lengthFits s.a.AADLEN x.length) :
    ∃ m, n ≤ m + (pad16 x).length ∧
      exec (.aeadAad x) s = .next (s.aadDone x (List.replicate m .accept)) := by
  obtain ⟨m, hm, hacc⟩ := sinkAccepts_alignWrites (s := s.beginAad x) hs hn
  exact ⟨m, hm, (exec_aeadAad ho hf).trans (congrArg _ (writeOut_alignWrites hacc .aad))⟩

theorem exec_aeadUpdate_accepted (hc : blocksAvail (counterOf s.cc.S) (blocksFor x.length))
    (hf : lengthFits s.a.PTLEN x.length) :
    ∃ m, n ≤ m + (pad16 x).length ∧
      exec (.aeadUpdate x) s = .next (s.updateDone x (List.replicate m .accept)) := by
  have hlen : (pad16 (keystreamXor s.cc.S x).1).length = (pad16 x).length := by
    rw [pad16_length, keystreamXor_length, pad16_length]
  rw [← hlen] at hn ⊢
  obtain ⟨m, hm, hacc⟩ := sinkAccepts_alignWrites (s := s.beginUpdate x) hs hn
  exact ⟨m, hm, (exec_aeadUpdate ho hc hf).trans (congrArg _ (writeOut_alignWrites hacc _))⟩

end

/-- Where a count takes the whole, it takes the first chunk, and after it the second (R31, R32). -/
theorem lengthFits_append {len : BitVec 64} {m n : Nat} (h : lengthFits len (m + n)) :
    lengthFits len m ∧ lengthFits (len + BitVec.ofNat 64 m) n := by
  have hm : lengthFits len m := (Nat.add_le_add_left (Nat.le_add_right m n) _).trans h
  refine ⟨hm, ?_⟩
  rw [lengthFits, toNat_add_ofNat_of_lengthFits hm, Nat.add_assoc]
  exact h

/-- Settles O57: each of the three commands is accepted, and two accepted commands are one. -/
theorem sessionChunksCompose : Obligations.SessionChunksCompose := by
  intro x y s n ho hs hn
  have whole : ∀ h : x.length % 16 = 0, (pad16 (x ++ y)).length ≤ n := fun h => by
    rwa [pad16_append x y h, List.length_append, ← congrArg List.length (pad16_of_aligned x h)]
  have hnx : (pad16 x).length ≤ n := (Nat.le_add_right _ _).trans hn
  refine ⟨fun hx hf => ?_, fun hx hc hf => ?_⟩
  · rw [List.length_append] at hf
    obtain ⟨hfx, hfy⟩ := lengthFits_append hf
    obtain ⟨m, hm, ht⟩ := exec_aeadAad_accepted ho hs hnx hfx
    obtain ⟨m', -, hu⟩ := exec_aeadAad_accepted (x := y) (s := s.aadDone x (List.replicate m .accept))
      ho rfl (by omega) hfy
    obtain ⟨m'', -, hv⟩ := exec_aeadAad_accepted ho hs (whole hx) (by rwa [List.length_append])
    exact ⟨_, _, _, ht, hu, hv, aadDone_aadDone y hx _ _ _⟩
  · obtain ⟨hcx, hcy⟩ := blocksAvail_append hx hc
    rw [List.length_append] at hf
    obtain ⟨hfx, hfy⟩ := lengthFits_append hf
    obtain ⟨m, hm, ht⟩ := exec_aeadUpdate_accepted ho hs hnx hcx hfx
    obtain ⟨m', -, hu⟩ := exec_aeadUpdate_accepted (x := y)
      (s := s.updateDone x (List.replicate m .accept)) ho rfl (by omega)
      (by rwa [updateDone_cc, counterOf_withCounter]) (by rwa [updateDone_a])
    obtain ⟨m'', -, hv⟩ := exec_aeadUpdate_accepted ho hs (whole (by omega)) hc
      (by rwa [List.length_append])
    exact ⟨_, _, _, _, _, ht, rfl, hu, rfl, hv,
      congrArg (fun d => some (⟨.ok, d⟩ : Response)) (keystreamXor_append s.cc.S x y hx),
      updateDone_updateDone y hx _ _ _⟩

end Sys2Proof.Machine
end

section
/-!
Opening a sealed stream (R176, R177): its frame is read back (`footerAad_sealStream`,
`footerPt_sealStream`, `cipherSegment_sealStream`), its tag is the one AEAD_DECRYPT computes, and
the keystream XOR of the ciphertext is the plaintext.
-/

namespace Sys2Proof.Machine

open Host

/-! ### The frame of a sealed stream -/

section
variable (key nonce aad pt : List Byte)

theorem sealText_length : (sealText key nonce pt).length = pt.length := keystreamXor_length _ _

theorem sealStream_length :
    (sealStream key nonce aad pt).length = pad16len aad.length + pad16len pt.length + 16 := by
  simp [sealStream, sealText_length]
  omega

/-- A count of the footer is read back where it fits 64 bits (R10, R175). -/
theorem le64_of_slice {b : List Byte} {o n : Nat} (h : slice b o 8 = encLE 8 n) (hn : n < 2 ^ 64) :
    (le64 b o).toNat = n := by
  rw [toNat_le64, h, leNat_encLE, Nat.mod_eq_of_lt (by omega)]

theorem footerAad_sealStream (h : aad.length < 2 ^ 64) :
    footerAad (sealStream key nonce aad pt) = aad.length := by
  refine le64_of_slice ?_ h
  rw [sealStream_length]
  exact slice_append_middle _ _ _ _ _ (by simp [sealText_length, Config.polyBlockLen])
    (encLE_length 8 _)

theorem footerPt_sealStream (h : pt.length < 2 ^ 64) :
    footerPt (sealStream key nonce aad pt) = pt.length := by
  refine le64_of_slice ?_ h
  rw [sealStream_length]
  exact slice_append_right _ _ _ _ (by simp [sealText_length]; omega) (encLE_length 8 _)

/-- The ciphertext stands after the padded associated data (R176, R177). -/
theorem cipherSegment_sealStream (ha : aad.length < 2 ^ 64) (hp : pt.length < 2 ^ 64) :
    cipherSegment (sealStream key nonce aad pt) = sealText key nonce pt := by
  have hsplit : sealStream key nonce aad pt = pad16 aad ++ sealText key nonce pt ++
      (zeros (pad16len pt.length - pt.length) ++ encLE 8 aad.length ++ encLE 8 pt.length) := by
    rw [sealStream, pad16.eq_1 (sealText key nonce pt), sealText_length]
    simp only [List.append_assoc]
  rw [cipherSegment, footerAad_sealStream _ _ _ _ ha, footerPt_sealStream _ _ _ _ hp, hsplit]
  exact slice_append_middle _ _ _ _ _ (pad16_length aad) (sealText_length key nonce pt)

/-- The associated data is the start of the stream (R176, R177). -/
theorem take_sealStream : (sealStream key nonce aad pt).take aad.length = aad := by
  simp [sealStream, pad16]

end

/-! ### AEAD_DECRYPT of a sealed stream -/

/-- A well-formed command whose transaction the port can carry is issuable (R88). -/
theorem issuable_of_wf {i : Instr} (hw : i.wf = true) (ht : (encode i).wf = true) : Issuable i :=
  ⟨if_pos hw, ht, encodedInstructionsDecode i hw⟩

theorem issuable_aeadDecrypt {buf tag : List Byte} (ht : tag.length = 16)
    (h : buf.length + 16 ≤ 2 ^ 64 - 1) : Issuable (.aeadDecrypt buf tag) := by
  have hlen : (buf ++ tag).length ≤ Config.lengthMax := by rwa [List.length_append, ht]
  exact issuable_of_wf (Bool.and_eq_true_iff.mpr ⟨decide_eq_true ht, decide_eq_true hlen⟩)
    (decide_eq_true hlen)

/-- In a fresh session of the same key and nonce, the tag of the stream is the sealed one, and the
plaintext is written (R176, R177). -/
theorem exec_aeadDecrypt_sealed {key nonce aad pt : List Byte} {s₀ s : State} {n : Nat}
    (h : Streamed s₀ n (keySplit (oneTimeKey key nonce)) [] s) (hS : s.cc.S = sessionCipher key nonce)
    (ha : s.a = ⟨.OPEN, true, 0, 0⟩) (hpt : pt.length ≤ 64 * (2 ^ 32 - 2))
    (hlen : (sealStream key nonce aad pt).length + 16 ≤ 2 ^ 64 - 1) (hn : pt.length ≤ n) :
    ∃ rest, exec (.aeadDecrypt (sealStream key nonce aad pt) (sealTag key nonce aad pt)) s
      = .next { s with
          cc := ⟨withCounter s.cc.S (keystreamXor s.cc.S (sealText key nonce pt)).2, s.cc.CTR0, .EMPTY⟩
          p := ⟨s.p.ACC, s.p.R, s.p.S, .EMPTY⟩
          a := ⟨.IDLE, false, 0, 0⟩
          busy := none
          response := some ⟨.ok, aad⟩
          sink := s.sink ++ pt
          sinkAnswers := rest
          divisions := s.divisions.tail } := by
  have hpad := le_pad16len aad.length
  have hpad' := le_pad16len pt.length
  rw [sealStream_length] at hlen
  have haad := footerAad_sealStream key nonce aad pt (by omega)
  have hptl := footerPt_sealStream key nonce aad pt (by omega)
  have hseg := cipherSegment_sealStream key nonce aad pt (by omega) (by omega)
  have htag : bufferTag s (sealStream key nonce aad pt) = sealTag key nonce aad pt := by
    rw [bufferTag, h.acc, h.mulKey, h.addKey, polyAbsorb_nil]
    rfl
  have htext : bufferText s (sealStream key nonce aad pt) = pt := by
    rw [bufferText, hseg, hS]
    exact keystreamXor_keystreamXor _ _
  obtain ⟨m, hm, hle⟩ := h.answers
  obtain ⟨l, -, hacc⟩ := sinkAccepts_divided (s := s.beginDecrypt (sealStream key nonce aad pt))
    (sinkWrite_ne_nil pt []) hm (by rw [sinkWrite_bytes]; exact hn.trans hle)
  have hfit : pad16len aad.length + pt.length
      ≤ pad16len aad.length + pad16len pt.length + 16 - Config.polyBlockLen :=
    Nat.le_sub_of_add_le (Nat.add_le_add_right (Nat.add_le_add_left hpad' _) _)
  refine ⟨List.replicate l .accept, ?_⟩
  rw [exec_aeadDecrypt (by rw [ha]) (by rw [ha]) htag
    (by rw [sealStream_length]; exact Nat.le_add_left _ _)
    (by rwa [haad, hptl, sealStream_length])
    (by rw [hptl, hS]; exact blocksAvail_session hpt), htext, writeOut_plaintext hacc, haad,
    take_sealStream, State.beginDecrypt, hseg]
  simp only [State.setCounter_a, ha]
  rfl

/-- Settles O59: AEAD_INIT opens a session of the same key, in which AEAD_DECRYPT is answered OK. -/
theorem openRecoversTheSealed : Obligations.OpenRecoversTheSealed := by
  intro key nonce aad pt s n hk hn hpt hlen hb ha hle
  let buf := sealStream key nonce aad pt
  let tag := sealTag key nonce aad pt
  have hi : ∀ i ∈ expand (.aeadOpen key nonce buf tag), Issuable i := by
    simp only [expand, List.forall_mem_cons, List.not_mem_nil, false_implies, implies_true, and_true]
    exact ⟨issuable_aeadInit hk hn, issuable_aeadDecrypt (polyTag_length _ _) hlen⟩
  obtain ⟨t, ht, hx, hS, hta⟩ := aeadInit_answersOk hk hn hb ha
  have hx' : Streamed s n (keySplit (oneTimeKey key nonce)) [] (t.takeEvent t.host) := { hx with }
  obtain ⟨rest, hd⟩ := exec_aeadDecrypt_sealed hx' hS hta hpt hlen hle
  have hall : AllAnswerOk (expand (.aeadOpen key nonce buf tag)) s _ :=
    ⟨t, ht, _, ⟨hd, rfl, rfl⟩, rfl⟩
  obtain ⟨y, hy, hl, hu⟩ := issueFor_allAnswerOk hi hb hall false
  refine ⟨_, y, issue_of_issuable hi s, hy, hl, ?_⟩
  rw [hu]
  exact ⟨rfl, by simp [hx.sink], rfl, rfl, rfl, rfl, hx.host⟩

end Sys2Proof.Machine
end
